-- ==== Sys2Proof/Word.lean ====
section
/-! DEFINITION. The values an operation word carries: addresses, bytes and the small identifiers, each as wide as its field of
the word. -/

namespace Sys2Proof

/-- One 32-bit operation word (R80). -/
abbrev Word := BitVec 32

/-- A bus address, the 16 bits of the word's `addr` field (R50, R80). -/
abbrev Addr := BitVec 16

/-- A bus datum, one byte, the 8 bits of the word's `data` field (R50, R80). -/
abbrev Byte := BitVec 8

/-- An ownerId, the 8 bits of its field in HREG word 0 (R31, R87). -/
abbrev OwnerId := BitVec 8

/-- A modelId as the operation word carries it, 8 bits (R82, R214). -/
abbrev ModelId := BitVec 8

end Sys2Proof
end

