-- ==== Sys2Proof/Syntax.lean ====
section
/-! DEFINITION. The operations of the block: one constructor of `Instr` per row of the opcode table (R82, R84), with the
registry entries that HREG makes (R31). -/

namespace Sys2Proof

/-- Which handler functions a registry entry invokes (R31). The code 3 is reserved and has no constructor (R90 (e)). -/
inductive Role where
  | reg
  | win
  | foreign
deriving DecidableEq, Repr

/-- What HREG registers: the source's IOPortHandler with the fields `exclusive` and `role` (R31, R110). -/
structure Descriptor where
  /-- Lowest address claimed. -/
  base : Addr
  /-- Highest address claimed, inclusive (the spec's `end`). -/
  endAddr : Addr
  /-- Address bits that are 0 here are don't-care inside the range. -/
  mask : Addr
  readCapable : Bool
  ownerId : OwnerId
  exclusive : Bool
  role : Role
deriving DecidableEq, Repr

/-- One entry of the handler registry `H` (R31): a descriptor under the id that `register` returned. -/
structure Entry where
  id : Nat
  desc : Descriptor
deriving DecidableEq, Repr

/-- The second operand of `dispatch` (R112): k = 1 read, 0 write. -/
inductive AccessKind where
  | write
  | read
deriving DecidableEq, Repr

/-- The operations. The sixteen handler rows and the two class rows carry the full bus address of the cycle; a write
carries its data byte. The structured operands of SNAPLOAD and ATTACH are out of band (R94) and are not fields here. -/
inductive Instr where
  | foreignWrite (addr : Addr) (data : Byte)
  | foreignRead (addr : Addr)
  | regWrite (addr : Addr) (data : Byte)
  | regRead (addr : Addr)
  | windowWrite (addr : Addr) (data : Byte)
  | windowRead (addr : Addr)
  | romlWrite (addr : Addr) (data : Byte)
  | romlRead (addr : Addr)
  | romhWrite (addr : Addr) (data : Byte)
  | romhRead (addr : Addr)
  | fb1Write (addr : Addr) (data : Byte)
  | fb1Read (addr : Addr)
  | fb2Write (addr : Addr) (data : Byte)
  | fb2Read (addr : Addr)
  | sysWrite (addr : Addr) (data : Byte)
  | sysRead (addr : Addr)
  | seten (b : Bool)
  | setsw (b : Bool)
  | getresEnabled
  | getresSwitchOn
  | getresMode
  | hreg (d : Descriptor)
  | hunreg (id : BitVec 24)
  | dispatch (addr : Addr) (kind : AccessKind)
  | snapsave
  | snapload
  | attach (modelId : ModelId)
  | detach
  | setdef
  | setmode (value : Byte)
  | reservedE (rest : BitVec 28)
  | reset
  | buswr (addr : Addr) (data : Byte)
  | busrd (addr : Addr)
deriving DecidableEq, Repr

end Sys2Proof
end

