-- ==== Sys2Proof/Config.lean ====
section
/-! DEFINITION. The parameters of the block (R7), each a field of `Config`, and the opaque functions that stand for the choices
the spec leaves open. -/

namespace Sys2Proof

/-- ARBITRATION (R7, R114, U1): the rule that picks one of several overlapping hit entries. -/
inductive Arbitration where
  /-- The default of R114: the newest exclusive hit entry if there is one, else the newest hit entry. -/
  | newestExclusiveFirst
  /-- Any other choice function, the `n`-th of `Config.arbitrate` (U1: "a total function from the non-empty list of hit
  entries to one of them"). -/
  | other (n : Nat)
deriving DecidableEq, Repr

/-- PAGE_ON_ENABLE (R7, R28, U6): what the page register holds after an enable. -/
inductive PageOnEnable where
  /-- The default: the page register keeps its value. -/
  | keep
  /-- "a cautious model uses any value in [0, PAGE_COUNT)" (U6): the environment's draw. -/
  | draw
deriving DecidableEq, Repr

/-- U13: which byte sequences of the right length are well-formed images. -/
inductive ImageRule where
  /-- The default: an image is well formed exactly when its length is MEM_SIZE (R214). -/
  | lengthOnly
  /-- The length and a further predicate, the `n`-th of `Config.imageAccepts`. -/
  | further (n : Nat)
deriving DecidableEq, Repr

/-- The parameters of R7: "A model takes each as a configuration field". A `Config` is plain data and no operation changes it. -/
structure Config where
  /-- ADDR_W, the width of a bus address (log 5). -/
  addrW : Nat
  /-- DATA_W, the width of a bus datum (log 5). -/
  dataW : Nat
  regBase : Addr
  regEnd : Addr
  regMask : Addr
  winBase : Addr
  winEnd : Addr
  winMask : Addr
  pageCount : Nat
  /-- PAGE_BITS, the width of the page register: log2(PAGE_COUNT). -/
  pageBits : Nat
  /-- MEM_SIZE, the size of onboard memory in bytes (U5). -/
  memSize : Nat
  pageSize : Nat
  pageMask : Addr
  /-- FLOAT, the fixed bus-floating read value. -/
  float : Byte
  vecLo : Addr
  vecHi : Addr
  romlBase : Addr
  romlEnd : Addr
  romhBase : Addr
  romhEnd : Addr
  fb1Base : Addr
  fb1End : Addr
  fb2Base : Addr
  fb2End : Addr
  ownerSelf : OwnerId
  /-- OWNER_W, the width of an ownerId (log 5). -/
  ownerW : Nat
  modelCanon : ModelId
  snapVersion : Nat
  /-- N_SLOTS: the capacity of the registry, `none` for unbounded. -/
  nSlots : Option Nat
  arbitration : Arbitration
  pageOnEnable : PageOnEnable
  loadFiresTrigger : Bool
  vecWriteRedirect : Bool
  imageRule : ImageRule
deriving DecidableEq, Repr

/-- The canonical model: the value column of R7. -/
def Config.canonical : Config where
  addrW := 16
  dataW := 8
  regBase := 0xDE00#16
  regEnd := 0xDEFF#16
  regMask := 0x0007#16
  winBase := 0xDF00#16
  winEnd := 0xDFFF#16
  winMask := 0x00FF#16
  pageCount := 8
  pageBits := 3
  memSize := 2048
  pageSize := 256
  pageMask := 0x00FF#16
  float := 0x00#8
  vecLo := 0xFFFA#16
  vecHi := 0xFFFB#16
  romlBase := 0x8000#16
  romlEnd := 0x9FFF#16
  romhBase := 0xE000#16
  romhEnd := 0xFFFF#16
  fb1Base := 0x1000#16
  fb1End := 0x7FFF#16
  fb2Base := 0xA000#16
  fb2End := 0xBFFF#16
  ownerSelf := 1#8
  ownerW := 8
  modelCanon := 0#8
  snapVersion := 1
  nSlots := none
  arbitration := .newestExclusiveFirst
  pageOnEnable := .keep
  loadFiresTrigger := false
  vecWriteRedirect := true
  imageRule := .lengthOnly

/-- An inclusive address range test, unsigned (R56, R113). -/
def inRange (lo hi a : Addr) : Bool := decide (lo ≤ a) && decide (a ≤ hi)

/-- FREE VALUE (DESIGN CHOICE, log 6): the choice functions other than the default of R114. Given the list of hit
entries it answers an index, which the machine reduces modulo the list's length. -/
opaque Config.arbitrate : Nat → List Entry → Nat

/-- FREE VALUE (DESIGN CHOICE, log 15): further predicates on an image of the right length (U13). -/
opaque Config.imageAccepts : Nat → List Byte → Bool

end Sys2Proof
end

