-- ==== Sys2Proof/WellFormed.lean ====
section
/-! DEFINITION. Which terms of `Instr` are operations of the block: a fall-through row's address lies in its range (R84), and
the reserved operation code is never one (R90 (a)). Every other operand is legal (R91). -/

namespace Sys2Proof

/-- The check of one operation under the parameters `c`. -/
def Instr.wf (c : Config) : Instr → Bool
  | .foreignWrite _ _ => true
  | .foreignRead _ => true
  | .regWrite _ _ => true
  | .regRead _ => true
  | .windowWrite _ _ => true
  | .windowRead _ => true
  | .romlWrite a _ => inRange c.romlBase c.romlEnd a
  | .romlRead a => inRange c.romlBase c.romlEnd a
  | .romhWrite a _ => inRange c.romhBase c.romhEnd a
  | .romhRead a => inRange c.romhBase c.romhEnd a
  | .fb1Write a _ => inRange c.fb1Base c.fb1End a
  | .fb1Read a => inRange c.fb1Base c.fb1End a
  | .fb2Write a _ => inRange c.fb2Base c.fb2End a
  | .fb2Read a => inRange c.fb2Base c.fb2End a
  | .sysWrite _ _ => true
  | .sysRead _ => true
  | .seten _ => true
  | .setsw _ => true
  | .getresEnabled => true
  | .getresSwitchOn => true
  | .getresMode => true
  | .hreg _ => true
  | .hunreg _ => true
  | .dispatch _ _ => true
  | .snapsave => true
  | .snapload => true
  | .attach _ => true
  | .detach => true
  | .setdef => true
  | .setmode _ => true
  | .reservedE _ => false
  | .reset => true
  | .buswr _ _ => true
  | .busrd _ => true

end Sys2Proof
end

