-- ==== Sys2Proof/Decode.lean ====
section
/-! DEFINITION. Decoding an operation (R80 to R90): first the word alone, which gives a control operation or the class of
a bus cycle, then the row of a bus cycle from the state's row conditions (R83, R84). After it the encoder. -/

namespace Sys2Proof

/-- Why a decoder refuses: each is a reserved encoding of R90, or a word that is not there. -/
inductive DecodeError where
  /-- No word stands at the head of the stream. Safe. -/
  | noWord
  /-- R90 (a): `op` = 0xE. Safe. -/
  | reservedOp
  /-- R90 (b): bits 27:24 are not 0. Safe. -/
  | reservedZ
  /-- R90 (c): a bit the row does not use is not 0. Safe. -/
  | reservedBits
  /-- R90 (d): GETRES with selector 3. Safe. -/
  | reservedSelector
  /-- R90 (e): HREG word 0 with `role` = 3. Safe. -/
  | reservedRole
  /-- R90 (e): HREG word 2 with a nonzero upper half. Safe. -/
  | reservedUpper
  /-- HREG with fewer than two words after the first (R88; log 12). Safe. -/
  | truncated
deriving DecidableEq, Repr

/-! ### Fields of the operation word (R80, R87) -/

def opOf (w : Word) : BitVec 4 := w.extractLsb' 28 4
def zOf (w : Word) : BitVec 4 := w.extractLsb' 24 4
def addrOf (w : Word) : Addr := w.extractLsb' 8 16
def dataOf (w : Word) : Byte := w.extractLsb' 0 8
def hregOwnerOf (w : Word) : OwnerId := w.extractLsb' 16 8
def hregUnusedOf (w : Word) : BitVec 12 := w.extractLsb' 4 12
def hregRoleOf (w : Word) : BitVec 2 := w.extractLsb' 2 2
def highHalfOf (w : Word) : BitVec 16 := w.extractLsb' 16 16
def lowHalfOf (w : Word) : BitVec 16 := w.extractLsb' 0 16
def bit0Of (w : Word) : Bool := w.getLsbD 0
def bit1Of (w : Word) : Bool := w.getLsbD 1

/-- The role codes of R31: 0 REG, 1 WIN, 2 FOREIGN, 3 reserved. -/
def roleOf (r : BitVec 2) : Option Role :=
  if r = 0#2 then some .reg
  else if r = 1#2 then some .win
  else if r = 2#2 then some .foreign
  else none

/-- How many words an operation has, from `op` of its first word alone (R88). -/
def opLength (w : Word) : Nat := if opOf w = 0x5#4 then 3 else 1

/-- A control operation without operands: every bit of 23:0 must be 0 (R81, R90 (c)). -/
def decodePlain (w : Word) (i : Instr) : Except DecodeError Instr :=
  if w.extractLsb' 0 24 = 0#24 then .ok i else .error .reservedBits

/-- A control operation with a one-bit operand in bit 0: bits 23:1 must be 0 (R82, R90 (c)). -/
def decodeBit (w : Word) (i : Bool → Instr) : Except DecodeError Instr :=
  if w.extractLsb' 1 23 = 0#23 then .ok (i (bit0Of w)) else .error .reservedBits

/-- A control operation with a byte operand: the `addr` field must be 0 (R82, R90 (c)). -/
def decodeByte (w : Word) (i : Byte → Instr) : Except DecodeError Instr :=
  if addrOf w = 0#16 then .ok (i (dataOf w)) else .error .reservedBits

/-- GETRES: bits 23:2 must be 0, the selector picks the resource (R82, R90 (c), (d)). -/
def decodeGetres (w : Word) : Except DecodeError Instr :=
  if w.extractLsb' 2 22 = 0#22 then
    if w.extractLsb' 0 2 = 0#2 then .ok .getresEnabled
    else if w.extractLsb' 0 2 = 1#2 then .ok .getresSwitchOn
    else if w.extractLsb' 0 2 = 2#2 then .ok .getresMode
    else .error .reservedSelector
  else .error .reservedBits

/-- DISPATCH: bits 7:1 must be 0, bit 0 is the access kind, 1 for a read (R82). -/
def decodeDispatch (w : Word) : Except DecodeError Instr :=
  if w.extractLsb' 1 7 = 0#7 then .ok (.dispatch (addrOf w) (if bit0Of w then .read else .write))
  else .error .reservedBits

/-- The operations of one word, by `op` (R82). HREG has its own reader. -/
def decodeSingle (w : Word) : Except DecodeError Instr :=
  match (opOf w).toNat with
  | 0x0 => .ok (.buswr (addrOf w) (dataOf w))
  | 0x1 => .ok (.busrd (addrOf w))
  | 0x2 => decodeBit w .seten
  | 0x3 => decodeBit w .setsw
  | 0x4 => decodeGetres w
  | 0x6 => .ok (.hunreg (w.extractLsb' 0 24))
  | 0x7 => decodeDispatch w
  | 0x8 => decodePlain w .snapsave
  | 0x9 => decodePlain w .snapload
  | 0xA => decodeByte w .attach
  | 0xB => decodePlain w .detach
  | 0xC => decodePlain w .setdef
  | 0xD => decodeByte w .setmode
  | 0xF => decodePlain w .reset
  | _ => .error .reservedOp

/-- HREG from its first word and the words after it (R87, R88, R90 (c), (e)). -/
def decodeHreg (w : Word) : List Word → Except DecodeError (Instr × List Word)
  | w1 :: w2 :: rest =>
    if hregUnusedOf w = 0#12 then
      match roleOf (hregRoleOf w) with
      | none => .error .reservedRole
      | some role =>
        if highHalfOf w2 = 0#16 then
          .ok (.hreg { base := highHalfOf w1, endAddr := lowHalfOf w1, mask := lowHalfOf w2,
                       readCapable := bit0Of w, ownerId := hregOwnerOf w, exclusive := bit1Of w, role := role },
               rest)
        else .error .reservedUpper
    else .error .reservedBits
  | _ => .error .truncated

/-- What the words alone say: the operation at their head, a bus cycle by its class row, and the words after it. -/
def decodeOp : List Word → Except DecodeError (Instr × List Word)
  | [] => .error .noWord
  | w :: rest =>
    if opOf w = 0xE#4 then .error .reservedOp
    else if zOf w = 0#4 then
      if opOf w = 0x5#4 then decodeHreg w rest
      else match decodeSingle w with
        | .ok i => .ok (i, rest)
        | .error e => .error e
    else .error .reservedZ

/-! ### The row of a bus cycle (R83, R84) -/

/-- The state conditions the rows of R84 test at one address: the role of the entry `dispatch` returns, and `cfgMapped`. -/
structure RowCond where
  winner : Option Role
  mapped : Bool
deriving DecidableEq, Repr

/-- The handler rows, without the direction of the cycle. -/
inductive BusRow where
  | foreign
  | reg
  | window
  | roml
  | romh
  | fb1
  | fb2
  | sys
deriving DecidableEq, Repr

/-- "the entry's `role` selects the handler" (R83 step 1). -/
def Role.row : Role → BusRow
  | .reg => .reg
  | .win => .window
  | .foreign => .foreign

/-- The priority order of R83: the registry, then the fall-through ranges while `cfgMapped` is 1, then system memory. -/
def busRow (c : Config) (q : RowCond) (a : Addr) : BusRow :=
  match q.winner with
  | some r => r.row
  | none =>
    if q.mapped && inRange c.romlBase c.romlEnd a then .roml
    else if q.mapped && inRange c.romhBase c.romhEnd a then .romh
    else if q.mapped && inRange c.fb1Base c.fb1End a then .fb1
    else if q.mapped && inRange c.fb2Base c.fb2End a then .fb2
    else .sys

def BusRow.writeRow : BusRow → Addr → Byte → Instr
  | .foreign => .foreignWrite
  | .reg => .regWrite
  | .window => .windowWrite
  | .roml => .romlWrite
  | .romh => .romhWrite
  | .fb1 => .fb1Write
  | .fb2 => .fb2Write
  | .sys => .sysWrite

def BusRow.readRow : BusRow → Addr → Instr
  | .foreign => .foreignRead
  | .reg => .regRead
  | .window => .windowRead
  | .roml => .romlRead
  | .romh => .romhRead
  | .fb1 => .fb1Read
  | .fb2 => .fb2Read
  | .sys => .sysRead

/-- A class row becomes the handler row that takes the cycle; an operation that is no class row is kept. -/
def selectRow (c : Config) (q : Addr → RowCond) : Instr → Instr
  | .buswr a d => (busRow c (q a) a).writeRow a d
  | .busrd a => (busRow c (q a) a).readRow a
  | i => i

/-- The decoder: the operation at the head of the words, under the parameters and the row conditions. -/
def decodeWith (c : Config) (q : Addr → RowCond) (ws : List Word) : Except DecodeError (Instr × List Word) :=
  match decodeOp ws with
  | .ok (i, rest) => .ok (selectRow c q i, rest)
  | .error e => .error e

/-- The row conditions under which "the decode reduces to the bit patterns of rule R84" (R83): the instance's own two
entries and nothing else in `H`, every fall-through row in the path. -/
def canonicalCond (c : Config) (a : Addr) : RowCond where
  winner :=
    if inRange c.regBase c.regEnd a then some .reg
    else if inRange c.winBase c.winEnd a then some .win
    else none
  mapped := true

/-- The words of an instruction whose bits are numbered as the opcode table numbers them: word 0 holds bits 31:0, and
the bits at and above `nbits` are 0. Three words, the length of the longest operation (R88). -/
def tableWords (nbits w : Nat) : List Word :=
  let v := w % 2 ^ nbits
  [BitVec.ofNat 32 v, BitVec.ofNat 32 (v / 2 ^ 32), BitVec.ofNat 32 (v / 2 ^ 64)]

/-- The words of `tableWords` that the operation at their head has (R88). -/
def tableOpWords (nbits w : Nat) : List Word :=
  (tableWords nbits w).take (opLength (BitVec.ofNat 32 (w % 2 ^ nbits)))

/-- The operation the decoder reads from one row's word, by the bit patterns of R84 (log 11). -/
def decodeTableWord (nbits w : Nat) : Option Instr :=
  match decodeWith .canonical (canonicalCond .canonical) (tableOpWords nbits w) with
  | .ok (i, _) => some i
  | .error _ => none

/-! ### The encoder (R80, R82, R87, R92) -/

/-- A bus word; a read has 0 in its ignored data field (R92). -/
def busWord (op : BitVec 4) (a : Addr) (d : Byte) : Word := op ++ 0#4 ++ a ++ d

/-- A control word with its 24 operand bits. -/
def ctlWord (op : BitVec 4) (v : BitVec 24) : Word := op ++ 0#4 ++ v

def roleCode : Role → BitVec 2
  | .reg => 0#2
  | .win => 1#2
  | .foreign => 2#2

def bit (b : Bool) : BitVec 1 := BitVec.ofBool b

def kindBit : AccessKind → Bool
  | .read => true
  | .write => false

/-- The 24 operand bits of a one-bit operation. -/
def bitArg (b : Bool) : BitVec 24 := 0#23 ++ bit b

/-- The 24 operand bits of a one-byte operation. -/
def byteArg (m : Byte) : BitVec 24 := 0#16 ++ m

/-- The 24 operand bits of DISPATCH. -/
def dispatchArg (a : Addr) (k : AccessKind) : BitVec 24 := a ++ (0#7 ++ bit (kindBit k))

/-- The three words of HREG (R87). -/
def hregWords (d : Descriptor) : List Word :=
  [0x5#4 ++ 0#4 ++ d.ownerId ++ 0#12 ++ roleCode d.role ++ bit d.exclusive ++ bit d.readCapable,
   d.base ++ d.endAddr,
   0#16 ++ d.mask]

/-- The words of an operation (R82, R84, R87, R92). -/
def encode : Instr → List Word
  | .foreignWrite a d => [busWord 0x0#4 a d]
  | .foreignRead a => [busWord 0x1#4 a 0#8]
  | .regWrite a d => [busWord 0x0#4 a d]
  | .regRead a => [busWord 0x1#4 a 0#8]
  | .windowWrite a d => [busWord 0x0#4 a d]
  | .windowRead a => [busWord 0x1#4 a 0#8]
  | .romlWrite a d => [busWord 0x0#4 a d]
  | .romlRead a => [busWord 0x1#4 a 0#8]
  | .romhWrite a d => [busWord 0x0#4 a d]
  | .romhRead a => [busWord 0x1#4 a 0#8]
  | .fb1Write a d => [busWord 0x0#4 a d]
  | .fb1Read a => [busWord 0x1#4 a 0#8]
  | .fb2Write a d => [busWord 0x0#4 a d]
  | .fb2Read a => [busWord 0x1#4 a 0#8]
  | .sysWrite a d => [busWord 0x0#4 a d]
  | .sysRead a => [busWord 0x1#4 a 0#8]
  | .seten b => [ctlWord 0x2#4 (bitArg b)]
  | .setsw b => [ctlWord 0x3#4 (bitArg b)]
  | .getresEnabled => [ctlWord 0x4#4 0#24]
  | .getresSwitchOn => [ctlWord 0x4#4 1#24]
  | .getresMode => [ctlWord 0x4#4 2#24]
  | .hreg d => hregWords d
  | .hunreg id => [ctlWord 0x6#4 id]
  | .dispatch a k => [ctlWord 0x7#4 (dispatchArg a k)]
  | .snapsave => [ctlWord 0x8#4 0#24]
  | .snapload => [ctlWord 0x9#4 0#24]
  | .attach m => [ctlWord 0xA#4 (byteArg m)]
  | .detach => [ctlWord 0xB#4 0#24]
  | .setdef => [ctlWord 0xC#4 0#24]
  | .setmode v => [ctlWord 0xD#4 (byteArg v)]
  | .reservedE rest => [0xE#4 ++ rest]
  | .reset => [ctlWord 0xF#4 0#24]
  | .buswr a d => [busWord 0x0#4 a d]
  | .busrd a => [busWord 0x1#4 a 0#8]

/-- The class row of a handler row (R82: BUSWR and BUSRD are the classes of all bus cycles); any other operation is its
own class. -/
def Instr.classRow : Instr → Instr
  | .foreignWrite a d => .buswr a d
  | .foreignRead a => .busrd a
  | .regWrite a d => .buswr a d
  | .regRead a => .busrd a
  | .windowWrite a d => .buswr a d
  | .windowRead a => .busrd a
  | .romlWrite a d => .buswr a d
  | .romlRead a => .busrd a
  | .romhWrite a d => .buswr a d
  | .romhRead a => .busrd a
  | .fb1Write a d => .buswr a d
  | .fb1Read a => .busrd a
  | .fb2Write a d => .buswr a d
  | .fb2Read a => .busrd a
  | .sysWrite a d => .buswr a d
  | .sysRead a => .busrd a
  | .seten b => .seten b
  | .setsw b => .setsw b
  | .getresEnabled => .getresEnabled
  | .getresSwitchOn => .getresSwitchOn
  | .getresMode => .getresMode
  | .hreg d => .hreg d
  | .hunreg id => .hunreg id
  | .dispatch a k => .dispatch a k
  | .snapsave => .snapsave
  | .snapload => .snapload
  | .attach m => .attach m
  | .detach => .detach
  | .setdef => .setdef
  | .setmode v => .setmode v
  | .reservedE rest => .reservedE rest
  | .reset => .reset
  | .buswr a d => .buswr a d
  | .busrd a => .busrd a

end Sys2Proof
end

