-- ==== Sys2Proof/Machine/State.lean ====
section
/-! DEFINITION. The state of the machine as plain data: the parameters, the block's state (R20), the environment the model
must supply (R15) and the block's outputs (R41); the reasons a step can stop; the state after reset (R40). -/

namespace Sys2Proof.Machine

/-- A memory: (address, byte) pairs in canonical form, addresses rising and no byte equal to what an unlisted address
reads as. -/
abbrev Memory := List Host.Cell

/-- What an address without an entry reads as: 0x00, the spec's fill of fresh onboard memory (R67) and the start contents
of the reference environment's system memory (95_test_vectors.md Part 3; log 3). -/
abbrev Memory.unlisted : Byte := 0x00#8

/-- The canonical form: addresses strictly rising, no entry equal to `Memory.unlisted`. -/
def Memory.wf : Memory → Bool
  | [] => true
  | (a, v) :: m => decide (v ≠ Memory.unlisted) && m.all (fun cell => decide (a < cell.1)) && Memory.wf m

/-- Every listed address is below `n`. -/
def Memory.within (n : Nat) (m : Memory) : Bool := m.all fun cell => decide (cell.1 < n)

/-- The `rawMemory` of a snapshot record, a byte sequence with its length, byte i being `mem[i]` (R210). -/
structure RawMemory where
  size : Nat
  bytes : List Byte
  length_eq : bytes.length = size
deriving DecidableEq, Repr

/-- R210. The length of `rawMemory` is MEM_SIZE of the instance that saved it (`SnapshotRecord.typed`, log 28). -/
structure SnapshotRecord where
  formatVersion : Nat
  enabled : Bool
  switchOn : Bool
  /-- A natural number; loading masks it (R134, R212). -/
  currentPage : Nat
  rawMemory : RawMemory
deriving DecidableEq, Repr

/-- The result codes of R230. None of them stops the machine (R235). -/
inductive Result where
  | ok
  | outOfMemory
  | invalidImage
  | unsupportedSnapshotVersion
  | idempotent
deriving DecidableEq, Repr

/-- The numeric codes of R230 (D22). -/
def Result.code : Result → Nat
  | .ok => 0
  | .outOfMemory => 1
  | .invalidImage => 2
  | .unsupportedSnapshotVersion => 3
  | .idempotent => 4

/-- The output events (R11, R41). -/
inductive Event where
  | cfgMapped
  | cfgReverted
  | nmiTrigger
  | nmiRelease
deriving DecidableEq, Repr

/-- The HIT output: which handler took a bus cycle (R115). `none` is system memory. -/
inductive Hit where
  | entry (id : Nat)
  | roml
  | romh
  | fb1
  | fb2
  | none
deriving DecidableEq, Repr

/-- The output value of an operation that is no bus cycle (R11 `return v`, R41 (b)). -/
inductive OutValue where
  | none
  /-- GETRES. -/
  | bit (b : Bool)
  /-- HREG: the id given. -/
  | handlerId (id : Nat)
  /-- DISPATCH: the chosen entry's id, or "none" (R112). -/
  | handler (id : Option Nat)
  /-- SNAPSAVE: the record, or none while disabled (R211). -/
  | record (r : Option SnapshotRecord)
deriving DecidableEq, Repr

/-- A call made into the environment (R11; log 21). -/
inductive EnvCall where
  | allocOk
  | sysRead (addr : Addr)
  | sysWrite (addr : Addr) (v : Byte)
  | foreignRead (ownerId : OwnerId) (ra : Addr)
  | foreignWrite (ownerId : OwnerId) (ra : Addr) (v : Byte)
deriving DecidableEq, Repr

/-- What the environment answers and hands over during one operation: free inputs (log 2). -/
structure Inputs where
  /-- `AllocOK()`, "a free Boolean input of the step" (R163). -/
  allocOk : Bool
  /-- `SysRead(addr)`: a byte of the system memory handler's own, or `none` for the reference environment's array (R66). -/
  sysReply : Option Byte
  /-- `ForeignRead(ownerId, ra)` as (byte, bit), or `none` for the reference environment's answer (R118). -/
  foreignReply : Option (Byte × Bool)
  /-- The out-of-band operand of SNAPLOAD (R94). -/
  record : SnapshotRecord
  /-- The out-of-band operand of ATTACH (R94, R214). -/
  image : Option (List Byte)
  /-- The page after an enable when PAGE_ON_ENABLE is `draw` (U6); masked on assignment (R134). -/
  drawPage : Nat
deriving DecidableEq, Repr

/-- The block's state, complete by R20. -/
structure Block where
  enabled : Bool
  switchOn : Bool
  /-- The page index, PAGE_BITS wide: every assignment masks it (R28, R134), so it is below PAGE_COUNT (INV1 of R36). -/
  page : Nat
  /-- Onboard memory: absent, or its bytes by offset. -/
  mem : Option Memory
  valid : Bool
  freezePending : Bool
  cfgMapped : Bool
  /-- The ids of the instance's own entries, in increasing order (R33; log 23). -/
  regIds : List Nat
  /-- The handler registry, oldest registration first (R31). -/
  H : List Entry
  nextId : Nat
  attachedModel : Option ModelId
  isDefault : Bool
deriving DecidableEq, Repr

/-- The environment (R15): the stream of operations (log 1), the answers for the operations to come and for the one in
progress (log 2), and the reference environment's system memory (R66; log 3). -/
structure Env where
  script : List Word
  pending : List Inputs
  inp : Inputs
  sys : Memory
deriving DecidableEq, Repr

/-- The outputs (R16, R41). The first five are those of the last operation; `none` where it does not produce one (log 16).
No meaning reads them. -/
structure Out where
  result : Result
  value : OutValue
  dOut : Option Byte
  hit : Option Hit
  validOut : Option Bool
  /-- The event sequence since the start of the run, oldest first. -/
  events : List Event
  /-- The calls into the environment since the start of the run, oldest first. -/
  calls : List EnvCall
deriving DecidableEq, Repr

structure State where
  cfg : Config
  blk : Block
  env : Env
  out : Out
deriving DecidableEq, Repr

/-- Why the machine stops with a fault. -/
inductive Fault where
  /-- Raised by `step` when no operation is left: "it ends when the sequence is exhausted" (R273; log 1). Safe. -/
  | endOfScript
  /-- Raised by an access to onboard memory, and by SNAPSAVE, in a state with `enabled` = 1 and `mem` absent: R11 requires
  `mem` to exist and INV2 (R36) excludes the state, which no run from reset reaches (log 9). Safe. -/
  | onboardMemoryAbsent
deriving DecidableEq, Repr

/-- Why an operation has no meaning. -/
inductive Refusal where
  /-- Raised by `exec` for an instruction that has no meaning yet. Safe. -/
  | notModelled (mnemonic : String)
  /-- Raised by `step` where the decoder refuses, and by RESERVED_E (R90; log 12). Safe. -/
  | reservedEncoding (why : DecodeError)
  /-- Raised by SETMODE and GETRES.mode: the canonical model has no `mode` resource (R166). Safe. -/
  | noModeResource
  /-- Raised by ATTACH with a modelId other than MODEL_CANON: "no other model is specified" (R214, U12). Safe. -/
  | unknownModel
  /-- Raised by `step` when the parameters break a constraint of R8 (log 4). Safe. -/
  | parametersOutsideR8
  /-- Raised by SNAPLOAD of a record whose `rawMemory` is not MEM_SIZE bytes long: "not a SnapshotRecord" (R210, log 28). Safe. -/
  | illTypedRecord
  /-- Raised by HREG, and by an enable path, when a finite registry has no room (R110, U4; log 14). Safe. -/
  | registryFull
deriving DecidableEq, Repr

/-! ### Reset (R40) -/

/-- The value column of R40. -/
def Block.reset : Block where
  enabled := false
  switchOn := false
  page := 0
  mem := none
  valid := false
  freezePending := false
  cfgMapped := false
  regIds := []
  H := []
  nextId := 0
  attachedModel := none
  isDefault := false

/-- `n` bytes of zeros. -/
def RawMemory.zeros (n : Nat) : RawMemory := ⟨n, List.replicate n 0x00#8, List.length_replicate⟩

/-- The answers when none are queued: the reference environment of 95_test_vectors.md ("`AllocOK()` is true unless a vector
says otherwise", R66, R118), a disabled record and no image (DESIGN CHOICE, logs 2 and 24). -/
def Inputs.reference (c : Config) : Inputs where
  allocOk := true
  sysReply := none
  foreignReply := none
  record := { formatVersion := c.snapVersion, enabled := false, switchOn := false, currentPage := 0,
              rawMemory := RawMemory.zeros c.memSize }
  image := none
  drawPage := 0

def Env.reset : Env where
  script := []
  pending := []
  inp := Inputs.reference Config.canonical
  sys := []

def Out.reset : Out where
  result := .ok
  value := .none
  dOut := none
  hit := none
  validOut := none
  events := []
  calls := []

/-- The machine right after reset: the canonical parameters, the block as R40 gives it, no operation performed. -/
def State.reset : State where
  cfg := Config.canonical
  blk := Block.reset
  env := Env.reset
  out := Out.reset

end Sys2Proof.Machine
end

