-- ==== Sys2Proof/Machine/Operands.lean ====
section
/-! DEFINITION. The constraints on the parameters (R8); the operand forms of a bus cycle: the reduced address (R85), the page
permutation (R86, R130), the window offset (R87, R132); and the image of onboard memory as a byte sequence (R50, R210). -/

namespace Sys2Proof.Machine

/-- Two inclusive ranges have no address in common (R8 (c)). A range whose END lies below its BASE holds no address; R7 and R8 do
not say whether a parameter range may be empty, and the model admits it, disjoint from every range (DESIGN CHOICE, log 29). -/
def disjointRanges (r q : Addr × Addr) : Bool :=
  decide (r.2 < r.1) || decide (q.2 < q.1) || decide (r.2 < q.1) || decide (q.2 < r.1)

/-- The six ranges of R56 in the order R8 (c) lists them. -/
def paramRanges (c : Config) : List (Addr × Addr) :=
  [(c.regBase, c.regEnd), (c.winBase, c.winEnd), (c.romlBase, c.romlEnd), (c.romhBase, c.romhEnd),
    (c.fb1Base, c.fb1End), (c.fb2Base, c.fb2End)]

/-- The widths are those of the fields of an operation word: "one byte (DATA_W = 8 bits) at one ADDR_W = 16-bit address"
(R50, R80), an 8-bit ownerId (R87). No word carries another width (DEDUCED, log 5). -/
def widthsOk (c : Config) : Bool := decide (c.addrW = 16 ∧ c.dataW = 8 ∧ c.ownerW = 8)

/-- R8 (a) and (b): the pages tile onboard memory, and both counts are powers of two. -/
def geometryOk (c : Config) : Bool :=
  decide (c.pageCount = 2 ^ c.pageBits) &&
  decide (c.pageMask.toNat = c.pageSize - 1 ∧ c.pageCount * c.pageSize = c.memSize) &&
  (List.range 17).any fun k => decide (c.pageSize = 2 ^ k)

/-- R8 (c), (d) and (e). -/
def rangesOk (c : Config) : Bool :=
  decide ((paramRanges c).Pairwise fun r q => disjointRanges r q = true) &&
  (inRange c.romhBase c.romhEnd c.vecLo && inRange c.romhBase c.romhEnd c.vecHi) &&
  decide (c.regBase &&& c.regMask = 0#16 ∧ c.winBase &&& c.winMask = 0#16)

/-- N_SLOTS, where it is finite, is "at least 2" (R7). -/
def slotsOk (c : Config) : Bool :=
  match c.nSlots with
  | none => true
  | some k => decide (2 ≤ k)

/-- The constraints on the parameters (R7, R8): "A model built with other values must check them". -/
def paramsOk (c : Config) : Bool := widthsOk c && geometryOk c && rangesOk c && slotsOk c

/-- The address a handler is given: the bits outside the mask are don't-care (R85, R57). -/
def reducedAddr (mask a : Addr) : Addr := a &&& mask

/-- `perm3(a)` (R130): `((a >> 2) & 1) | (a & 2) | ((a & 1) << 2)`, of which only three bits can be nonzero. -/
def perm3 (a : Addr) : BitVec 3 := (((a >>> 2) &&& 1#16) ||| (a &&& 2#16) ||| ((a &&& 1#16) <<< 2)).setWidth 3

/-- `windowOffset(a)` (R132): `page * PAGE_SIZE + (a & PAGE_MASK)`. -/
def windowOffset (c : Config) (page : Nat) (a : Addr) : Nat := page * c.pageSize + (a &&& c.pageMask).toNat

/-- Masking on assignment (R134): `v & (PAGE_COUNT - 1)`. -/
def maskPage (c : Config) (v : Nat) : Nat := v &&& (c.pageCount - 1)

/-- The descriptor of the instance's register-range entry (R167). -/
def regDesc (c : Config) : Descriptor where
  base := c.regBase
  endAddr := c.regEnd
  mask := c.regMask
  readCapable := false
  ownerId := c.ownerSelf
  exclusive := false
  role := .reg

/-- The descriptor of the instance's window-range entry (R167). -/
def winDesc (c : Config) : Descriptor where
  base := c.winBase
  endAddr := c.winEnd
  mask := c.winMask
  readCapable := true
  ownerId := c.ownerSelf
  exclusive := false
  role := .win

/-- One of the two redirected vector addresses (R56, R186). -/
def isVector (c : Config) (a : Addr) : Bool := decide (a = c.vecLo) || decide (a = c.vecHi)

/-- "exactly MEM_SIZE bytes": a value with a `rawMemory` of another length "is not a SnapshotRecord" (R210; log 28). -/
def SnapshotRecord.typed (c : Config) (r : SnapshotRecord) : Bool := decide (r.rawMemory.size = c.memSize)

/-- What makes an image well formed (R214, U13): its length is MEM_SIZE, and the further predicate if one is set. -/
def imageOk (c : Config) (img : List Byte) : Bool :=
  decide (img.length = c.memSize) &&
  match c.imageRule with
  | .lengthOnly => true
  | .further n => Config.imageAccepts n img

end Sys2Proof.Machine
end

