-- ==== Sys2Proof/Machine/Flags.lean ====
section
/-! DEFINITION. The flags: the validity flag and the VALID output (R23, R192), the NMI latch and the configuration level
with the events that go with them (R24, R29, R142, R143), and the output levels (R16). -/

namespace Sys2Proof.Machine

/-- `emit E`: append to the output event sequence (R11). -/
def State.emit (e : Event) (s : State) : State := { s with out := { s.out with events := s.out.events ++ [e] } }

/-- The validity flag as a handler leaves it. -/
def State.setValid (v : Bool) (s : State) : State := { s with blk := { s.blk with valid := v } }

/-- The VALID output of a read cycle that hit an entry: `readCapable & valid` (R115, R192). -/
def validOutput (d : Descriptor) (valid : Bool) : Bool := d.readCapable && valid

/-- `cfgMapped <- 1; emit CfgMapped` (R142, R161). -/
def State.mapConfig (s : State) : State := { s with blk := { s.blk with cfgMapped := true } }.emit .cfgMapped

/-- `cfgMapped <- 0; emit CfgReverted` (R143, R162). -/
def State.unmapConfig (s : State) : State := { s with blk := { s.blk with cfgMapped := false } }.emit .cfgReverted

/-- The output level NMI (R16, R24). -/
def State.nmi (s : State) : Bool := s.blk.freezePending

/-- The output level CFG (R16, R29). -/
def State.cfgLevel (s : State) : Bool := s.blk.cfgMapped

end Sys2Proof.Machine
end

