-- ==== Sys2Proof/Machine/Ops.lean ====
section
/-! DEFINITION. The named operations the meanings share: memories, the environment's primitives (R11), results (R230), the
NMI entry and release (R142, R143, R241), the registry (R110 to R114), the enable and disable paths (R161, R162) and the
handlers' shared forms. -/

namespace Sys2Proof.Machine

/-- The outcome of an operation. -/
abbrev Step := Host.Outcome State Fault Refusal

/-! ### Memories -/

/-- The byte at an address. -/
def Memory.read : Memory → Nat → Byte
  | [], _ => Memory.unlisted
  | (k, v) :: m, a => if k = a then v else Memory.read m a

/-- Store one byte and keep the canonical form: the unlisted byte removes the entry. -/
def Memory.write : Memory → Nat → Byte → Memory
  | [], a, v => if v = Memory.unlisted then [] else [(a, v)]
  | (k, w) :: m, a, v =>
    if a < k then (if v = Memory.unlisted then (k, w) :: m else (a, v) :: (k, w) :: m)
    else if a = k then (if v = Memory.unlisted then m else (a, v) :: m)
    else (k, w) :: Memory.write m a v

/-- The canonical memory whose bytes from address `k` on are the given ones. -/
def Memory.ofBytesFrom (k : Nat) : List Byte → Memory
  | [] => []
  | b :: bs => if b = Memory.unlisted then Memory.ofBytesFrom (k + 1) bs else (k, b) :: Memory.ofBytesFrom (k + 1) bs

/-- Byte i of the sequence is `mem[i]` (R50, R210). -/
def Memory.ofBytes (bs : List Byte) : Memory := Memory.ofBytesFrom 0 bs

/-- `mem[0 .. n-1]` as a byte sequence (R211). -/
def Memory.toRaw (n : Nat) (m : Memory) : RawMemory := ⟨n, (List.range n).map m.read, by simp⟩

/-! ### Outputs and results -/

/-- The end of an operation that is no bus cycle: its result and output value (R11, R41 (b)). -/
def State.finish (r : Result) (v : OutValue) (s : State) : State :=
  { s with out := { s.out with result := r, value := v, dOut := none, hit := none, validOut := none } }

/-- `return` without a value. -/
def State.done (s : State) : State := s.finish .ok .none

/-- `raise X` (R11): the operation ends with result X and no state change; a result stops nothing (R235). -/
def State.raise (x : Result) (s : State) : State := s.finish x .none

/-- The end of a read cycle: D_out, HIT, VALID (R115). -/
def State.finishRead (d : Byte) (hit : Option Hit) (valid : Option Bool) (s : State) : State :=
  { s with out := { s.out with result := .ok, value := .none, dOut := some d, hit := hit, validOut := valid } }

/-- The end of a write cycle: "`D_out` and `VALID` are not produced" (R115). -/
def State.finishWrite (hit : Option Hit) (s : State) : State :=
  { s with out := { s.out with result := .ok, value := .none, dOut := none, hit := hit, validOut := none } }

/-- Record a call into the environment (log 21). -/
def State.call (k : EnvCall) (s : State) : State := { s with out := { s.out with calls := s.out.calls ++ [k] } }

/-! ### The interrupt the block raises -/

/-- Raising the freeze NMI (R142, R241): "`freezePending <- 1; emit NmiTrigger`". It saves nothing else. -/
def State.raiseNmi (s : State) : State := { s with blk := { s.blk with freezePending := true } }.emit .nmiTrigger

/-- Its withdrawal (R147): "if `freezePending = 1`: `freezePending <- 0; emit NmiRelease`". -/
def State.releaseNmi (s : State) : State :=
  if s.blk.freezePending then { s with blk := { s.blk with freezePending := false } }.emit .nmiRelease else s

/-- The bus-visible Mapped to Hidden transition: revert, then release a pending freeze (R143, R162, C3). -/
def State.revert (s : State) : State := s.unmapConfig.releaseNmi

/-! ### System memory and foreign handlers -/

/-- `SysRead(addr)` (R66): the environment's own byte, or the reference environment's array. -/
def sysByte (s : State) (a : Addr) : Byte :=
  match s.env.inp.sysReply with
  | some b => b
  | none => s.env.sys.read a.toNat

/-- `SysWrite(addr, v)` (R66): the call, and the reference environment's array. -/
def State.sysPut (a : Addr) (v : Byte) (s : State) : State :=
  { s.call (.sysWrite a v) with env := { s.env with sys := s.env.sys.write a.toNat v } }

/-- `ForeignRead(ownerId, ra)` (R118): the environment's own pair, or the reference environment's `(ownerId, 1)`. -/
def foreignAnswer (s : State) (owner : OwnerId) : Byte × Bool :=
  match s.env.inp.foreignReply with
  | some p => p
  | none => (owner, true)

/-! ### The registry -/

/-- The hit test (R113): the range alone, unsigned. -/
def hits (a : Addr) (e : Entry) : Bool := inRange e.desc.base e.desc.endAddr a

/-- The later registered of two entries: the larger id (R32). -/
def newer (e : Entry) : Option Entry → Entry
  | none => e
  | some f => if f.id ≤ e.id then e else f

/-- The entry with the largest id. -/
def newest : List Entry → Option Entry
  | [] => none
  | e :: es => some (newer e (newest es))

/-- The default of ARBITRATION (R114): among the exclusive hit entries the newest, else the newest of all. -/
def chooseDefault (es : List Entry) : Option Entry :=
  match newest (es.filter fun e => e.desc.exclusive) with
  | some e => some e
  | none => newest es

/-- `choose(C)` (R114) as the configuration sets it. -/
def choose (c : Config) (es : List Entry) : Option Entry :=
  match c.arbitration with
  | .newestExclusiveFirst => chooseDefault es
  | .other n => es[Config.arbitrate n es % es.length]?

/-- `dispatch(addr, kind)` (R112): neither the access kind nor `readCapable` influences the choice. -/
def dispatchIn (c : Config) (H : List Entry) (a : Addr) : Option Entry := choose c (H.filter (hits a))

/-- The entry that takes a cycle at an address in the state, if any. -/
def winner (s : State) (a : Addr) : Option Entry := dispatchIn s.cfg s.blk.H a

/-- Room for `n` more entries under N_SLOTS (R7, R110). -/
def hasRoom (c : Config) (H : List Entry) (n : Nat) : Bool :=
  match c.nSlots with
  | none => true
  | some k => decide (H.length + n ≤ k)

/-- `register` (R110): append the entry under `nextId`, which is then incremented. -/
def Block.register (d : Descriptor) (b : Block) : Block :=
  { b with H := b.H ++ [{ id := b.nextId, desc := d }], nextId := b.nextId + 1 }

/-- `unregister` (R111): "order of the rest unchanged". -/
def Block.unregister (id : Nat) (b : Block) : Block := { b with H := b.H.filter fun e => decide (e.id ≠ id) }

/-- "for id in regIds: HUNREG(id)" (R162). -/
def Block.unregisterAll (ids : List Nat) (b : Block) : Block := ids.foldl (fun b id => b.unregister id) b

/-! ### The lifecycle paths -/

/-- PAGE_ON_ENABLE (R28, U6). -/
def pageAfterEnable (s : State) : Nat :=
  match s.cfg.pageOnEnable with
  | .keep => s.blk.page
  | .draw => maskPage s.cfg s.env.inp.drawPage

/-- The state changes of the enable path after a successful allocation (R161): allocate, register REG, register WIN, set
`enabled` (D15). -/
def State.allocateAndRegister (s : State) : State :=
  let b := (s.blk.register (regDesc s.cfg)).register (winDesc s.cfg)
  { s with blk := { b with mem := some [], regIds := [s.blk.nextId, s.blk.nextId + 1], enabled := true,
                           page := pageAfterEnable s } }

/-- The enable path after a successful allocation (R161): "if the switch is already on" the Mapped configuration is applied
"without firing a trigger edge". -/
def State.enablePath (s : State) : State :=
  let t := s.allocateAndRegister
  if t.blk.switchOn then t.mapConfig else t

/-- Go on with `k` in an enabled state: at once if enabled, else after the enable path, which asks `AllocOK()` once before
anything changes and raises OutOfMemory on a refusal (R161, R163); a full finite registry refuses (log 14). -/
def ensureEnabled (k : State → Step) (s : State) : Step :=
  if s.blk.enabled then k s
  else if s.env.inp.allocOk then
    if hasRoom s.cfg s.blk.H 2 then k (s.call .allocOk).enablePath
    else .refused .registryFull
  else .next ((s.call .allocOk).raise .outOfMemory)

/-- Unregister the instance's entries, free the buffer, clear `enabled` (R162). -/
def State.unregisterAndFree (s : State) : State :=
  { s with blk := { s.blk.unregisterAll s.blk.regIds with regIds := [], mem := none, enabled := false } }

/-- The disable path (R162): first the bus-visible Mapped to Hidden transition, then unregister and free. `switchOn` is not
changed (C3). -/
def State.disablePath (s : State) : State :=
  if s.blk.switchOn then s.revert.unregisterAndFree else s.unregisterAndFree

/-- The disable path of an enabled instance, nothing otherwise. -/
def State.ensureDisabled (s : State) : State := if s.blk.enabled then s.disablePath else s

/-! ### Handlers (R180 to R191) -/

/-- The instance's window and the vector redirect reach onboard memory only then (R60, R182, R186). -/
def State.windowOpen (s : State) : Bool := s.blk.enabled && s.blk.switchOn

/-- `page <- perm3(ra); valid <- 0` (R180, R181), masked as every assignment of `page` (R134); called with `enabled` = 0 the
page is kept (R193). -/
def State.touchRegister (ra : Addr) (s : State) : State :=
  { s with blk := { s.blk with page := if s.blk.enabled then maskPage s.cfg (perm3 ra).toNat else s.blk.page,
                               valid := false } }

/-- Store one byte of onboard memory. -/
def State.putMem (m : Memory) (off : Nat) (v : Byte) (s : State) : State :=
  { s with blk := { s.blk with mem := some (m.write off v) } }

/-- `regRead` (R180) for the entry `d` that took the cycle. -/
def regReadVia (d : Descriptor) (hit : Option Hit) (a : Addr) (s : State) : Step :=
  .next ((s.touchRegister (reducedAddr d.mask a)).finishRead s.cfg.float hit (some (validOutput d false)))

/-- `regWrite` (R181): the data byte is ignored. -/
def regWriteVia (d : Descriptor) (hit : Option Hit) (a : Addr) (s : State) : Step :=
  .next ((s.touchRegister (reducedAddr d.mask a)).finishWrite hit)

/-- `windowRead` (R182). -/
def windowReadVia (d : Descriptor) (hit : Option Hit) (a : Addr) (s : State) : Step :=
  if s.windowOpen then
    match s.blk.mem with
    | some m =>
      .next ((s.setValid true).finishRead (m.read (windowOffset s.cfg s.blk.page (reducedAddr d.mask a))) hit
        (some (validOutput d true)))
    | none => .fault .onboardMemoryAbsent
  else .next ((s.setValid false).finishRead s.cfg.float hit (some (validOutput d false)))

/-- `windowWrite` (R183): a Hidden write is dropped. -/
def windowWriteVia (d : Descriptor) (hit : Option Hit) (a : Addr) (v : Byte) (s : State) : Step :=
  if s.windowOpen then
    match s.blk.mem with
    | some m =>
      .next (((s.putMem m (windowOffset s.cfg s.blk.page (reducedAddr d.mask a)) v).setValid true).finishWrite hit)
    | none => .fault .onboardMemoryAbsent
  else .next ((s.setValid false).finishWrite hit)

/-- A read cycle of another device's handler (R115, R118). -/
def foreignReadVia (e : Entry) (a : Addr) (s : State) : Step :=
  .next ((s.call (.foreignRead e.desc.ownerId (reducedAddr e.desc.mask a))).finishRead
    (foreignAnswer s e.desc.ownerId).1 (some (.entry e.id)) (some (validOutput e.desc (foreignAnswer s e.desc.ownerId).2)))

/-- A write cycle of another device's handler (R115, R118). -/
def foreignWriteVia (e : Entry) (a : Addr) (v : Byte) (s : State) : Step :=
  .next ((s.call (.foreignWrite e.desc.ownerId (reducedAddr e.desc.mask a) v)).finishWrite (some (.entry e.id)))

/-- A read that passes through to system memory under the name `hit` (R116, R184, R188, R190): `VALID` is not produced. -/
def passRead (hit : Hit) (a : Addr) (s : State) : Step :=
  .next ((s.call (.sysRead a)).finishRead (sysByte s a) (some hit) none)

/-- A write that passes through to system memory under the name `hit` (R117, R185, R189, R191). -/
def passWrite (hit : Hit) (a : Addr) (v : Byte) (s : State) : Step := .next ((s.sysPut a v).finishWrite (some hit))

/-- `romhRead` (R186): the vector pair is redirected into onboard memory. -/
def romhReadAt (a : Addr) (s : State) : Step :=
  if isVector s.cfg a && s.windowOpen then
    match s.blk.mem with
    | some m => .next (s.finishRead (m.read (windowOffset s.cfg s.blk.page a)) (some .romh) none)
    | none => .fault .onboardMemoryAbsent
  else passRead .romh a s

/-- `romhWrite` (R187), with VEC_WRITE_REDIRECT. -/
def romhWriteAt (a : Addr) (v : Byte) (s : State) : Step :=
  if s.cfg.vecWriteRedirect && isVector s.cfg a && s.windowOpen then
    match s.blk.mem with
    | some m => .next ((s.putMem m (windowOffset s.cfg s.blk.page a) v).finishWrite (some .romh))
    | none => .fault .onboardMemoryAbsent
  else passWrite .romh a v s

/-! ### Routing (R115) -/

/-- "case h.role of", a read cycle. -/
def entryRead (e : Entry) (a : Addr) (s : State) : Step :=
  match e.desc.role with
  | .reg => regReadVia e.desc (some (.entry e.id)) a s
  | .win => windowReadVia e.desc (some (.entry e.id)) a s
  | .foreign => foreignReadVia e a s

/-- "case h.role of", a write cycle. -/
def entryWrite (e : Entry) (a : Addr) (v : Byte) (s : State) : Step :=
  match e.desc.role with
  | .reg => regWriteVia e.desc (some (.entry e.id)) a s
  | .win => windowWriteVia e.desc (some (.entry e.id)) a v s
  | .foreign => foreignWriteVia e a v s

/-- The steps of R115 after the registry, a read cycle: ROML, ROMH, FB1, FB2 while `cfgMapped` is 1, else system memory. -/
def fallRead (a : Addr) (s : State) : Step :=
  if s.blk.cfgMapped && inRange s.cfg.romlBase s.cfg.romlEnd a then passRead .roml a s
  else if s.blk.cfgMapped && inRange s.cfg.romhBase s.cfg.romhEnd a then romhReadAt a s
  else if s.blk.cfgMapped && inRange s.cfg.fb1Base s.cfg.fb1End a then passRead .fb1 a s
  else if s.blk.cfgMapped && inRange s.cfg.fb2Base s.cfg.fb2End a then passRead .fb2 a s
  else passRead .none a s

/-- The same for a write cycle. -/
def fallWrite (a : Addr) (v : Byte) (s : State) : Step :=
  if s.blk.cfgMapped && inRange s.cfg.romlBase s.cfg.romlEnd a then passWrite .roml a v s
  else if s.blk.cfgMapped && inRange s.cfg.romhBase s.cfg.romhEnd a then romhWriteAt a v s
  else if s.blk.cfgMapped && inRange s.cfg.fb1Base s.cfg.fb1End a then passWrite .fb1 a v s
  else if s.blk.cfgMapped && inRange s.cfg.fb2Base s.cfg.fb2End a then passWrite .fb2 a v s
  else passWrite .none a v s

/-- One read cycle (R115). -/
def busRead (a : Addr) (s : State) : Step :=
  match winner s a with
  | some e => entryRead e a s
  | none => fallRead a s

/-- One write cycle (R115). -/
def busWrite (a : Addr) (v : Byte) (s : State) : Step :=
  match winner s a with
  | some e => entryWrite e a v s
  | none => fallWrite a v s

/-- Through what a handler of the instance is called at an address: the entry that takes the cycle if it has the role, and
otherwise, outside its contract (R193, log 10), the instance's own descriptor and no HIT. -/
def calledThrough (role : Role) (own : Descriptor) (s : State) (a : Addr) : Descriptor × Option Hit :=
  match winner s a with
  | some e => if e.desc.role = role then (e.desc, some (.entry e.id)) else (own, none)
  | none => (own, none)

/-- The row conditions of the state (R84). -/
def rowCond (s : State) (a : Addr) : RowCond where
  winner := (winner s a).map fun e => e.desc.role
  mapped := s.blk.cfgMapped

end Sys2Proof.Machine
end

