-- ==== Sys2Proof/Machine/Bus.lean ====
section
/-! DEFINITION. The bus cycles: the class rows BUSWR and BUSRD (R115), and the rows taken by another device's handler
(R118), by the instance's register and window handlers (R180 to R183), and by system memory (R116, R117). -/

namespace Sys2Proof.Machine

/-- BUSWR (R115). -/
def execBuswr (a : Addr) (v : Byte) (s : State) : Step := busWrite a v s

/-- BUSRD (R115). -/
def execBusrd (a : Addr) (s : State) : Step := busRead a s

/-- foreignWrite (R118). Where no FOREIGN entry takes the cycle "the word falls to the next matching row" (R84; log 10). -/
def execForeignWrite (a : Addr) (v : Byte) (s : State) : Step :=
  match winner s a with
  | some e => if e.desc.role = .foreign then foreignWriteVia e a v s else busWrite a v s
  | none => busWrite a v s

/-- foreignRead (R118), with the same fall to the next matching row (R84; log 10). -/
def execForeignRead (a : Addr) (s : State) : Step :=
  match winner s a with
  | some e => if e.desc.role = .foreign then foreignReadVia e a s else busRead a s
  | none => busRead a s

/-- regWrite (R181). -/
def execRegWrite (a : Addr) (_v : Byte) (s : State) : Step :=
  let p := calledThrough .reg (regDesc s.cfg) s a
  regWriteVia p.1 p.2 a s

/-- regRead (R180). -/
def execRegRead (a : Addr) (s : State) : Step :=
  let p := calledThrough .reg (regDesc s.cfg) s a
  regReadVia p.1 p.2 a s

/-- windowWrite (R183). -/
def execWindowWrite (a : Addr) (v : Byte) (s : State) : Step :=
  let p := calledThrough .win (winDesc s.cfg) s a
  windowWriteVia p.1 p.2 a v s

/-- windowRead (R182). -/
def execWindowRead (a : Addr) (s : State) : Step :=
  let p := calledThrough .win (winDesc s.cfg) s a
  windowReadVia p.1 p.2 a s

/-- sysWrite (R117): HIT is none. -/
def execSysWrite (a : Addr) (v : Byte) (s : State) : Step := passWrite .none a v s

/-- sysRead (R116): HIT is none. -/
def execSysRead (a : Addr) (s : State) : Step := passRead .none a s

end Sys2Proof.Machine
end

