-- ==== Sys2Proof/Machine/Control.lean ====
section
/-! DEFINITION. The resources and the reset: SETEN (R160), SETSW (R141), the getters (R165, R149), the refused `mode`
resource (R166), RESET (R260) and the reserved operation code (R90). -/

namespace Sys2Proof.Machine

/-- SETEN (R160 to R164). -/
def execSeten (b : Bool) (s : State) : Step :=
  if b = s.blk.enabled then .next (s.raise .idempotent)
  else if b then ensureEnabled (fun t => .next t.done) s
  else .next s.disablePath.done

/-- The switch moves to `b` (R141): while enabled, Hidden to Mapped raises the freeze NMI and Mapped to Hidden withdraws it. -/
def State.moveSwitch (b : Bool) (s : State) : State :=
  let t := { s with blk := { s.blk with switchOn := b } }
  if s.blk.enabled then (if b then t.mapConfig.raiseNmi else t.revert) else t

/-- SETSW (R141 to R147). -/
def execSetsw (b : Bool) (s : State) : Step :=
  if b = s.blk.switchOn then .next (s.raise .idempotent) else .next (s.moveSwitch b).done

/-- GETRES 0 (R165). -/
def execGetresEnabled (s : State) : Step := .next (s.finish .ok (.bit s.blk.enabled))

/-- GETRES 1 (R149). -/
def execGetresSwitchOn (s : State) : Step := .next (s.finish .ok (.bit s.blk.switchOn))

/-- GETRES 2 (R166): refused, the canonical model has no modes. -/
def execGetresMode (_s : State) : Step := .refused .noModeResource

/-- SETMODE (R166): refused. -/
def execSetmode (_value : Byte) (_s : State) : Step := .refused .noModeResource

/-- RESET (R260): every state element of the block at the value of R40; no event. -/
def execReset (s : State) : Step := .next { s with blk := Block.reset }.done

/-- RESERVED_E (R90 (a)): refused, "no meaning, change no state". -/
def execReservedE (_rest : BitVec 28) (_s : State) : Step := .refused (.reservedEncoding .reservedOp)

end Sys2Proof.Machine
end

