-- ==== Sys2Proof/Machine/FallThrough.lean ====
section
/-! DEFINITION. The four fall-through read and write pairs (R184 to R191). -/

namespace Sys2Proof.Machine

/-- romlWrite (R185). -/
def execRomlWrite (a : Addr) (v : Byte) (s : State) : Step := passWrite .roml a v s

/-- romlRead (R184). -/
def execRomlRead (a : Addr) (s : State) : Step := passRead .roml a s

/-- romhWrite (R187). -/
def execRomhWrite (a : Addr) (v : Byte) (s : State) : Step := romhWriteAt a v s

/-- romhRead (R186). -/
def execRomhRead (a : Addr) (s : State) : Step := romhReadAt a s

/-- fb1Write (R189). -/
def execFb1Write (a : Addr) (v : Byte) (s : State) : Step := passWrite .fb1 a v s

/-- fb1Read (R188). -/
def execFb1Read (a : Addr) (s : State) : Step := passRead .fb1 a s

/-- fb2Write (R191). -/
def execFb2Write (a : Addr) (v : Byte) (s : State) : Step := passWrite .fb2 a v s

/-- fb2Read (R190). -/
def execFb2Read (a : Addr) (s : State) : Step := passRead .fb2 a s

end Sys2Proof.Machine
end

