-- ==== Sys2Proof/Machine/Registry.lean ====
section
/-! DEFINITION. The registry operations HREG, HUNREG and DISPATCH (R110, R111, R112). -/

namespace Sys2Proof.Machine

/-- HREG (R110): any descriptor is accepted; a full finite registry refuses (U4). -/
def execHreg (d : Descriptor) (s : State) : Step :=
  if hasRoom s.cfg s.blk.H 1 then .next ({ s with blk := s.blk.register d }.finish .ok (.handlerId s.blk.nextId))
  else .refused .registryFull

/-- HUNREG (R111): an unknown id changes nothing and the result is Ok. -/
def execHunreg (id : BitVec 24) (s : State) : Step := .next { s with blk := s.blk.unregister id.toNat }.done

/-- DISPATCH (R112): "changes no state, invokes no handler". -/
def execDispatch (a : Addr) (_kind : AccessKind) (s : State) : Step :=
  .next (s.finish .ok (.handler ((winner s a).map fun e => e.id)))

end Sys2Proof.Machine
end

