-- ==== Sys2Proof/Machine/Snapshot.lean ====
section
/-! DEFINITION. The host-side operations: SNAPSAVE, SNAPLOAD (R210 to R213), ATTACH, DETACH, SETDEF (R214 to R216). -/

namespace Sys2Proof.Machine

/-- The record of an enabled instance whose memory is `m` (R211). -/
def snapshotOf (s : State) (m : Memory) : SnapshotRecord where
  formatVersion := s.cfg.snapVersion
  enabled := true
  switchOn := s.blk.switchOn
  currentPage := s.blk.page
  rawMemory := m.toRaw s.cfg.memSize

/-- SNAPSAVE (R211): "Written only while the instance is enabled". -/
def execSnapsave (s : State) : Step :=
  if s.blk.enabled then
    match s.blk.mem with
    | some m => .next (s.finish .ok (.record (some (snapshotOf s m))))
    | none => .fault .onboardMemoryAbsent
  else .next (s.finish .ok (.record none))

/-- "if r.switchOn != switchOn" of R212: a load is no movement of the physical switch, so the NMI is raised only under
LOAD_FIRES_TRIGGER. -/
def State.loadSwitch (b : Bool) (s : State) : State :=
  if b = s.blk.switchOn then s
  else
    let t := { s with blk := { s.blk with switchOn := b } }
    if s.blk.enabled then
      (if b then (if s.cfg.loadFiresTrigger then t.mapConfig.raiseNmi else t.mapConfig) else t.revert)
    else t

/-- "page <- ...; if enabled = 1: mem <- r.rawMemory; valid <- 0" of R212. -/
def State.loadContents (r : SnapshotRecord) (s : State) : State :=
  { s with blk := { s.blk with page := maskPage s.cfg r.currentPage,
                               mem := if s.blk.enabled then some (Memory.ofBytes r.rawMemory.bytes) else s.blk.mem,
                               valid := false } }

/-- SNAPLOAD of a record (R212): the version check, the enable or disable path, the switch, the contents. -/
def loadRecord (r : SnapshotRecord) (s : State) : Step :=
  if r.formatVersion = s.cfg.snapVersion then
    if r.enabled then ensureEnabled (fun t => .next ((t.loadSwitch r.switchOn).loadContents r).done) s
    else .next ((s.ensureDisabled.loadSwitch r.switchOn).loadContents r).done
  else .next (s.raise .unsupportedSnapshotVersion)

/-- SNAPLOAD (R212): the record is the environment's out-of-band operand (R94); a value that is not a SnapshotRecord is refused
(R210; log 28). -/
def execSnapload (s : State) : Step :=
  if s.env.inp.record.typed s.cfg then loadRecord s.env.inp.record s else .refused .illTypedRecord

/-- "if image is present: mem <- image; attachedModel <- modelId" of R214. -/
def State.attachImage (m : ModelId) (image : Option (List Byte)) (s : State) : State :=
  { s with blk := { s.blk with mem := match image with
                                      | some img => some (Memory.ofBytes img)
                                      | none => s.blk.mem,
                               attachedModel := some m } }

/-- Is the image operand of ATTACH malformed (R214, R232)? -/
def imageBad (c : Config) : Option (List Byte) → Bool
  | some img => !imageOk c img
  | none => false

/-- ATTACH (R214): the image check comes before the enable path. -/
def execAttach (m : ModelId) (s : State) : Step :=
  if m = s.cfg.modelCanon then
    if imageBad s.cfg s.env.inp.image then .next (s.raise .invalidImage)
    else ensureEnabled (fun t => .next (t.attachImage m s.env.inp.image).done) s
  else .refused .unknownModel

/-- DETACH (R215). -/
def execDetach (s : State) : Step :=
  let t := s.ensureDisabled
  .next { t with blk := { t.blk with attachedModel := none, isDefault := false } }.done

/-- SETDEF (R216). -/
def execSetdef (s : State) : Step :=
  .next { s with blk := { s.blk with isDefault := if s.blk.attachedModel.isSome then true else s.blk.isDefault } }.done

end Sys2Proof.Machine
end

