-- ==== Sys2Proof/Machine/Dispatch.lean ====
section
/-! DEFINITION. The one dispatch: each operation's arm calls its own meaning. -/

namespace Sys2Proof.Machine

def exec (i : Instr) (s : State) : Host.Outcome State Fault Refusal :=
  match i with
  -- bus cycles: the handler rows
  | .foreignWrite a v => Sys2Proof.Machine.execForeignWrite a v s
  | .foreignRead a => Sys2Proof.Machine.execForeignRead a s
  | .regWrite a v => Sys2Proof.Machine.execRegWrite a v s
  | .regRead a => Sys2Proof.Machine.execRegRead a s
  | .windowWrite a v => Sys2Proof.Machine.execWindowWrite a v s
  | .windowRead a => Sys2Proof.Machine.execWindowRead a s
  | .romlWrite a v => Sys2Proof.Machine.execRomlWrite a v s
  | .romlRead a => Sys2Proof.Machine.execRomlRead a s
  | .romhWrite a v => Sys2Proof.Machine.execRomhWrite a v s
  | .romhRead a => Sys2Proof.Machine.execRomhRead a s
  | .fb1Write a v => Sys2Proof.Machine.execFb1Write a v s
  | .fb1Read a => Sys2Proof.Machine.execFb1Read a s
  | .fb2Write a v => Sys2Proof.Machine.execFb2Write a v s
  | .fb2Read a => Sys2Proof.Machine.execFb2Read a s
  | .sysWrite a v => Sys2Proof.Machine.execSysWrite a v s
  | .sysRead a => Sys2Proof.Machine.execSysRead a s
  -- resources
  | .seten b => Sys2Proof.Machine.execSeten b s
  | .setsw b => Sys2Proof.Machine.execSetsw b s
  | .getresEnabled => Sys2Proof.Machine.execGetresEnabled s
  | .getresSwitchOn => Sys2Proof.Machine.execGetresSwitchOn s
  | .getresMode => Sys2Proof.Machine.execGetresMode s
  -- the registry
  | .hreg d => Sys2Proof.Machine.execHreg d s
  | .hunreg id => Sys2Proof.Machine.execHunreg id s
  | .dispatch a kind => Sys2Proof.Machine.execDispatch a kind s
  -- snapshot, attach and detach
  | .snapsave => Sys2Proof.Machine.execSnapsave s
  | .snapload => Sys2Proof.Machine.execSnapload s
  | .attach m => Sys2Proof.Machine.execAttach m s
  | .detach => Sys2Proof.Machine.execDetach s
  | .setdef => Sys2Proof.Machine.execSetdef s
  -- the refused resource, the reserved code, reset
  | .setmode v => Sys2Proof.Machine.execSetmode v s
  | .reservedE rest => Sys2Proof.Machine.execReservedE rest s
  | .reset => Sys2Proof.Machine.execReset s
  -- bus cycles: the class rows
  | .buswr a v => Sys2Proof.Machine.execBuswr a v s
  | .busrd a => Sys2Proof.Machine.execBusrd a s

end Sys2Proof.Machine
end

