-- ==== Sys2Proof/Machine/Fetch.lean ====
section
/-! DEFINITION. How the machine comes by its next operation (R6, R22; log 1): the decoder with the state's row conditions, and
the state once the operation's words and the environment's answers for it are taken. -/

namespace Sys2Proof.Machine

/-- The operation at the head of the stream and the words after it (R83, R84). -/
def nextOp (s : State) : Except DecodeError (Instr × List Word) := decodeWith s.cfg (rowCond s) s.env.script

/-- The environment's answers for the next operation: the queued ones, else the reference environment's (log 2). -/
def nextInputs (s : State) : Inputs :=
  match s.env.pending with
  | [] => Inputs.reference s.cfg
  | inp :: _ => inp

/-- The operation's words leave the stream and its answers become the current ones. -/
def State.advance (rest : List Word) (s : State) : State :=
  { s with env := { s.env with script := rest, pending := s.env.pending.tail, inp := nextInputs s } }

end Sys2Proof.Machine
end

