-- ==== Sys2Proof/Machine/Step.lean ====
section
/-! DEFINITION. One step: the next operation of the totally ordered sequence (R6, R12, R273), performed whole. -/

namespace Sys2Proof.Machine

/-- Parameters outside R8 are refused; an exhausted stream ends the run (R273); a reserved encoding is refused (R90); any other
operation is performed. -/
def step (s : State) : Host.Outcome State Fault Refusal :=
  if paramsOk s.cfg then
    match s.env.script with
    | [] => .fault .endOfScript
    | _ :: _ =>
      match nextOp s with
      | .ok (i, rest) => exec i (s.advance rest)
      | .error why => .refused (.reservedEncoding why)
  else .refused .parametersOutsideR8

/-- Put one instruction, numbered as the opcode table numbers it, where `step` takes its next operation: the block has no
program of its own, so this is the environment's issuing of it (log 1). -/
def State.withFetchWord (s : State) (nbits w : Nat) : State :=
  { s with env := { s.env with script := tableOpWords nbits w ++ s.env.script } }

end Sys2Proof.Machine
end

