-- ==== Sys2Proof/Safety.lean ====
section
/-! DEFINITION. What claims about the machine speak of: the invariants INV1 to INV8 (R36, R37), the environment's duty toward
the registry (R270), and the operating states (R140, R244). -/

namespace Sys2Proof.Machine

/-! ### Invariants of the block -/

/-- INV2: `mem` exists if and only if `enabled` = 1 (R36). -/
def Block.memPresent (b : Block) : Bool := b.mem.isSome == b.enabled

/-- Onboard memory is in canonical form and holds offsets below `n` only. -/
def Block.memCanonical (n : Nat) (b : Block) : Bool :=
  match b.mem with
  | none => true
  | some m => m.wf && m.within n

/-- INV5: `cfgMapped = enabled & switchOn` (R37). -/
def Block.cfgFollows (b : Block) : Bool := b.cfgMapped == (b.enabled && b.switchOn)

/-- INV6: `freezePending` = 1 implies `enabled` = 1 and `switchOn` = 1 (R37). -/
def Block.freezeQualified (b : Block) : Bool := !b.freezePending || (b.enabled && b.switchOn)

/-- INV8: ids in `H` are pairwise distinct, sorted by increasing id, and less than `nextId` (R37). -/
def Block.idsRising (b : Block) : Bool :=
  decide (b.H.Pairwise fun e f => e.id < f.id) && b.H.all fun e => decide (e.id < b.nextId)

/-- INV1: `page` is in [0, PAGE_COUNT) (R36). -/
def State.pageInRange (s : State) : Bool := decide (s.blk.page < s.cfg.pageCount)

/-- The invariants that need no duty of the environment: the parameters meet R8; INV1, INV2, INV5, INV6, INV8; both memories
are in canonical form, onboard memory within MEM_SIZE and system memory within the 2^ADDR_W bytes of R66. -/
def State.Inv (s : State) : Bool :=
  paramsOk s.cfg && s.pageInRange &&
  s.blk.memPresent && s.blk.memCanonical s.cfg.memSize && s.blk.cfgFollows && s.blk.freezeQualified && s.blk.idsRising &&
  s.env.sys.wf && s.env.sys.within (2 ^ s.cfg.addrW)

/-- An entry that INV7 counts as the instance's: `ownerId = OWNER_SELF` and `role` REG or WIN (R37). -/
def isOwn (c : Config) (e : Entry) : Bool :=
  decide (e.desc.ownerId = c.ownerSelf) && decide (e.desc.role ≠ .foreign)

/-- INV3 and INV7 (R36, R37): the ids of the instance's entries in `H` are exactly `regIds`; enabled, these are the two
descriptors of R167, REG first; disabled, there are none. -/
def State.RegistryInv (s : State) : Bool :=
  decide ((s.blk.H.filter (isOwn s.cfg)).map (fun e => e.id) = s.blk.regIds) &&
  decide ((s.blk.H.filter (isOwn s.cfg)).map (fun e => e.desc) =
    if s.blk.enabled then [regDesc s.cfg, winDesc s.cfg] else [])

/-- The environment's duty toward the registry (R270): no HUNREG of an id in `regIds`, no HREG with `ownerId = OWNER_SELF`
and role REG or WIN. -/
def keepsDuty (s : State) : Instr → Bool
  | .hunreg id => decide (id.toNat ∉ s.blk.regIds)
  | .hreg d => !(decide (d.ownerId = s.cfg.ownerSelf) && decide (d.role ≠ .foreign))
  | _ => true

/-! ### Groups of operations -/

/-- The rows of R84 and the class rows: what a bus cycle can be. -/
def isBusCycle : Instr → Bool
  | .foreignWrite _ _ | .foreignRead _ | .regWrite _ _ | .regRead _ | .windowWrite _ _ | .windowRead _ => true
  | .romlWrite _ _ | .romlRead _ | .romhWrite _ _ | .romhRead _ => true
  | .fb1Write _ _ | .fb1Read _ | .fb2Write _ _ | .fb2Read _ | .sysWrite _ _ | .sysRead _ => true
  | .buswr _ _ | .busrd _ => true
  | _ => false

/-- The read cycles among them. -/
def isReadCycle : Instr → Bool
  | .foreignRead _ | .regRead _ | .windowRead _ | .romlRead _ | .romhRead _ => true
  | .fb1Read _ | .fb2Read _ | .sysRead _ | .busrd _ => true
  | _ => false

/-- The class rows, "which a first-match decoder never reaches" (R84). -/
def isClassRow : Instr → Bool
  | .buswr _ _ | .busrd _ => true
  | _ => false

/-! ### What a bus cycle acts on -/

/-- The row whose handler a bus cycle runs in a state, and its address: a handler row its own; a class row, and a foreign row,
which falls to the next matching row where no FOREIGN entry wins, the row the state selects (R83, R84, R115). -/
def rowTaken (s : State) : Instr → Option (BusRow × Addr)
  | .regWrite a _ | .regRead a => some (.reg, a)
  | .windowWrite a _ | .windowRead a => some (.window, a)
  | .romlWrite a _ | .romlRead a => some (.roml, a)
  | .romhWrite a _ | .romhRead a => some (.romh, a)
  | .fb1Write a _ | .fb1Read a => some (.fb1, a)
  | .fb2Write a _ | .fb2Read a => some (.fb2, a)
  | .sysWrite a _ | .sysRead a => some (.sys, a)
  | .foreignWrite a _ | .foreignRead a | .buswr a _ | .busrd a => some (busRow s.cfg (rowCond s a) a, a)
  | _ => none

/-- A window-range access (R23). -/
def isWindowAccess (s : State) (i : Instr) : Bool := decide ((rowTaken s i).map Prod.fst = some .window)

/-- A register-range access (R23). -/
def isRegisterAccess (s : State) (i : Instr) : Bool := decide ((rowTaken s i).map Prod.fst = some .reg)

/-- A ROM-high write that VEC_WRITE_REDIRECT turns to onboard memory (R187). -/
def redirectsWrite (s : State) (a : Addr) : Bool := s.cfg.vecWriteRedirect && isVector s.cfg a && s.windowOpen

/-- The offset of onboard memory that a write cycle taken by a row stores to, if any: the window offset of the reduced address
for an open window (R183), of the full address for a redirected ROM-high write (R187). -/
def rowOnboardStore (row : BusRow) (a : Addr) (s : State) : Option Nat :=
  match row with
  | .window =>
    if s.windowOpen then
      some (windowOffset s.cfg s.blk.page (reducedAddr (calledThrough .win (winDesc s.cfg) s a).1.mask a))
    else none
  | .romh => if redirectsWrite s a then some (windowOffset s.cfg s.blk.page a) else none
  | .foreign | .reg | .roml | .fb1 | .fb2 | .sys => none

/-- The address of system memory that a write cycle taken by a row stores to, if any (R117, R185, R187, R189, R191). -/
def rowSystemStore (row : BusRow) (a : Addr) (s : State) : Option Nat :=
  match row with
  | .roml | .fb1 | .fb2 | .sys => some a.toNat
  | .romh => if redirectsWrite s a then none else some a.toNat
  | .foreign | .reg | .window => none

/-- The offset of onboard memory a bus cycle stores to, if it stores to one. -/
def onboardStore (s : State) (i : Instr) : Option Nat :=
  if isReadCycle i then none else (rowTaken s i).bind fun p => rowOnboardStore p.1 p.2 s

/-- The address of system memory a bus cycle stores to, if it stores to one. -/
def systemStore (s : State) (i : Instr) : Option Nat :=
  if isReadCycle i then none else (rowTaken s i).bind fun p => rowSystemStore p.1 p.2 s

/-! ### The vocabulary of claims -/

/-- `{ a[0], a[1], a[2] }` (R130): the three low address bits in reversed order. -/
def lowBitsReversed (a : Addr) : BitVec 3 :=
  BitVec.ofBool (a.getLsbD 0) ++ (BitVec.ofBool (a.getLsbD 1) ++ BitVec.ofBool (a.getLsbD 2))

/-- The bits a control word must have 0 (R81, R82, R87, R90 (c)), as start and length of the field, by `op`. -/
def unusedField (op : BitVec 4) : Option (Nat × Nat) :=
  match op.toNat with
  | 0x2 | 0x3 => some (1, 23)
  | 0x4 => some (2, 22)
  | 0x5 => some (4, 12)
  | 0x7 => some (1, 7)
  | 0x8 | 0x9 | 0xB | 0xC | 0xF => some (0, 24)
  | 0xA | 0xD => some (8, 16)
  | _ => none

/-- The events an operation appended to the event sequence of the state it started in. -/
def newEvents (s t : State) : List Event := t.out.events.drop s.out.events.length

/-- One byte of onboard memory, `none` while it is absent: what a frame reads memory through. -/
def onboard (s : State) (off : Nat) : Option Byte := s.blk.mem.map fun m => m.read off

/-- One byte of the reference environment's system memory. -/
def system (s : State) (a : Nat) : Byte := s.env.sys.read a

/-- The same state with another onboard memory. -/
def State.withMem (m : Memory) (s : State) : State := { s with blk := { s.blk with mem := some m } }

/-- The outputs at the end of an operation that is no bus cycle: RESULT and the output value. -/
def Out.control (o : Out) (r : Result) (v : OutValue) : Out :=
  { o with result := r, value := v, dOut := none, hit := none, validOut := none }

/-- The outputs at the end of a read cycle: D_out, HIT, VALID. -/
def Out.ofRead (o : Out) (d : Byte) (hit : Option Hit) (valid : Option Bool) : Out :=
  { o with result := .ok, value := .none, dOut := some d, hit := hit, validOut := valid }

/-- The outputs at the end of a write cycle: HIT. -/
def Out.ofWrite (o : Out) (hit : Option Hit) : Out :=
  { o with result := .ok, value := .none, dOut := none, hit := hit, validOut := none }

/-- The outputs with one more call into the environment. -/
def Out.calling (o : Out) (k : EnvCall) : Out := { o with calls := o.calls ++ [k] }

/-- The outputs with more events. -/
def Out.emitting (o : Out) (es : List Event) : Out := { o with events := o.events ++ es }

/-- The block after the disable path of R162. -/
def disabledBlock (b : Block) : Block :=
  { b with enabled := false, mem := none, regIds := [], H := b.H.filter fun e => decide (e.id ∉ b.regIds),
           cfgMapped := if b.switchOn then false else b.cfgMapped,
           freezePending := if b.switchOn then false else b.freezePending }

/-- The events of the disable path of R162, in order. -/
def disableEvents (b : Block) : List Event :=
  if b.switchOn then .cfgReverted :: (if b.freezePending then [.nmiRelease] else []) else []

/-- The events of a successful load of `r` (R212), in order: those of the enable or disable path, then those of a switch
that moves while enabled. -/
def loadEvents (s : State) (r : SnapshotRecord) : List Event :=
  if r.enabled then
    (if !s.blk.enabled && s.blk.switchOn then [.cfgMapped] else []) ++
    (if r.switchOn = s.blk.switchOn then []
     else if r.switchOn then .cfgMapped :: (if s.cfg.loadFiresTrigger then [.nmiTrigger] else [])
     else .cfgReverted :: (if s.blk.freezePending then [.nmiRelease] else []))
  else if s.blk.enabled then disableEvents s.blk else []

end Sys2Proof.Machine
end

