-- ==== Sys2Proof/Certificates/Slice0/Obligations.lean ====
section
/-! DEFINITION. The statements about the machine for the provers. The rules R<n> are those of spec/. -/

open Sys2Proof Sys2Proof.Machine

/-! ### Decoding and the step -/

/-- Under parameters that meet R8, step at a state whose words decode is `exec` of the decoded operation, after the words and
the environment's answers for it are taken and nothing else is changed; with no word left the run ends (log 1). Parameters that
break R8 are refused (log 4). -/
def Obligations.StepPerformsNextOperation : Prop :=
  ∀ s : State,
    (paramsOk s.cfg = true → ∀ i rest, nextOp s = .ok (i, rest) →
      step s = exec i (s.advance rest) ∧
      (s.advance rest).cfg = s.cfg ∧ (s.advance rest).blk = s.blk ∧ (s.advance rest).out = s.out ∧
      (s.advance rest).env = { s.env with script := rest, pending := s.env.pending.drop 1,
                                          inp := s.env.pending.headD (Inputs.reference s.cfg) }) ∧
    (paramsOk s.cfg = true → s.env.script = [] → step s = .fault .endOfScript) ∧
    (paramsOk s.cfg = false → step s = .refused .parametersOutsideR8)

/-- R90: each reserved encoding (a) to (e) is refused, and so are SETMODE and GETRES 2 (f). -/
def Obligations.ReservedEncodingsAreRefused : Prop :=
  ∀ (s : State) (w : Word) (rest : List Word), paramsOk s.cfg = true → s.env.script = w :: rest →
    ((w.extractLsb' 28 4 = 0xE#4 ∨
      w.extractLsb' 24 4 ≠ 0#4 ∨
      (∃ start len, unusedField (w.extractLsb' 28 4) = some (start, len) ∧ w.extractLsb' start len ≠ 0) ∨
      (w.extractLsb' 28 4 = 0x4#4 ∧ w.extractLsb' 0 2 = 3#2) ∨
      (w.extractLsb' 28 4 = 0x5#4 ∧ w.extractLsb' 2 2 = 3#2) ∨
      (w.extractLsb' 28 4 = 0x5#4 ∧ ∃ w1 w2 more, rest = w1 :: w2 :: more ∧ w2.extractLsb' 16 16 ≠ 0#16)) →
      ∃ why, step s = .refused (.reservedEncoding why)) ∧
    ((w.extractLsb' 8 24 = 0xD00000#24 ∨ w = 0x40000002#32) → step s = .refused .noModeResource)

/-- The words of 95_test_vectors.md section 2.1 decode to the operations written beside them there. -/
def Obligations.SpecWordsDecode : Prop :=
  decodeTableWord 32 0x00DF1042 = some (.windowWrite 0xDF10#16 0x42#8) ∧
  decodeTableWord 32 0x10DF1000 = some (.windowRead 0xDF10#16) ∧
  decodeTableWord 32 0x10DE2D00 = some (.regRead 0xDE2D#16) ∧
  decodeOp [0x00DF1042#32] = .ok (.buswr 0xDF10#16 0x42#8, []) ∧
  decodeOp [0x20000001#32] = .ok (.seten true, []) ∧
  decodeOp [0x30000000#32] = .ok (.setsw false, []) ∧
  decodeOp [0x40000001#32] = .ok (.getresSwitchOn, []) ∧
  decodeOp [0x50070009#32, 0xDE00DE0F#32, 0x0000000F#32] =
    .ok (.hreg { base := 0xDE00#16, endAddr := 0xDE0F#16, mask := 0x000F#16, readCapable := true, ownerId := 7#8,
                 exclusive := false, role := .foreign }, []) ∧
  decodeOp [0x60000002#32] = .ok (.hunreg 2#24, []) ∧
  decodeOp [0x70DE0501#32] = .ok (.dispatch 0xDE05#16 .read, []) ∧
  decodeOp [0x80000000#32] = .ok (.snapsave, []) ∧
  decodeOp [0xF0000000#32] = .ok (.reset, []) ∧
  decodeOp [0xD0000001#32] = .ok (.setmode 1#8, [])

/-- Decode and encode agree: the words of a well-formed operation decode to its class row, and, under row conditions that
select its row at its address, to the operation itself, whatever words follow. -/
def Obligations.EncodedOperationDecodesBack : Prop :=
  ∀ (c : Config) (q : Addr → RowCond) (i : Instr) (rest : List Word), i.wf c = true →
    decodeOp (encode i ++ rest) = .ok (i.classRow, rest) ∧
    (i = selectRow c q i.classRow → decodeWith c q (encode i ++ rest) = .ok (i, rest))

/-- The other direction: what was decoded is the encoding of the operation, as many words as R88 says; only the data field
of a read cycle, which a decoder ignores (R92), may differ. -/
def Obligations.DecodedWordsEncodeBack : Prop :=
  ∀ (ws : List Word) (i : Instr) (rest : List Word), decodeOp ws = .ok (i, rest) →
    ∃ w more, ws = (w :: more) ++ rest ∧ (w :: more).length = opLength w ∧
      (encode i = w :: more ∨
        ∃ (a : Addr) (d : Byte), i = .busrd a ∧ more = [] ∧ w = 0x1#4 ++ 0#4 ++ a ++ d ∧ encode i = [0x1#4 ++ 0#4 ++ a ++ 0#8])

/-- A decoded operation is well formed under the parameters, and is never a class row (R84). -/
def Obligations.DecodedOperationIsWellFormed : Prop :=
  ∀ (c : Config) (q : Addr → RowCond) (ws : List Word) (i : Instr) (rest : List Word),
    decodeWith c q ws = .ok (i, rest) → i.wf c = true ∧ isClassRow i = false

/-- R84 with the canonical parameters and only the instance's own two entries in `H`, if any: the row of a bus word by its
address. -/
def Obligations.BusWordRowByAddress : Prop :=
  ∀ (s : State) (m n : Nat) (a : Addr) (d : Byte) (rest : List Word), s.cfg = Config.canonical →
    (s.blk.enabled = true → s.blk.H = [⟨m, regDesc s.cfg⟩, ⟨n, winDesc s.cfg⟩]) →
    (s.blk.enabled = false → s.blk.H = [] ∧ s.blk.cfgMapped = false) →
    let row : BusRow :=
      if s.blk.enabled = true ∧ 0xDE00 ≤ a.toNat ∧ a.toNat ≤ 0xDEFF then .reg
      else if s.blk.enabled = true ∧ 0xDF00 ≤ a.toNat ∧ a.toNat ≤ 0xDFFF then .window
      else if s.blk.cfgMapped = true ∧ 0x8000 ≤ a.toNat ∧ a.toNat ≤ 0x9FFF then .roml
      else if s.blk.cfgMapped = true ∧ 0xE000 ≤ a.toNat ∧ a.toNat ≤ 0xFFFF then .romh
      else if s.blk.cfgMapped = true ∧ 0x1000 ≤ a.toNat ∧ a.toNat ≤ 0x7FFF then .fb1
      else if s.blk.cfgMapped = true ∧ 0xA000 ≤ a.toNat ∧ a.toNat ≤ 0xBFFF then .fb2
      else .sys
    (s.env.script = (0x0#4 ++ 0#4 ++ a ++ d) :: rest → nextOp s = .ok (row.writeRow a d, rest)) ∧
    (s.env.script = (0x1#4 ++ 0#4 ++ a ++ d) :: rest → nextOp s = .ok (row.readRow a, rest))

/-- A class row does what the handler row it decodes to does, in every state (R82, R83, R115). -/
def Obligations.ClassRowActsAsItsHandlerRow : Prop :=
  ∀ (s : State) (a : Addr) (v : Byte),
    exec (.buswr a v) s = exec (selectRow s.cfg (rowCond s) (.buswr a v)) s ∧
    exec (.busrd a) s = exec (selectRow s.cfg (rowCond s) (.busrd a)) s

/-! ### The registry -/

/-- R110: HREG appends the entry under `nextId` and returns the id, whatever the descriptor; one with `end < base` never hits;
a full finite registry refuses it. -/
def Obligations.HregAppendsEntry : Prop :=
  ∀ (s : State) (d : Descriptor),
    encode (.hreg d) = hregWords d ∧
    ((∀ k, s.cfg.nSlots = some k → s.blk.H.length < k) →
      exec (.hreg d) s = .next { s with
        blk := { s.blk with H := s.blk.H ++ [⟨s.blk.nextId, d⟩], nextId := s.blk.nextId + 1 },
        out := s.out.control .ok (.handlerId s.blk.nextId) }) ∧
    (d.endAddr.toNat < d.base.toNat → ∀ a, hits a ⟨s.blk.nextId, d⟩ = false) ∧
    (∀ k, s.cfg.nSlots = some k → k ≤ s.blk.H.length → exec (.hreg d) s = .refused .registryFull)

/-- R111: HUNREG removes the entries with the id, keeps the order of the rest and everything else; an unknown id changes
nothing. -/
def Obligations.HunregRemovesTheEntry : Prop :=
  ∀ (s : State) (id : BitVec 24),
    encode (.hunreg id) = [0x60000000#32 ||| id.setWidth 32] ∧
    exec (.hunreg id) s = .next { s with
      blk := { s.blk with H := s.blk.H.filter fun e => decide (e.id ≠ id.toNat) },
      out := s.out.control .ok .none } ∧
    ((∀ e ∈ s.blk.H, e.id ≠ id.toNat) → exec (.hunreg id) s = .next { s with out := s.out.control .ok .none })

/-- R112: DISPATCH outputs the chosen entry's id, or none exactly when no entry claims the address, whatever the access kind;
it changes no state and calls nothing. -/
def Obligations.DispatchAnswersAndChangesNothing : Prop :=
  ∀ (s : State) (a : Addr) (kind : AccessKind),
    exec (.dispatch a kind) s = .next { s with
      out := s.out.control .ok (.handler ((winner s a).map fun e => e.id)) } ∧
    (winner s a = none ↔ ∀ e ∈ s.blk.H, ¬(e.desc.base.toNat ≤ a.toNat ∧ a.toNat ≤ e.desc.endAddr.toNat))

/-- R114 with its default: where an entry hits, one of the hit entries is chosen; an exclusive one if there is one, and the
chosen one has the largest id among the exclusive hit entries, or among all hit entries where none is exclusive. The canonical
instance's own two ranges never overlap. -/
def Obligations.DefaultArbitrationPicksNewest : Prop :=
  (∀ (m n : Nat) (a : Addr), ¬(hits a ⟨m, regDesc .canonical⟩ = true ∧ hits a ⟨n, winDesc .canonical⟩ = true)) ∧
  ∀ (c : Config) (H : List Entry) (a : Addr), c.arbitration = .newestExclusiveFirst → (∃ f ∈ H, hits a f = true) →
    ∃ e ∈ H, dispatchIn c H a = some e ∧ hits a e = true ∧
      ((∃ f ∈ H, hits a f = true ∧ f.desc.exclusive = true) →
        e.desc.exclusive = true ∧ ∀ f ∈ H, hits a f = true → f.desc.exclusive = true → f.id ≤ e.id) ∧
      ((∀ f ∈ H, hits a f = true → f.desc.exclusive = false) → ∀ f ∈ H, hits a f = true → f.id ≤ e.id)

/-- R113, R114 under any arbitration rule (U1): the entry chosen is one of `H` whose inclusive range holds the address, and
one is chosen whenever there is such an entry. -/
def Obligations.ArbitrationChoosesAHitEntry : Prop :=
  ∀ (c : Config) (H : List Entry) (a : Addr),
    (∀ e, dispatchIn c H a = some e →
      e ∈ H ∧ e.desc.base.toNat ≤ a.toNat ∧ a.toNat ≤ e.desc.endAddr.toNat) ∧
    ((∃ e ∈ H, e.desc.base.toNat ≤ a.toNat ∧ a.toNat ≤ e.desc.endAddr.toNat) → ∃ e, dispatchIn c H a = some e)

/-- R119: cycles at two addresses with the same chosen entry and the same reduced address are the same cycle. -/
def Obligations.MirroredAddressesActAlike : Prop :=
  ∀ (s : State) (e : Entry) (a₁ a₂ : Addr) (v : Byte), winner s a₁ = some e → winner s a₂ = some e →
    a₁ &&& e.desc.mask = a₂ &&& e.desc.mask →
    exec (.busrd a₁) s = exec (.busrd a₂) s ∧ exec (.buswr a₁ v) s = exec (.buswr a₂ v) s

/-! ### Bus cycles: results and frames -/

/-- R116, R184, R188, R190: the pass-through reads return the system memory handler's byte and change no state. -/
def Obligations.PassThroughReads : Prop :=
  ∀ (s : State) (a : Addr),
    let after : Hit → State := fun hit =>
      { s with out := (s.out.ofRead (s.env.inp.sysReply.getD (system s a.toNat)) (some hit) none).calling (.sysRead a) }
    exec (.sysRead a) s = .next (after .none) ∧
    exec (.romlRead a) s = .next (after .roml) ∧
    exec (.fb1Read a) s = .next (after .fb1) ∧
    exec (.fb2Read a) s = .next (after .fb2)

/-- R117, R185, R189, R191: the pass-through writes hand the byte to the system memory handler, change no state of the block,
and in the reference environment change that one byte only. -/
def Obligations.PassThroughWrites : Prop :=
  ∀ (s : State) (a : Addr) (v : Byte), s.env.sys.wf = true →
    ∀ p ∈ [(Instr.sysWrite a v, Hit.none), (.romlWrite a v, .roml), (.fb1Write a v, .fb1), (.fb2Write a v, .fb2)],
      ∃ t, exec p.1 s = .next t ∧ t.cfg = s.cfg ∧ t.blk = s.blk ∧ t.env = { s.env with sys := t.env.sys } ∧
        t.out = (s.out.ofWrite (some p.2)).calling (.sysWrite a v) ∧
        ∀ b, system t b = if b = a.toNat then v else system s b

/-- R180, R181, R134: a register-range access, read or write, selects the page by the reversed low bits of its reduced address,
masked to PAGE_COUNT, which changes nothing with eight pages, and clears `valid`; a read returns FLOAT with VALID 0; the data
byte is ignored; nothing else changes. -/
def Obligations.RegisterAccessSelectsPage : Prop :=
  ∀ (s : State) (a : Addr) (v : Byte) (e : Entry), winner s a = some e → e.desc.role = .reg → s.blk.enabled = true →
    let selected := (lowBitsReversed (a &&& e.desc.mask)).toNat
    let b : Block := { s.blk with page := selected &&& (s.cfg.pageCount - 1), valid := false }
    exec (.regRead a) s = .next { s with
      blk := b, out := s.out.ofRead s.cfg.float (some (.entry e.id)) (some false) } ∧
    exec (.regWrite a v) s = .next { s with blk := b, out := s.out.ofWrite (some (.entry e.id)) } ∧
    (s.cfg.pageCount = 8 → b.page = selected)

/-- R193: the handlers called while `enabled` is 0. The register handlers keep `page`, the window handlers take their Hidden
branch, the ROM-high handlers pass through; onboard memory is never touched. -/
def Obligations.HandlersCalledWhileDisabled : Prop :=
  ∀ (s : State) (a : Addr) (v : Byte), s.blk.enabled = false →
    (∀ i ∈ [Instr.regRead a, .windowRead a], ∃ t, exec i s = .next t ∧ t.blk = { s.blk with valid := false } ∧
      t.cfg = s.cfg ∧ t.env = s.env ∧ t.out.dOut = some s.cfg.float ∧ t.out.validOut = some false ∧
      t.out.calls = s.out.calls ∧ t.out.events = s.out.events) ∧
    (∀ i ∈ [Instr.regWrite a v, .windowWrite a v], ∃ t, exec i s = .next t ∧ t.blk = { s.blk with valid := false } ∧
      t.cfg = s.cfg ∧ t.env = s.env ∧ t.out.calls = s.out.calls ∧ t.out.events = s.out.events) ∧
    exec (.romhRead a) s = .next { s with
      out := (s.out.ofRead (s.env.inp.sysReply.getD (system s a.toNat)) (some .romh) none).calling (.sysRead a) } ∧
    exec (.romhWrite a v) s = .next { s with
      env := { s.env with sys := s.env.sys.write a.toNat v },
      out := (s.out.ofWrite (some .romh)).calling (.sysWrite a v) }

/-- R182: a window read returns the onboard byte at the window offset and sets `valid` while Mapped, and FLOAT with `valid`
cleared otherwise; VALID is `readCapable & valid`; no memory byte changes. -/
def Obligations.WindowReadIsGatedBySwitch : Prop :=
  ∀ (s : State) (a : Addr) (e : Entry), winner s a = some e → e.desc.role = .win →
    (s.blk.enabled = true ∧ s.blk.switchOn = true → ∀ m, s.blk.mem = some m →
      exec (.windowRead a) s = .next { s with
        blk := { s.blk with valid := true },
        out := s.out.ofRead (m.read (windowOffset s.cfg s.blk.page (a &&& e.desc.mask))) (some (.entry e.id))
          (some e.desc.readCapable) }) ∧
    (¬(s.blk.enabled = true ∧ s.blk.switchOn = true) →
      exec (.windowRead a) s = .next { s with
        blk := { s.blk with valid := false },
        out := s.out.ofRead s.cfg.float (some (.entry e.id)) (some false) })

/-- R183: a window write stores its byte at the window offset and sets `valid` while Mapped, and otherwise stores nothing and
clears `valid`; every other onboard byte, and system memory, is as before. -/
def Obligations.WindowWriteIsGatedBySwitch : Prop :=
  ∀ (s : State) (a : Addr) (v : Byte) (e : Entry), winner s a = some e → e.desc.role = .win →
    (s.blk.enabled = true ∧ s.blk.switchOn = true → ∀ m, s.blk.mem = some m → m.wf = true →
      ∃ t, exec (.windowWrite a v) s = .next t ∧ t.cfg = s.cfg ∧ t.env = s.env ∧
        t.blk = { s.blk with valid := true, mem := t.blk.mem } ∧ t.out = s.out.ofWrite (some (.entry e.id)) ∧
        ∀ off, onboard t off = if off = windowOffset s.cfg s.blk.page (a &&& e.desc.mask) then some v else onboard s off) ∧
    (¬(s.blk.enabled = true ∧ s.blk.switchOn = true) →
      exec (.windowWrite a v) s = .next { s with
        blk := { s.blk with valid := false }, out := s.out.ofWrite (some (.entry e.id)) })

/-- R186: a ROM-high read at one of the two vector addresses returns the onboard byte at the current page's offset while
Mapped; every other ROM-high read passes through. -/
def Obligations.RomhReadRedirectsVectors : Prop :=
  ∀ (s : State) (a : Addr),
    ((a = s.cfg.vecLo ∨ a = s.cfg.vecHi) ∧ s.blk.enabled = true ∧ s.blk.switchOn = true → ∀ m, s.blk.mem = some m →
      exec (.romhRead a) s = .next { s with
        out := s.out.ofRead (m.read (windowOffset s.cfg s.blk.page a)) (some .romh) none }) ∧
    (¬((a = s.cfg.vecLo ∨ a = s.cfg.vecHi) ∧ s.blk.enabled = true ∧ s.blk.switchOn = true) →
      exec (.romhRead a) s = .next { s with
        out := (s.out.ofRead (s.env.inp.sysReply.getD (system s a.toNat)) (some .romh) none).calling (.sysRead a) })

/-- R187: a ROM-high write at a vector address stores into onboard memory while Mapped, if VEC_WRITE_REDIRECT is set, and
system memory is untouched; every other ROM-high write passes through. -/
def Obligations.RomhWriteRedirectsVectors : Prop :=
  ∀ (s : State) (a : Addr) (v : Byte),
    let redirected := s.cfg.vecWriteRedirect = true ∧ (a = s.cfg.vecLo ∨ a = s.cfg.vecHi) ∧ s.blk.enabled = true ∧
      s.blk.switchOn = true
    (redirected → ∀ m, s.blk.mem = some m → m.wf = true →
      ∃ t, exec (.romhWrite a v) s = .next t ∧ t.cfg = s.cfg ∧ t.env = s.env ∧
        t.blk = { s.blk with mem := t.blk.mem } ∧ t.out = s.out.ofWrite (some .romh) ∧
        ∀ off, onboard t off = if off = windowOffset s.cfg s.blk.page a then some v else onboard s off) ∧
    (¬redirected → s.env.sys.wf = true →
      ∃ t, exec (.romhWrite a v) s = .next t ∧ t.cfg = s.cfg ∧ t.blk = s.blk ∧ t.env = { s.env with sys := t.env.sys } ∧
        t.out = (s.out.ofWrite (some .romh)).calling (.sysWrite a v) ∧
        ∀ b, system t b = if b = a.toNat then v else system s b)

/-- R118 with R115: a cycle taken by a FOREIGN entry is answered by the environment under the entry's ownerId and mask and
touches no state of the block; where no FOREIGN entry takes it the word falls to the next row (R84, log 10). -/
def Obligations.ForeignCyclesTouchNoState : Prop :=
  ∀ (s : State) (a : Addr) (v : Byte),
    (∀ e, winner s a = some e → e.desc.role = .foreign →
      let answer := s.env.inp.foreignReply.getD (e.desc.ownerId, true)
      exec (.foreignRead a) s = .next { s with
        out := (s.out.ofRead answer.1 (some (.entry e.id)) (some (e.desc.readCapable && answer.2))).calling
          (.foreignRead e.desc.ownerId (a &&& e.desc.mask)) } ∧
      exec (.foreignWrite a v) s = .next { s with
        out := (s.out.ofWrite (some (.entry e.id))).calling
          (.foreignWrite e.desc.ownerId (a &&& e.desc.mask) v) }) ∧
    ((∀ e, winner s a = some e → e.desc.role ≠ .foreign) →
      exec (.foreignRead a) s = exec (.busrd a) s ∧ exec (.foreignWrite a v) s = exec (.buswr a v) s)

/-- R236: a bus cycle, class row or handler row, always completes with Ok (wherever INV2 holds, R36). -/
def Obligations.BusCyclesNeverFail : Prop :=
  ∀ (i : Instr) (s : State), isBusCycle i = true → s.blk.memPresent = true →
    ∃ t, exec i s = .next t ∧ t.out.result = .ok

/-- What a bus cycle leaves as it was (R26, R27, R31, R39, R238): everything but `page`, `valid` and memory bytes, and no event
is emitted; `page` unless it is a register-range access; whether onboard memory is present; every byte of onboard memory but the
one at the offset it stores to (`onboardStore`: the window offset of the reduced address for a window write, of the full address
for a redirected ROM-high write) and every byte of system memory but the one at the address it stores to (`systemStore`). Register
writes, writes taken by a FOREIGN entry, and read cycles store nothing. -/
def Obligations.BusCycleFrame : Prop :=
  ∀ (i : Instr) (s t : State), isBusCycle i = true → exec i s = .next t →
    t.cfg = s.cfg ∧
    t.blk = { s.blk with page := t.blk.page, valid := t.blk.valid, mem := t.blk.mem } ∧
    t.env = { s.env with sys := t.env.sys } ∧ t.out.events = s.out.events ∧
    (isRegisterAccess s i = false → t.blk.page = s.blk.page) ∧
    t.blk.mem.isSome = s.blk.mem.isSome ∧
    (∀ off, onboardStore s i ≠ some off → onboard t off = onboard s off) ∧
    (∀ b, systemStore s i ≠ some b → system t b = system s b) ∧
    (onboardStore s i = none → t.blk.mem = s.blk.mem) ∧ (systemStore s i = none → t.env.sys = s.env.sys) ∧
    ((∃ a v, i = .regWrite a v) ∨
      (∃ a v e, i = .foreignWrite a v ∧ winner s a = some e ∧ e.desc.role = .foreign) ∨ isReadCycle i = true →
      t.blk.mem = s.blk.mem ∧ t.env.sys = s.env.sys) ∧
    (∀ a v, i = .windowWrite a v → s.windowOpen = true → ∀ e, winner s a = some e → e.desc.role = .win →
      onboardStore s i = some (windowOffset s.cfg s.blk.page (a &&& e.desc.mask)) ∧ systemStore s i = none) ∧
    (∀ a v, i = .romhWrite a v →
      if s.cfg.vecWriteRedirect = true ∧ (a = s.cfg.vecLo ∨ a = s.cfg.vecHi) ∧ s.windowOpen = true then
        onboardStore s i = some (windowOffset s.cfg s.blk.page a) ∧ systemStore s i = none
      else onboardStore s i = none ∧ systemStore s i = some a.toNat)

/-- R194: while the switch is off no bus cycle reads or changes any byte of onboard memory: whatever the memory holds, the
cycle has the same result, and leaves the memory as it was. -/
def Obligations.HiddenModeIsolatesMemory : Prop :=
  ∀ (i : Instr) (s : State), isBusCycle i = true → s.blk.switchOn = false →
    ∃ t : State, ∀ m : Memory, exec i (s.withMem m) = .next (t.withMem m)

/-- R195: read after write through the window: a write at `a` stores its byte, and in any state with the same parameters,
`enabled`, `switchOn`, `page` and byte at that offset, a read at a window address of the same in-page part returns it with `valid`
= 1. Under the canonical window entry the in-page parts agree exactly when the low eight address bits do. -/
def Obligations.WindowReadAfterWrite : Prop :=
  (∀ (s : State) (a : Addr) (v : Byte) (e : Entry) (m : Memory), s.blk.enabled = true → s.blk.switchOn = true →
    s.blk.mem = some m → m.wf = true → winner s a = some e → e.desc.role = .win →
    ∃ t, exec (.buswr a v) s = .next t ∧
      ∀ (s' : State) (a' : Addr) (e' : Entry), s'.cfg = s.cfg → s'.blk.enabled = t.blk.enabled →
        s'.blk.switchOn = t.blk.switchOn → s'.blk.page = t.blk.page →
        let off := windowOffset s.cfg t.blk.page (a &&& e.desc.mask)
        onboard s' off = onboard t off → winner s' a' = some e' → e'.desc.role = .win →
        a' &&& e'.desc.mask &&& s.cfg.pageMask = a &&& e.desc.mask &&& s.cfg.pageMask →
        ∃ u, exec (.busrd a') s' = .next u ∧ u.out.dOut = some v ∧ u.out.validOut = some e'.desc.readCapable ∧
          u.blk.valid = true) ∧
  (winDesc Config.canonical).readCapable = true ∧
  ∀ a a' : Addr, let mask := (winDesc Config.canonical).mask
    (a' &&& mask &&& Config.canonical.pageMask = a &&& mask &&& Config.canonical.pageMask) ↔
      a' &&& 0x00FF#16 = a &&& 0x00FF#16

/-- R64, R68, R242: a byte stored through the window is what the redirected fetch of either vector byte, VEC_LO or VEC_HI, reads
next, at the window address with the in-page part of that vector address: 0xDFFA and 0xDFFB with the canonical parameters. -/
def Obligations.VectorFetchReadsWindowStore : Prop :=
  (∀ (s : State) (v : Byte) (a vec : Addr) (e : Entry), s.Inv = true → s.blk.enabled = true → s.blk.switchOn = true →
    winner s a = some e → e.desc.role = .win → vec = s.cfg.vecLo ∨ vec = s.cfg.vecHi → winner s vec = none →
    vec &&& s.cfg.pageMask = a &&& e.desc.mask &&& s.cfg.pageMask →
    ∃ t u, exec (.buswr a v) s = .next t ∧ exec (.busrd vec) t = .next u ∧ u.out.dOut = some v ∧
      u.out.hit = some .romh ∧ u.blk = t.blk) ∧
  (let c := Config.canonical
    ∀ p ∈ [(0xDFFA#16, c.vecLo), (0xDFFB#16, c.vecHi)], p.2 &&& c.pageMask = p.1 &&& (winDesc c).mask &&& c.pageMask)

/-- R23, INV9 of R37 step by step (log 27): `valid` is set by a window-range access made with `enabled` and `switchOn` 1 and by
nothing else; a window-range access made otherwise, a register-range access, a successful SNAPLOAD and RESET clear it, and every
other operation leaves it. -/
def Obligations.ValidIsSetOnlyByMappedWindowAccess : Prop :=
  ∀ (i : Instr) (s t : State), exec i s = .next t →
    (t.blk.valid = true →
      s.blk.valid = true ∨ (isWindowAccess s i = true ∧ s.blk.enabled = true ∧ s.blk.switchOn = true)) ∧
    (isWindowAccess s i = true → t.blk.valid = (s.blk.enabled && s.blk.switchOn)) ∧
    (isRegisterAccess s i = true ∨ i = .reset ∨ (i = .snapload ∧ t.out.result = .ok) → t.blk.valid = false) ∧
    (isWindowAccess s i = false → isRegisterAccess s i = false → i ≠ .reset → i ≠ .snapload →
      t.blk.valid = s.blk.valid)

/-! ### The freeze switch and the lifecycle -/

/-- R141, R142, R143: SETSW in its four cases. -/
def Obligations.SetswTransitions : Prop :=
  ∀ (s : State) (b : Bool),
    encode (.setsw b) = [if b then 0x30000001#32 else 0x30000000#32] ∧
    (b = s.blk.switchOn → exec (.setsw b) s = .next { s with out := s.out.control .idempotent .none }) ∧
    (b ≠ s.blk.switchOn → s.blk.enabled = false → exec (.setsw b) s = .next { s with
      blk := { s.blk with switchOn := b }, out := s.out.control .ok .none }) ∧
    (b = true → s.blk.switchOn = false → s.blk.enabled = true → exec (.setsw b) s = .next { s with
      blk := { s.blk with switchOn := true, cfgMapped := true, freezePending := true },
      out := (s.out.control .ok .none).emitting [.cfgMapped, .nmiTrigger] }) ∧
    (b = false → s.blk.switchOn = true → s.blk.enabled = true → exec (.setsw b) s = .next { s with
      blk := { s.blk with switchOn := false, cfgMapped := false, freezePending := false },
      out := (s.out.control .ok .none).emitting
        (.cfgReverted :: if s.blk.freezePending then [.nmiRelease] else []) })

/-- R164: SETEN with the value already held changes nothing and does not ask AllocOK. -/
def Obligations.SetenIsIdempotent : Prop :=
  ∀ s : State, exec (.seten s.blk.enabled) s = .next { s with out := s.out.control .idempotent .none }

/-- R161: the enable path: OutOfMemory where the allocation fails; else memory of zeros, the two entries in order, the Mapped
configuration without a trigger if the switch is on; `page` is not written. That under PAGE_ON_ENABLE = draw (U6) the page is
instead the environment's draw, masked, is the model's choice (log 7), and so is the room the path needs (U4, log 14). -/
def Obligations.SetenEnables : Prop :=
  ∀ s : State, s.blk.enabled = false →
    (s.env.inp.allocOk = false →
      exec (.seten true) s = .next { s with out := (s.out.control .outOfMemory .none).calling .allocOk }) ∧
    (s.env.inp.allocOk = true → (∀ k, s.cfg.nSlots = some k → s.blk.H.length + 2 ≤ k) →
    let n := s.blk.nextId
    ∃ t, exec (.seten true) s = .next t ∧
      (∀ off, onboard t off = some 0x00#8) ∧
      t = { s with
        blk := { s.blk with
          enabled := true, mem := t.blk.mem, regIds := [n, n + 1], nextId := n + 2,
          H := s.blk.H ++ [⟨n, regDesc s.cfg⟩, ⟨n + 1, winDesc s.cfg⟩],
          cfgMapped := if s.blk.switchOn then true else s.blk.cfgMapped,
          page := match s.cfg.pageOnEnable with
            | .keep => s.blk.page
            | .draw => s.env.inp.drawPage &&& (s.cfg.pageCount - 1) },
        out := ((s.out.control .ok .none).calling .allocOk).emitting (if s.blk.switchOn then [.cfgMapped] else []) })

/-- R163, R231: where the environment refuses the allocation, SETEN 1, SNAPLOAD and ATTACH end with OutOfMemory, ask once, and
change no state. -/
def Obligations.AllocationFailureChangesNothing : Prop :=
  ∀ s : State, s.blk.enabled = false → s.env.inp.allocOk = false →
    let t := { s with out := (s.out.control .outOfMemory .none).calling .allocOk }
    exec (.seten true) s = .next t ∧
    (s.env.inp.record.typed s.cfg = true → s.env.inp.record.formatVersion = s.cfg.snapVersion →
      s.env.inp.record.enabled = true → exec .snapload s = .next t) ∧
    ((∀ img, s.env.inp.image = some img → imageOk s.cfg img = true) → exec (.attach s.cfg.modelCanon) s = .next t)

/-- A finite registry without room for two more entries refuses SETEN 1, SNAPLOAD of an enabled record and ATTACH, once the
allocation succeeded (R110, U4; the reach into the enable path is the model's choice, log 14). -/
def Obligations.FullRegistryRefusesEnable : Prop :=
  ∀ (s : State) (k : Nat), s.blk.enabled = false → s.env.inp.allocOk = true → s.cfg.nSlots = some k →
    k < s.blk.H.length + 2 →
    exec (.seten true) s = .refused .registryFull ∧
    (s.env.inp.record.typed s.cfg = true → s.env.inp.record.formatVersion = s.cfg.snapVersion →
      s.env.inp.record.enabled = true → exec .snapload s = .refused .registryFull) ∧
    ((∀ img, s.env.inp.image = some img → imageOk s.cfg img = true) →
      exec (.attach s.cfg.modelCanon) s = .refused .registryFull)

/-- R162: the disable path: revert and release, then unregister and free; the switch stays. -/
def Obligations.SetenDisables : Prop :=
  ∀ s : State, s.blk.enabled = true →
    exec (.seten false) s = .next { s with
      blk := { s.blk with
        enabled := false, mem := none, regIds := [], H := s.blk.H.filter fun e => decide (e.id ∉ s.blk.regIds),
        cfgMapped := if s.blk.switchOn then false else s.blk.cfgMapped,
        freezePending := if s.blk.switchOn then false else s.blk.freezePending },
      out := (s.out.control .ok .none).emitting
        (if s.blk.switchOn then .cfgReverted :: (if s.blk.freezePending then [.nmiRelease] else []) else []) }

/-- R169: what a disable followed by an enable preserves and loses. -/
def Obligations.DisableThenEnablePreserves : Prop :=
  ∀ s : State, s.Inv = true → s.RegistryInv = true → s.blk.enabled = true → s.env.inp.allocOk = true →
    s.cfg.nSlots = none → s.cfg.pageOnEnable = .keep →
    ∃ t u, exec (.seten false) s = .next t ∧ exec (.seten true) t = .next u ∧
      u.blk.switchOn = s.blk.switchOn ∧ u.blk.page = s.blk.page ∧ u.blk.attachedModel = s.blk.attachedModel ∧
      u.blk.isDefault = s.blk.isDefault ∧ t.blk.nextId = s.blk.nextId ∧
      (∀ e, isOwn s.cfg e = false → (e ∈ u.blk.H ↔ e ∈ s.blk.H)) ∧
      (∀ off, onboard u off = some 0x00#8) ∧ u.blk.freezePending = false ∧ u.blk.regIds.length = 2 ∧
      ∀ id ∈ u.blk.regIds, ∀ old ∈ s.blk.regIds, old < id

/-- R146: with LOAD_FIRES_TRIGGER at its default, an operation emits NmiTrigger exactly once if it is SETSW 1 with the switch
off and the instance enabled, and never otherwise; with the parameter set only SNAPLOAD may also emit it. -/
def Obligations.NmiTriggerOnlyOnSwitchEdge : Prop :=
  ∀ (i : Instr) (s t : State), exec i s = .next t →
    s.out.events <+: t.out.events ∧
    (s.cfg.loadFiresTrigger = false →
      (newEvents s t).count .nmiTrigger =
        if i = .setsw true ∧ s.blk.switchOn = false ∧ s.blk.enabled = true then 1 else 0) ∧
    (i ≠ .snapload → (newEvents s t).count .nmiTrigger =
        if i = .setsw true ∧ s.blk.switchOn = false ∧ s.blk.enabled = true then 1 else 0)

/-- R24, R147: `freezePending` is set exactly when NmiTrigger is emitted and cleared exactly when NmiRelease is emitted, and
by RESET, which emits nothing. -/
def Obligations.LatchFollowsTheEvents : Prop :=
  ∀ (i : Instr) (s t : State), s.Inv = true → exec i s = .next t →
    (i ≠ .reset →
      (Event.nmiTrigger ∈ newEvents s t ↔ s.blk.freezePending = false ∧ t.blk.freezePending = true) ∧
      (Event.nmiRelease ∈ newEvents s t ↔ s.blk.freezePending = true ∧ t.blk.freezePending = false)) ∧
    (i = .reset → t.blk.freezePending = false ∧ newEvents s t = [])

/-- R269: enabling and then switching on freezes; switching on and then enabling maps without a freeze. -/
def Obligations.EnableOrderDecidesTheFreeze : Prop :=
  ∀ s : State, s.Inv = true → s.blk.enabled = false → s.blk.switchOn = false → s.env.inp.allocOk = true →
    s.cfg.nSlots = none →
    ∃ t₁ u₁ t₂ u₂, exec (.seten true) s = .next t₁ ∧ exec (.setsw true) t₁ = .next u₁ ∧
      exec (.setsw true) s = .next t₂ ∧ exec (.seten true) t₂ = .next u₂ ∧
      u₁.blk.enabled = true ∧ u₁.blk.switchOn = true ∧ u₂.blk.enabled = true ∧ u₂.blk.switchOn = true ∧
      u₁.blk.freezePending = true ∧ u₂.blk.freezePending = false ∧
      u₁.out.events = s.out.events ++ [.cfgMapped, .nmiTrigger] ∧ u₂.out.events = s.out.events ++ [.cfgMapped]

/-! ### Getters, refusals, snapshot, attach, reset -/

/-- R165, R149: the getters output the bit and change nothing. -/
def Obligations.GettersReturnTheBit : Prop :=
  ∀ s : State,
    encode .getresEnabled = [0x40000000#32] ∧ encode .getresSwitchOn = [0x40000001#32] ∧
    exec .getresEnabled s = .next { s with out := s.out.control .ok (.bit s.blk.enabled) } ∧
    exec .getresSwitchOn s = .next { s with out := s.out.control .ok (.bit s.blk.switchOn) }

/-- The operations that stop on every path: SETMODE and GETRES 2 (R166), and the reserved code 0xE (R90 (a)). That the reserved
code has an operation at all, which `exec` refuses where the decoder never answers it, is the model's choice (log 25). -/
def Obligations.ModeAndReservedCodeAreRefused : Prop :=
  ∀ (s : State) (v : Byte) (bits : BitVec 28),
    encode (.setmode v) = [0xD00000#24 ++ v] ∧ encode .getresMode = [0x40000002#32] ∧
    exec .getresMode s = .refused .noModeResource ∧ exec (.setmode v) s = .refused .noModeResource ∧
    exec (.reservedE bits) s = .refused (.reservedEncoding .reservedOp)

/-- R211: SNAPSAVE outputs the record of an enabled instance, byte i of `rawMemory` being `mem[i]`, and none while disabled; it
changes no state. -/
def Obligations.SnapsaveOutputsTheRecord : Prop :=
  ∀ s : State, encode .snapsave = [0x80000000#32] ∧
    (s.blk.enabled = false → exec .snapsave s = .next { s with out := s.out.control .ok (.record none) }) ∧
    (s.blk.enabled = true → ∀ m, s.blk.mem = some m →
      ∃ r, exec .snapsave s = .next { s with out := s.out.control .ok (.record (some r)) } ∧
        r.formatVersion = s.cfg.snapVersion ∧ r.enabled = true ∧ r.switchOn = s.blk.switchOn ∧
        r.currentPage = s.blk.page ∧ r.rawMemory.bytes.length = s.cfg.memSize ∧
        ∀ off < s.cfg.memSize, r.rawMemory.bytes[off]? = some (m.read off))

/-- R233: a record of another version changes nothing. -/
def Obligations.SnaploadRejectsOtherVersions : Prop :=
  ∀ s : State, s.env.inp.record.typed s.cfg = true → s.env.inp.record.formatVersion ≠ s.cfg.snapVersion →
    exec .snapload s = .next { s with out := s.out.control .unsupportedSnapshotVersion .none }

/-- R212: what a successful load leaves: the record's fields, the configuration, the latch, the events in order, the registry. -/
def Obligations.SnaploadReplacesTheState : Prop :=
  ∀ s : State, s.Inv = true →
    let r := s.env.inp.record
    r.typed s.cfg = true → r.formatVersion = s.cfg.snapVersion →
    (r.enabled = true → s.blk.enabled = false →
      s.env.inp.allocOk = true ∧ ∀ k, s.cfg.nSlots = some k → s.blk.H.length + 2 ≤ k) →
    ∃ t, exec .snapload s = .next t ∧ t.out.result = .ok ∧ t.cfg = s.cfg ∧ t.env = s.env ∧
      t.blk.enabled = r.enabled ∧ t.blk.switchOn = r.switchOn ∧ t.blk.page = r.currentPage % s.cfg.pageCount ∧
      t.blk.valid = false ∧ t.blk.cfgMapped = (r.enabled && r.switchOn) ∧
      (r.enabled = true → ∀ off < s.cfg.memSize, onboard t off = r.rawMemory.bytes[off]?) ∧
      (r.enabled = false → t.blk.mem = none) ∧
      t.blk.freezePending =
        (r.enabled && r.switchOn && (s.blk.freezePending || s.cfg.loadFiresTrigger && !s.blk.switchOn)) ∧
      t.out.events = s.out.events ++ loadEvents s r ∧
      (r.enabled = s.blk.enabled →
        t.blk.H = s.blk.H ∧ t.blk.regIds = s.blk.regIds ∧ t.blk.nextId = s.blk.nextId) ∧
      (r.enabled = true → s.blk.enabled = false →
        t.blk.H = s.blk.H ++ [⟨s.blk.nextId, regDesc s.cfg⟩, ⟨s.blk.nextId + 1, winDesc s.cfg⟩] ∧
        t.blk.regIds = [s.blk.nextId, s.blk.nextId + 1] ∧ t.blk.nextId = s.blk.nextId + 2) ∧
      (r.enabled = false → s.blk.enabled = true →
        t.blk.H = s.blk.H.filter (fun e => decide (e.id ∉ s.blk.regIds)) ∧ t.blk.regIds = [] ∧
        t.blk.nextId = s.blk.nextId) ∧
      t.blk.attachedModel = s.blk.attachedModel ∧ t.blk.isDefault = s.blk.isDefault

/-- R213: saving and then loading on a block after RESET reproduces `enabled`, `switchOn`, `page` and all of `mem`. -/
def Obligations.SnapshotRoundTrip : Prop :=
  ∀ (s t : State) (r : SnapshotRecord), s.Inv = true → exec .snapsave s = .next t → t.out.value = .record (some r) →
    ∀ s' : State, s'.cfg = s.cfg → s'.blk = Block.reset → s'.env.inp.record = r → s'.env.inp.allocOk = true →
      ∃ u, exec .snapload s' = .next u ∧ u.out.result = .ok ∧ u.blk.enabled = s.blk.enabled ∧
        u.blk.switchOn = s.blk.switchOn ∧ u.blk.page = s.blk.page ∧ u.blk.mem = s.blk.mem

/-- R214, R232: ATTACH: another model is refused; a malformed image changes nothing and asks no allocation; otherwise the
instance is enabled, the image if any is its memory, and the model is recorded. -/
def Obligations.AttachEnablesAndCopiesTheImage : Prop :=
  ∀ (s : State) (m : ModelId),
    (m ≠ s.cfg.modelCanon → exec (.attach m) s = .refused .unknownModel) ∧
    (m = s.cfg.modelCanon → (∃ img, s.env.inp.image = some img ∧ img.length ≠ s.cfg.memSize) →
      exec (.attach m) s = .next { s with out := s.out.control .invalidImage .none }) ∧
    (m = s.cfg.modelCanon → (∀ img, s.env.inp.image = some img → imageOk s.cfg img = true) → s.blk.enabled = true →
      ∃ t, exec (.attach m) s = .next t ∧ t.cfg = s.cfg ∧ t.env = s.env ∧ t.out = s.out.control .ok .none ∧
        t.blk = { s.blk with attachedModel := some m, mem := t.blk.mem } ∧
        (s.env.inp.image = none → t.blk.mem = s.blk.mem) ∧
        (∀ img, s.env.inp.image = some img → ∀ off < s.cfg.memSize, onboard t off = img[off]?)) ∧
    (m = s.cfg.modelCanon → (∀ img, s.env.inp.image = some img → imageOk s.cfg img = true) → s.blk.enabled = false →
      s.env.inp.allocOk = true → (∀ k, s.cfg.nSlots = some k → s.blk.H.length + 2 ≤ k) →
      ∃ t u, exec (.seten true) s = .next t ∧ exec (.attach m) s = .next u ∧ u.cfg = t.cfg ∧ u.env = t.env ∧
        u.out = t.out ∧ u.blk = { t.blk with attachedModel := some m, mem := u.blk.mem } ∧
        (s.env.inp.image = none → u.blk.mem = t.blk.mem) ∧
        (∀ img, s.env.inp.image = some img → ∀ off < s.cfg.memSize, onboard u off = img[off]?))

/-- R215: DETACH disables an enabled instance and clears the host-side state; it never fails. -/
def Obligations.DetachDisablesAndClears : Prop :=
  ∀ s : State, encode .detach = [0xB0000000#32] ∧
    (s.blk.enabled = true → exec .detach s = .next { s with
      blk := { disabledBlock s.blk with attachedModel := none, isDefault := false },
      out := (s.out.control .ok .none).emitting (disableEvents s.blk) }) ∧
    (s.blk.enabled = false → exec .detach s = .next { s with
      blk := { s.blk with attachedModel := none, isDefault := false }, out := s.out.control .ok .none })

/-- R216: SETDEF marks the attached model; with nothing attached it does nothing. -/
def Obligations.SetdefMarksTheAttachedModel : Prop :=
  ∀ s : State, encode .setdef = [0xC0000000#32] ∧
    (s.blk.attachedModel ≠ none → exec .setdef s = .next { s with
      blk := { s.blk with isDefault := true }, out := s.out.control .ok .none }) ∧
    (s.blk.attachedModel = none → exec .setdef s = .next { s with out := s.out.control .ok .none })

/-- R260: RESET puts every state element of the block at its reset value from any state, emits no event, and ends with Ok. -/
def Obligations.ResetClearsTheBlock : Prop :=
  ∀ s : State, encode .reset = [0xF0000000#32] ∧ exec .reset s = .next { s with
    blk := { enabled := false, switchOn := false, page := 0, mem := none, valid := false, freezePending := false,
             cfgMapped := false, regIds := [], H := [], nextId := 0, attachedModel := none, isDefault := false },
    out := s.out.control .ok .none }

/-! ### Whole-machine rules -/

/-- R230, R235, R120: an operation that ends with a result other than Ok changes no state, emits nothing and outputs no
value. -/
def Obligations.ErrorsChangeNothing : Prop :=
  ∀ (i : Instr) (s t : State), exec i s = .next t → t.out.result ≠ .ok →
    t.cfg = s.cfg ∧ t.blk = s.blk ∧ t.env = s.env ∧ t.out.events = s.out.events ∧ t.out.value = .none

/-- R230, column "raised by": which operation can end with which result. -/
def Obligations.ResultsByOperation : Prop :=
  ∀ (i : Instr) (s t : State), exec i s = .next t →
    (t.out.result = .outOfMemory →
      (i = .seten true ∨ i = .snapload ∨ i = .attach s.cfg.modelCanon) ∧ s.blk.enabled = false ∧
        s.env.inp.allocOk = false) ∧
    (t.out.result = .invalidImage → i = .attach s.cfg.modelCanon) ∧
    (t.out.result = .unsupportedSnapshotVersion → i = .snapload) ∧
    (t.out.result = .idempotent → i = .seten s.blk.enabled ∨ i = .setsw s.blk.switchOn)

/-- Which operations change which state element: one clause for each of the twelve elements of R20 (R23, R24, R26 to R29, R31 to
R34), one for the parameters of R7, which none changes, and one for the environment, of which only a byte of system memory
changes. That an enable writes `page` under PAGE_ON_ENABLE = draw is the model's choice (log 7). -/
def Obligations.EachElementHasItsWriters : Prop :=
  ∀ (i : Instr) (s t : State), exec i s = .next t →
    t.cfg = s.cfg ∧
    (t.blk.enabled ≠ s.blk.enabled →
      (∃ b, i = .seten b) ∨ i = .snapload ∨ (∃ m, i = .attach m) ∨ i = .detach ∨ i = .reset) ∧
    (t.blk.switchOn ≠ s.blk.switchOn → (∃ b, i = .setsw b) ∨ i = .snapload ∨ i = .reset) ∧
    (t.blk.page ≠ s.blk.page →
      (isRegisterAccess s i = true ∧ s.blk.enabled = true) ∨ i = .snapload ∨ i = .reset ∨
        (s.cfg.pageOnEnable = .draw ∧ s.blk.enabled = false ∧ (i = .seten true ∨ ∃ m, i = .attach m))) ∧
    (t.blk.mem ≠ s.blk.mem →
      onboardStore s i ≠ none ∨ (∃ b, i = .seten b) ∨ i = .snapload ∨ (∃ m, i = .attach m) ∨ i = .detach ∨ i = .reset) ∧
    (t.blk.valid ≠ s.blk.valid →
      isWindowAccess s i = true ∨ isRegisterAccess s i = true ∨ i = .snapload ∨ i = .reset) ∧
    (t.blk.freezePending ≠ s.blk.freezePending →
      (∃ b, i = .setsw b) ∨ i = .seten false ∨ i = .snapload ∨ i = .detach ∨ i = .reset) ∧
    (t.blk.cfgMapped ≠ s.blk.cfgMapped →
      (∃ b, i = .setsw b) ∨ (∃ b, i = .seten b) ∨ i = .snapload ∨ (∃ m, i = .attach m) ∨ i = .detach ∨ i = .reset) ∧
    (t.blk.regIds ≠ s.blk.regIds →
      (∃ b, i = .seten b) ∨ i = .snapload ∨ (∃ m, i = .attach m) ∨ i = .detach ∨ i = .reset) ∧
    (t.blk.H ≠ s.blk.H →
      (∃ d, i = .hreg d) ∨ (∃ n, i = .hunreg n) ∨ (∃ b, i = .seten b) ∨ i = .snapload ∨ (∃ m, i = .attach m) ∨
        i = .detach ∨ i = .reset) ∧
    (t.blk.nextId ≠ s.blk.nextId →
      (∃ d, i = .hreg d) ∨ i = .seten true ∨ i = .snapload ∨ (∃ m, i = .attach m) ∨ i = .reset) ∧
    (t.blk.attachedModel ≠ s.blk.attachedModel → (∃ m, i = .attach m) ∨ i = .detach ∨ i = .reset) ∧
    (t.blk.isDefault ≠ s.blk.isDefault → i = .setdef ∨ i = .detach ∨ i = .reset) ∧
    (t.env.sys ≠ s.env.sys → systemStore s i ≠ none) ∧
    t.env = { s.env with sys := t.env.sys }

/-- The state after reset meets the invariants, the constraints of R8 and those with the environment's duty included. -/
def Obligations.ResetMeetsTheInvariants : Prop :=
  State.reset.Inv = true ∧ State.reset.RegistryInv = true

/-- R36, R37, R8: every step, whatever operation the environment issues, keeps the constraints on the parameters, INV1, INV2,
INV5, INV6, INV8 and the canonical form of both memories. -/
def Obligations.EveryStepKeepsTheInvariants : Prop :=
  ∀ s t : State, s.Inv = true → step s = .next t → t.Inv = true

/-- R36 INV3, R37 INV7: every step whose operation keeps the environment's duty toward the registry (R270) keeps the instance's
two entries registered exactly while it is enabled, with `regIds` their ids. -/
def Obligations.StepsWithinTheDutyKeepTheRegistry : Prop :=
  ∀ (s t : State) (i : Instr) (rest : List Word), s.Inv = true → s.RegistryInv = true → nextOp s = .ok (i, rest) →
    keepsDuty s i = true → step s = .next t → t.RegistryInv = true

/-! ### Parameters and operand forms -/

/-- R132, R133: under parameters that meet R8 the window offset of a page in range is `page * PAGE_SIZE + (a & PAGE_MASK)`, the
in-page part being the address modulo PAGE_SIZE, and lies inside onboard memory. With the canonical parameters it is the
concatenation of page and low address byte, and the full and the reduced window address give the same offset. -/
def Obligations.WindowOffsetLiesInMemory : Prop :=
  (∀ (c : Config) (p : Nat) (a : Addr), paramsOk c = true → p < c.pageCount →
    windowOffset c p a = p * c.pageSize + (a &&& c.pageMask).toNat ∧
    windowOffset c p a = p * c.pageSize + a.toNat % c.pageSize ∧ windowOffset c p a < c.memSize) ∧
  ∀ (p : BitVec 3) (a : Addr), let c := Config.canonical
    windowOffset c p.toNat a = p.toNat * 256 + (a &&& 0x00FF#16).toNat ∧
    windowOffset c p.toNat a = (p ++ a.extractLsb' 0 8 : BitVec 11).toNat ∧
    windowOffset c p.toNat (a &&& c.winMask) = windowOffset c p.toNat a

/-- R130, R131: the page permutation reverses the three low address bits, reads no other bit, is its own inverse on three-bit
values, and is the source's table. -/
def Obligations.PagePermutationReversesLowBits : Prop :=
  (∀ a : Addr, perm3 a = lowBitsReversed a ∧ perm3 a = perm3 (a &&& 0x0007#16) ∧
    perm3 ((perm3 a).setWidth 16) = a.extractLsb' 0 3) ∧
  perm3 0#16 = 0#3 ∧ perm3 4#16 = 1#3 ∧ perm3 2#16 = 2#3 ∧ perm3 6#16 = 3#3 ∧
  perm3 1#16 = 4#3 ∧ perm3 5#16 = 5#3 ∧ perm3 3#16 = 6#3 ∧ perm3 7#16 = 7#3

/-- R210: a record whose `rawMemory` is not exactly MEM_SIZE bytes long is no SnapshotRecord, and SNAPLOAD of it is refused (that
it is a refusal of the machine is the model's choice, log 28). -/
def Obligations.IllTypedRecordIsRefused : Prop :=
  ∀ s : State, s.env.inp.record.rawMemory.bytes.length ≠ s.cfg.memSize → exec .snapload s = .refused .illTypedRecord
end

