-- ==== Sys2Proof/Laws/Decode.lean ====
section
/-! SUPPORT. The fields of an encoded word read back as they were written, and what the row of a bus cycle can be. -/

namespace Sys2Proof

/-! ### Bus words -/

section Bus

variable (op : BitVec 4) (a : Addr) (d : Byte)

@[simp] theorem opOf_busWord : opOf (busWord op a d) = op := by
  unfold opOf busWord
  rw [BitVec.extractLsb'_append_eq_of_le (by decide), BitVec.extractLsb'_append_eq_of_le (by decide),
    BitVec.extractLsb'_append_eq_of_le (by decide)]
  simp

@[simp] theorem zOf_busWord : zOf (busWord op a d) = 0#4 := by
  unfold zOf busWord
  rw [BitVec.extractLsb'_append_eq_of_le (by decide), BitVec.extractLsb'_append_eq_of_le (by decide),
    BitVec.extractLsb'_append_eq_of_add_le (by decide)]
  simp

@[simp] theorem addrOf_busWord : addrOf (busWord op a d) = a := by
  unfold addrOf busWord
  rw [BitVec.extractLsb'_append_eq_of_le (by decide), BitVec.extractLsb'_append_eq_of_add_le (by decide)]
  simp

@[simp] theorem dataOf_busWord : dataOf (busWord op a d) = d := by
  unfold dataOf busWord
  rw [BitVec.extractLsb'_append_eq_of_add_le (by decide)]
  simp

end Bus

/-! ### Control words -/

section Ctl

variable (op : BitVec 4) (v : BitVec 24)

@[simp] theorem opOf_ctlWord : opOf (ctlWord op v) = op := by
  unfold opOf ctlWord
  rw [BitVec.extractLsb'_append_eq_of_le (by decide), BitVec.extractLsb'_append_eq_of_le (by decide)]
  simp

@[simp] theorem zOf_ctlWord : zOf (ctlWord op v) = 0#4 := by
  unfold zOf ctlWord
  rw [BitVec.extractLsb'_append_eq_of_le (by decide), BitVec.extractLsb'_append_eq_of_add_le (by decide)]
  simp

/-- Any field of the 24 operand bits. -/
theorem extract_ctlWord (start len : Nat) (h : start + len ≤ 24) :
    (ctlWord op v).extractLsb' start len = v.extractLsb' start len := by
  unfold ctlWord
  rw [BitVec.extractLsb'_append_eq_of_add_le h]

theorem bit0Of_ctlWord : bit0Of (ctlWord op v) = v.getLsbD 0 := by
  unfold bit0Of ctlWord
  rw [BitVec.getLsbD_append]
  rfl

@[simp] theorem bit0Of_bitArg (b : Bool) : bit0Of (ctlWord op (bitArg b)) = b := by
  rw [bit0Of_ctlWord]; unfold bitArg; rw [BitVec.getLsbD_append]; cases b <;> rfl

@[simp] theorem unused_bitArg (b : Bool) : (ctlWord op (bitArg b)).extractLsb' 1 23 = 0#23 := by
  rw [extract_ctlWord op _ 1 23 (by decide)]
  unfold bitArg
  rw [BitVec.extractLsb'_append_eq_of_le (by decide)]
  simp

@[simp] theorem addrOf_byteArg (m : Byte) : addrOf (ctlWord op (byteArg m)) = 0#16 := by
  unfold addrOf
  rw [extract_ctlWord op _ 8 16 (by decide)]
  unfold byteArg
  rw [BitVec.extractLsb'_append_eq_of_le (by decide)]
  simp

@[simp] theorem dataOf_byteArg (m : Byte) : dataOf (ctlWord op (byteArg m)) = m := by
  unfold dataOf
  rw [extract_ctlWord op _ 0 8 (by decide)]
  unfold byteArg
  rw [BitVec.extractLsb'_append_eq_of_add_le (by decide)]
  simp

@[simp] theorem addrOf_dispatchArg (a : Addr) (k : AccessKind) : addrOf (ctlWord op (dispatchArg a k)) = a := by
  unfold addrOf
  rw [extract_ctlWord op _ 8 16 (by decide)]
  unfold dispatchArg
  rw [BitVec.extractLsb'_append_eq_of_le (by decide)]
  simp

@[simp] theorem unused_dispatchArg (a : Addr) (k : AccessKind) :
    (ctlWord op (dispatchArg a k)).extractLsb' 1 7 = 0#7 := by
  rw [extract_ctlWord op _ 1 7 (by decide)]
  unfold dispatchArg
  rw [BitVec.extractLsb'_append_eq_of_add_le (by decide), BitVec.extractLsb'_append_eq_of_le (by decide)]
  simp

@[simp] theorem bit0Of_dispatchArg (a : Addr) (k : AccessKind) :
    bit0Of (ctlWord op (dispatchArg a k)) = kindBit k := by
  rw [bit0Of_ctlWord]
  unfold dispatchArg
  rw [BitVec.getLsbD_append, if_pos (by decide), BitVec.getLsbD_append, if_pos (by decide)]
  cases k <;> rfl

end Ctl

/-! ### The words of HREG -/

section Hreg

variable (d : Descriptor)

/-- The first word of HREG. -/
def hregWord0 : Word :=
  0x5#4 ++ 0#4 ++ d.ownerId ++ 0#12 ++ roleCode d.role ++ bit d.exclusive ++ bit d.readCapable

theorem hregWords_eq : hregWords d = [hregWord0 d, d.base ++ d.endAddr, 0#16 ++ d.mask] := rfl

@[simp] theorem opOf_hregWord0 : opOf (hregWord0 d) = 0x5#4 := by
  unfold opOf hregWord0
  iterate 6 rw [BitVec.extractLsb'_append_eq_of_le (by decide)]
  simp

@[simp] theorem zOf_hregWord0 : zOf (hregWord0 d) = 0#4 := by
  unfold zOf hregWord0
  iterate 5 rw [BitVec.extractLsb'_append_eq_of_le (by decide)]
  rw [BitVec.extractLsb'_append_eq_of_add_le (by decide)]
  simp

@[simp] theorem hregOwnerOf_hregWord0 : hregOwnerOf (hregWord0 d) = d.ownerId := by
  unfold hregOwnerOf hregWord0
  iterate 4 rw [BitVec.extractLsb'_append_eq_of_le (by decide)]
  rw [BitVec.extractLsb'_append_eq_of_add_le (by decide)]
  simp

@[simp] theorem hregUnusedOf_hregWord0 : hregUnusedOf (hregWord0 d) = 0#12 := by
  unfold hregUnusedOf hregWord0
  iterate 3 rw [BitVec.extractLsb'_append_eq_of_le (by decide)]
  rw [BitVec.extractLsb'_append_eq_of_add_le (by decide)]
  simp

@[simp] theorem hregRoleOf_hregWord0 : hregRoleOf (hregWord0 d) = roleCode d.role := by
  unfold hregRoleOf hregWord0
  iterate 2 rw [BitVec.extractLsb'_append_eq_of_le (by decide)]
  rw [BitVec.extractLsb'_append_eq_of_add_le (by decide)]
  simp

@[simp] theorem bit1Of_hregWord0 : bit1Of (hregWord0 d) = d.exclusive := by
  unfold bit1Of hregWord0
  rw [BitVec.getLsbD_append, if_neg (by decide), BitVec.getLsbD_append, if_pos (by decide)]
  cases d.exclusive <;> rfl

@[simp] theorem bit0Of_hregWord0 : bit0Of (hregWord0 d) = d.readCapable := by
  unfold bit0Of hregWord0
  rw [BitVec.getLsbD_append, if_pos (by decide)]
  cases d.readCapable <;> rfl

@[simp] theorem highHalfOf_append (x y : BitVec 16) : highHalfOf (x ++ y) = x := by
  unfold highHalfOf
  rw [BitVec.extractLsb'_append_eq_of_le (by decide)]
  simp

@[simp] theorem lowHalfOf_append (x y : BitVec 16) : lowHalfOf (x ++ y) = y := by
  unfold lowHalfOf
  rw [BitVec.extractLsb'_append_eq_of_add_le (by decide)]
  simp

@[simp] theorem roleOf_roleCode (r : Role) : roleOf (roleCode r) = some r := by cases r <;> rfl

end Hreg

/-! ### Rows of a bus cycle -/

@[simp] theorem selectRow_buswr (c : Config) (q : Addr → RowCond) (a : Addr) (d : Byte) :
    selectRow c q (.buswr a d) = (busRow c (q a) a).writeRow a d := rfl

@[simp] theorem selectRow_busrd (c : Config) (q : Addr → RowCond) (a : Addr) :
    selectRow c q (.busrd a) = (busRow c (q a) a).readRow a := rfl

@[simp] theorem classRow_writeRow (r : BusRow) (a : Addr) (d : Byte) : (r.writeRow a d).classRow = .buswr a d := by
  cases r <;> rfl

@[simp] theorem classRow_readRow (r : BusRow) (a : Addr) : (r.readRow a).classRow = .busrd a := by
  cases r <;> rfl

/-- The row of a cycle by the winning entry's role. -/
theorem busRow_of_winner (c : Config) (q : RowCond) (a : Addr) {r : Role} (h : q.winner = some r) :
    busRow c q a = r.row := by
  unfold busRow; rw [h]

/-- The row of a cycle no entry takes, by the ranges. -/
theorem busRow_of_none (c : Config) (m : Bool) (a : Addr) :
    busRow c { winner := none, mapped := m } a =
      if m && inRange c.romlBase c.romlEnd a then .roml
      else if m && inRange c.romhBase c.romhEnd a then .romh
      else if m && inRange c.fb1Base c.fb1End a then .fb1
      else if m && inRange c.fb2Base c.fb2End a then .fb2
      else .sys := rfl

/-- With no winning entry and the fall-through handlers out of the path the cycle goes to system memory. -/
theorem busRow_unmapped (c : Config) (q : RowCond) (a : Addr) (h : q.winner = none) (hm : q.mapped = false) :
    busRow c q a = .sys := by
  unfold busRow; simp [h, hm]

end Sys2Proof
end

