-- ==== Sys2Proof/Laws/Memory.lean ====
section
/-! SUPPORT. The laws of memories: read after write, the canonical form and its bounds are kept, and a canonical memory is
determined by its bytes. -/

namespace Sys2Proof.Machine

/-- Every listed address is above `k`. -/
abbrev Memory.above (k : Nat) (m : Memory) : Prop := ∀ cell ∈ m, k < cell.1

@[simp] theorem Memory.read_nil (a : Nat) : Memory.read [] a = Memory.unlisted := rfl

theorem Memory.read_cons (k : Nat) (v : Byte) (m : Memory) (a : Nat) :
    Memory.read ((k, v) :: m) a = if k = a then v else m.read a := rfl

theorem Memory.wf_cons (k : Nat) (v : Byte) (m : Memory) :
    Memory.wf ((k, v) :: m) = true ↔ v ≠ Memory.unlisted ∧ m.above k ∧ m.wf = true := by
  simp [Memory.wf, and_assoc]

theorem Memory.within_cons (n k : Nat) (v : Byte) (m : Memory) :
    Memory.within n ((k, v) :: m) = true ↔ k < n ∧ m.within n = true := by
  simp [Memory.within]

/-- An address below every listed one reads as unlisted. -/
theorem Memory.read_of_above {k a : Nat} {m : Memory} (h : m.above k) (ha : a ≤ k) : m.read a = Memory.unlisted := by
  induction m with
  | nil => rfl
  | cons cell m ih =>
    obtain ⟨j, w⟩ := cell
    have hj : k < j := h (j, w) List.mem_cons_self
    rw [Memory.read_cons, if_neg (by omega)]
    exact ih fun c hc => h c (List.mem_cons_of_mem _ hc)

/-- A read at the stored address gives the stored byte. -/
theorem Memory.read_write_same {m : Memory} (h : m.wf = true) (a : Nat) (v : Byte) : (m.write a v).read a = v := by
  induction m with
  | nil => unfold Memory.write; split <;> simp_all [Memory.read_cons]
  | cons cell m ih =>
    obtain ⟨k, w⟩ := cell
    obtain ⟨-, hk, hm⟩ := (Memory.wf_cons k w m).1 h
    unfold Memory.write
    split
    · next hlt =>
      split
      · next hv => rw [Memory.read_cons, if_neg (by omega), Memory.read_of_above hk (by omega), hv]
      · simp [Memory.read_cons]
    · split
      · next heq =>
        subst heq
        split
        · next hv => rw [Memory.read_of_above hk le_rfl, hv]
        · simp [Memory.read_cons]
      · next hne => rw [Memory.read_cons, if_neg (fun e => hne e.symm), ih hm]

/-- A read at any other address gives what it gave before, in any memory. -/
theorem Memory.read_write_other (m : Memory) {a b : Nat} (v : Byte) (h : b ≠ a) : (m.write a v).read b = m.read b := by
  induction m with
  | nil => unfold Memory.write; split <;> simp [Memory.read_cons, h.symm]
  | cons cell m ih =>
    obtain ⟨k, w⟩ := cell
    unfold Memory.write
    split
    · split <;> simp [Memory.read_cons, h.symm]
    · split
      · next heq => subst heq; split <;> simp [Memory.read_cons, h.symm]
      · simp only [Memory.read_cons, ih]

theorem Memory.read_write {m : Memory} (h : m.wf = true) (a b : Nat) (v : Byte) :
    (m.write a v).read b = if b = a then v else m.read b := by
  split
  · next e => rw [e, Memory.read_write_same h]
  · next e => exact Memory.read_write_other m v e

theorem Memory.mem_write {m : Memory} {a : Nat} {v : Byte} {c : Host.Cell} (h : c ∈ m.write a v) : c ∈ m ∨ c = (a, v) := by
  induction m with
  | nil => unfold Memory.write at h; split at h <;> simp_all
  | cons cell m ih =>
    obtain ⟨k, w⟩ := cell
    unfold Memory.write at h
    split at h
    · split at h <;> simp_all <;> tauto
    · split at h
      · split at h <;> simp_all <;> tauto
      · rcases List.mem_cons.1 h with h | h
        · exact .inl (by simp [h])
        · rcases ih h with h | h
          · exact .inl (List.mem_cons_of_mem _ h)
          · exact .inr h

/-- A store keeps the canonical form. -/
theorem Memory.wf_write {m : Memory} (h : m.wf = true) (a : Nat) (v : Byte) : (m.write a v).wf = true := by
  induction m with
  | nil =>
    unfold Memory.write
    split
    · rfl
    · next hv => exact (Memory.wf_cons a v []).2 ⟨hv, by simp, rfl⟩
  | cons cell m ih =>
    obtain ⟨k, w⟩ := cell
    obtain ⟨hw, hk, hm⟩ := (Memory.wf_cons k w m).1 h
    unfold Memory.write
    split
    · next hlt =>
      split
      · exact h
      · next hv =>
        refine (Memory.wf_cons a v _).2 ⟨hv, fun c hc => ?_, h⟩
        rcases List.mem_cons.1 hc with rfl | hc
        · exact hlt
        · exact hlt.trans (hk c hc)
    · split
      · next heq =>
        subst heq
        split
        · exact hm
        · next hv => exact (Memory.wf_cons a v m).2 ⟨hv, hk, hm⟩
      · next hlt hne =>
        refine (Memory.wf_cons k w _).2 ⟨hw, fun c hc => ?_, ih hm⟩
        rcases Memory.mem_write hc with hc | rfl
        · exact hk c hc
        · show k < a
          omega

/-- A store below the bound keeps every listed address below it. -/
theorem Memory.within_write {n : Nat} {m : Memory} (h : m.within n = true) {a : Nat} (ha : a < n) (v : Byte) :
    (m.write a v).within n = true := by
  simp only [Memory.within, List.all_eq_true, decide_eq_true_eq] at h ⊢
  intro c hc
  rcases Memory.mem_write hc with hc | rfl
  · exact h c hc
  · exact ha

theorem Memory.ofBytesFrom_above (k : Nat) (bs : List Byte) : ∀ c ∈ Memory.ofBytesFrom k bs, k ≤ c.1 := by
  induction bs generalizing k with
  | nil => simp [Memory.ofBytesFrom]
  | cons b bs ih =>
    intro c hc
    unfold Memory.ofBytesFrom at hc
    split at hc
    · exact (Nat.le_succ k).trans (ih (k + 1) c hc)
    · rcases List.mem_cons.1 hc with rfl | hc
      · exact le_rfl
      · exact (Nat.le_succ k).trans (ih (k + 1) c hc)

/-- A memory made of bytes is in canonical form. -/
theorem Memory.wf_ofBytesFrom (k : Nat) (bs : List Byte) : (Memory.ofBytesFrom k bs).wf = true := by
  induction bs generalizing k with
  | nil => rfl
  | cons b bs ih =>
    unfold Memory.ofBytesFrom
    split
    · exact ih (k + 1)
    · next hb => exact (Memory.wf_cons k b _).2 ⟨hb, fun c hc => Memory.ofBytesFrom_above (k + 1) bs c hc, ih (k + 1)⟩

theorem Memory.within_ofBytesFrom (k : Nat) (bs : List Byte) :
    (Memory.ofBytesFrom k bs).within (k + bs.length) = true := by
  induction bs generalizing k with
  | nil => rfl
  | cons b bs ih =>
    have h : k + (b :: bs).length = k + 1 + bs.length := by simp; omega
    unfold Memory.ofBytesFrom
    split
    · rw [h]; exact ih (k + 1)
    · rw [h]; exact (Memory.within_cons _ k b _).2 ⟨by omega, ih (k + 1)⟩

theorem Memory.wf_ofBytes (bs : List Byte) : (Memory.ofBytes bs).wf = true := Memory.wf_ofBytesFrom 0 bs

theorem Memory.within_ofBytes (bs : List Byte) : (Memory.ofBytes bs).within bs.length = true := by
  have h := Memory.within_ofBytesFrom 0 bs
  rwa [Nat.zero_add] at h

theorem Memory.read_ofBytesFrom (k : Nat) (bs : List Byte) (i : Nat) :
    (Memory.ofBytesFrom k bs).read (k + i) = bs[i]?.getD Memory.unlisted := by
  induction bs generalizing k i with
  | nil => simp [Memory.ofBytesFrom]
  | cons b bs ih =>
    cases i with
    | zero =>
      unfold Memory.ofBytesFrom
      split
      · next hb =>
        rw [Memory.read_of_above (k := k) (fun c hc => Memory.ofBytesFrom_above (k + 1) bs c hc) (by omega)]
        simp [hb]
      · simp [Memory.read_cons]
    | succ i =>
      have h := ih (k + 1) i
      rw [show k + 1 + i = k + (i + 1) by omega] at h
      unfold Memory.ofBytesFrom
      split
      · simpa using h
      · rw [Memory.read_cons, if_neg (by omega)]; simpa using h

/-- Byte i of the sequence is `mem[i]`. -/
theorem Memory.read_ofBytes (bs : List Byte) (i : Nat) : (Memory.ofBytes bs).read i = bs[i]?.getD Memory.unlisted := by
  have h := Memory.read_ofBytesFrom 0 bs i
  rwa [Nat.zero_add] at h

theorem Memory.read_of_not_listed {m : Memory} {a : Nat} (h : ∀ c ∈ m, c.1 ≠ a) : m.read a = Memory.unlisted := by
  induction m with
  | nil => rfl
  | cons cell m ih =>
    obtain ⟨k, w⟩ := cell
    rw [Memory.read_cons, if_neg (h (k, w) List.mem_cons_self)]
    exact ih fun c hc => h c (List.mem_cons_of_mem _ hc)

/-- An address at or above the bound reads as unlisted. -/
theorem Memory.read_of_within {n : Nat} {m : Memory} (h : m.within n = true) {a : Nat} (ha : n ≤ a) :
    m.read a = Memory.unlisted := by
  simp only [Memory.within, List.all_eq_true, decide_eq_true_eq] at h
  exact Memory.read_of_not_listed fun c hc => by have := h c hc; omega

/-- Equal memories are equal data: canonical memories with the same bytes are the same list. -/
theorem Memory.ext_of_wf {m n : Memory} (hm : m.wf = true) (hn : n.wf = true) (h : ∀ a, m.read a = n.read a) : m = n := by
  induction m generalizing n with
  | nil =>
    cases n with
    | nil => rfl
    | cons cell n =>
      obtain ⟨k, w⟩ := cell
      have := h k
      simp only [Memory.read_nil, Memory.read_cons, if_true] at this
      exact absurd this.symm ((Memory.wf_cons k w n).1 hn).1
  | cons cell m ih =>
    obtain ⟨k, v⟩ := cell
    obtain ⟨hv, hk, hm'⟩ := (Memory.wf_cons k v m).1 hm
    cases n with
    | nil =>
      have := h k
      simp only [Memory.read_nil, Memory.read_cons, if_true] at this
      exact absurd this hv
    | cons cell' n =>
      obtain ⟨j, w⟩ := cell'
      obtain ⟨hw, hj, hn'⟩ := (Memory.wf_cons j w n).1 hn
      have hkj : k = j := by
        rcases Nat.lt_trichotomy k j with hlt | heq | hgt
        · have := h k
          rw [Memory.read_cons, if_pos rfl, Memory.read_cons, if_neg (by omega), Memory.read_of_above hj hlt.le] at this
          exact absurd this hv
        · exact heq
        · have := h j
          rw [Memory.read_cons, if_neg (by omega), Memory.read_of_above hk hgt.le, Memory.read_cons, if_pos rfl] at this
          exact absurd this.symm hw
      subst hkj
      have hvw : v = w := by simpa [Memory.read_cons] using h k
      subst hvw
      rw [ih hm' hn' fun a => ?_]
      by_cases ha : k = a
      · subst ha; rw [Memory.read_of_above hk le_rfl, Memory.read_of_above hj le_rfl]
      · have := h a
        rwa [Memory.read_cons, if_neg ha, Memory.read_cons, if_neg ha] at this

theorem Memory.toRaw_getElem? (m : Memory) {n i : Nat} (h : i < n) : (m.toRaw n).bytes[i]? = some (m.read i) := by
  simp [Memory.toRaw, List.getElem?_range h]

/-- Saving and loading a canonical onboard memory gives the memory back. -/
theorem Memory.ofBytes_toRaw {n : Nat} {m : Memory} (hm : m.wf = true) (hw : m.within n = true) :
    Memory.ofBytes (m.toRaw n).bytes = m := by
  refine Memory.ext_of_wf (Memory.wf_ofBytes _) hm fun a => ?_
  rw [Memory.read_ofBytes]
  by_cases h : a < n
  · rw [Memory.toRaw_getElem? m h]; rfl
  · rw [List.getElem?_eq_none (by simp [Memory.toRaw]; omega), Memory.read_of_within hw (by omega)]; rfl

/-- The byte at an offset after loading a record's `rawMemory`. -/
theorem Memory.read_ofRaw (r : RawMemory) {i : Nat} (h : i < r.size) :
    r.bytes[i]? = some ((Memory.ofBytes r.bytes).read i) := by
  rw [Memory.read_ofBytes, List.getElem?_eq_getElem (r.length_eq.symm ▸ h)]; rfl

end Sys2Proof.Machine
end

