-- ==== Sys2Proof/Laws/State.lean ====
section
/-! SUPPORT. One lemma per part of the state per update: what each named update writes and what it keeps. -/

namespace Sys2Proof.Machine

section Updates

variable (s : State)


@[simp] theorem State.emit_cfg (e : Event) : (s.emit e).cfg = s.cfg := rfl
@[simp] theorem State.emit_blk (e : Event) : (s.emit e).blk = s.blk := rfl
@[simp] theorem State.emit_env (e : Event) : (s.emit e).env = s.env := rfl
@[simp] theorem State.emit_out (e : Event) : (s.emit e).out = { s.out with events := s.out.events ++ [e] } := rfl

@[simp] theorem State.setValid_cfg (v : Bool) : (s.setValid v).cfg = s.cfg := rfl
@[simp] theorem State.setValid_blk (v : Bool) : (s.setValid v).blk = { s.blk with valid := v } := rfl
@[simp] theorem State.setValid_env (v : Bool) : (s.setValid v).env = s.env := rfl
@[simp] theorem State.setValid_out (v : Bool) : (s.setValid v).out = s.out := rfl

@[simp] theorem State.mapConfig_cfg : s.mapConfig.cfg = s.cfg := rfl
@[simp] theorem State.mapConfig_blk : s.mapConfig.blk = { s.blk with cfgMapped := true } := rfl
@[simp] theorem State.mapConfig_env : s.mapConfig.env = s.env := rfl
@[simp] theorem State.mapConfig_out : s.mapConfig.out = { s.out with events := s.out.events ++ [.cfgMapped] } := rfl

@[simp] theorem State.unmapConfig_cfg : s.unmapConfig.cfg = s.cfg := rfl
@[simp] theorem State.unmapConfig_blk : s.unmapConfig.blk = { s.blk with cfgMapped := false } := rfl
@[simp] theorem State.unmapConfig_env : s.unmapConfig.env = s.env := rfl
@[simp] theorem State.unmapConfig_out : s.unmapConfig.out = { s.out with events := s.out.events ++ [.cfgReverted] } := rfl

@[simp] theorem State.raiseNmi_cfg : s.raiseNmi.cfg = s.cfg := rfl
@[simp] theorem State.raiseNmi_blk : s.raiseNmi.blk = { s.blk with freezePending := true } := rfl
@[simp] theorem State.raiseNmi_env : s.raiseNmi.env = s.env := rfl
@[simp] theorem State.raiseNmi_out : s.raiseNmi.out = { s.out with events := s.out.events ++ [.nmiTrigger] } := rfl

@[simp] theorem State.call_cfg (k : EnvCall) : (s.call k).cfg = s.cfg := rfl
@[simp] theorem State.call_blk (k : EnvCall) : (s.call k).blk = s.blk := rfl
@[simp] theorem State.call_env (k : EnvCall) : (s.call k).env = s.env := rfl
@[simp] theorem State.call_out (k : EnvCall) : (s.call k).out = { s.out with calls := s.out.calls ++ [k] } := rfl

@[simp] theorem State.finish_cfg (r : Result) (v : OutValue) : (s.finish r v).cfg = s.cfg := rfl
@[simp] theorem State.finish_blk (r : Result) (v : OutValue) : (s.finish r v).blk = s.blk := rfl
@[simp] theorem State.finish_env (r : Result) (v : OutValue) : (s.finish r v).env = s.env := rfl
@[simp] theorem State.finish_out (r : Result) (v : OutValue) : (s.finish r v).out =
    { s.out with result := r, value := v, dOut := none, hit := none, validOut := none } := rfl

@[simp] theorem State.done_cfg : s.done.cfg = s.cfg := rfl
@[simp] theorem State.done_blk : s.done.blk = s.blk := rfl
@[simp] theorem State.done_env : s.done.env = s.env := rfl
@[simp] theorem State.done_out : s.done.out =
    { s.out with result := .ok, value := .none, dOut := none, hit := none, validOut := none } := rfl

@[simp] theorem State.raise_cfg (x : Result) : (s.raise x).cfg = s.cfg := rfl
@[simp] theorem State.raise_blk (x : Result) : (s.raise x).blk = s.blk := rfl
@[simp] theorem State.raise_env (x : Result) : (s.raise x).env = s.env := rfl
@[simp] theorem State.raise_out (x : Result) : (s.raise x).out =
    { s.out with result := x, value := .none, dOut := none, hit := none, validOut := none } := rfl

@[simp] theorem State.finishRead_cfg (d : Byte) (h : Option Hit) (v : Option Bool) : (s.finishRead d h v).cfg = s.cfg := rfl
@[simp] theorem State.finishRead_blk (d : Byte) (h : Option Hit) (v : Option Bool) : (s.finishRead d h v).blk = s.blk := rfl
@[simp] theorem State.finishRead_env (d : Byte) (h : Option Hit) (v : Option Bool) : (s.finishRead d h v).env = s.env := rfl
@[simp] theorem State.finishRead_out (d : Byte) (h : Option Hit) (v : Option Bool) : (s.finishRead d h v).out =
    { s.out with result := .ok, value := .none, dOut := some d, hit := h, validOut := v } := rfl

@[simp] theorem State.finishWrite_cfg (h : Option Hit) : (s.finishWrite h).cfg = s.cfg := rfl
@[simp] theorem State.finishWrite_blk (h : Option Hit) : (s.finishWrite h).blk = s.blk := rfl
@[simp] theorem State.finishWrite_env (h : Option Hit) : (s.finishWrite h).env = s.env := rfl
@[simp] theorem State.finishWrite_out (h : Option Hit) : (s.finishWrite h).out =
    { s.out with result := .ok, value := .none, dOut := none, hit := h, validOut := none } := rfl

@[simp] theorem State.sysPut_cfg (a : Addr) (v : Byte) : (s.sysPut a v).cfg = s.cfg := rfl
@[simp] theorem State.sysPut_blk (a : Addr) (v : Byte) : (s.sysPut a v).blk = s.blk := rfl
@[simp] theorem State.sysPut_env (a : Addr) (v : Byte) : (s.sysPut a v).env =
    { s.env with sys := s.env.sys.write a.toNat v } := rfl
@[simp] theorem State.sysPut_out (a : Addr) (v : Byte) : (s.sysPut a v).out =
    { s.out with calls := s.out.calls ++ [.sysWrite a v] } := rfl

@[simp] theorem State.touchRegister_cfg (ra : Addr) : (s.touchRegister ra).cfg = s.cfg := rfl
@[simp] theorem State.touchRegister_blk (ra : Addr) : (s.touchRegister ra).blk =
    { s.blk with page := if s.blk.enabled then maskPage s.cfg (perm3 ra).toNat else s.blk.page, valid := false } := rfl
@[simp] theorem State.touchRegister_env (ra : Addr) : (s.touchRegister ra).env = s.env := rfl
@[simp] theorem State.touchRegister_out (ra : Addr) : (s.touchRegister ra).out = s.out := rfl

@[simp] theorem State.putMem_cfg (m : Memory) (off : Nat) (v : Byte) : (s.putMem m off v).cfg = s.cfg := rfl
@[simp] theorem State.putMem_blk (m : Memory) (off : Nat) (v : Byte) : (s.putMem m off v).blk =
    { s.blk with mem := some (m.write off v) } := rfl
@[simp] theorem State.putMem_env (m : Memory) (off : Nat) (v : Byte) : (s.putMem m off v).env = s.env := rfl
@[simp] theorem State.putMem_out (m : Memory) (off : Nat) (v : Byte) : (s.putMem m off v).out = s.out := rfl

@[simp] theorem State.allocateAndRegister_cfg : s.allocateAndRegister.cfg = s.cfg := rfl
@[simp] theorem State.allocateAndRegister_blk : s.allocateAndRegister.blk =
    { s.blk with mem := some [], regIds := [s.blk.nextId, s.blk.nextId + 1], enabled := true,
                   page := pageAfterEnable s, nextId := s.blk.nextId + 1 + 1,
                   H := s.blk.H ++ [{ id := s.blk.nextId, desc := regDesc s.cfg }] ++
                     [{ id := s.blk.nextId + 1, desc := winDesc s.cfg }] } := rfl
@[simp] theorem State.allocateAndRegister_env : s.allocateAndRegister.env = s.env := rfl
@[simp] theorem State.allocateAndRegister_out : s.allocateAndRegister.out = s.out := rfl

@[simp] theorem State.loadContents_cfg (r : SnapshotRecord) : (s.loadContents r).cfg = s.cfg := rfl
@[simp] theorem State.loadContents_blk (r : SnapshotRecord) : (s.loadContents r).blk =
    { s.blk with page := maskPage s.cfg r.currentPage, valid := false,
                   mem := if s.blk.enabled then some (Memory.ofBytes r.rawMemory.bytes) else s.blk.mem } := rfl
@[simp] theorem State.loadContents_env (r : SnapshotRecord) : (s.loadContents r).env = s.env := rfl
@[simp] theorem State.loadContents_out (r : SnapshotRecord) : (s.loadContents r).out = s.out := rfl

@[simp] theorem State.advance_cfg (rest : List Word) : (s.advance rest).cfg = s.cfg := rfl
@[simp] theorem State.advance_blk (rest : List Word) : (s.advance rest).blk = s.blk := rfl
@[simp] theorem State.advance_env (rest : List Word) : (s.advance rest).env =
    { s.env with script := rest, pending := s.env.pending.tail, inp := nextInputs s } := rfl
@[simp] theorem State.advance_out (rest : List Word) : (s.advance rest).out = s.out := rfl

end Updates

/-! ### The updates with a condition: what they write in each case -/

section Conditional

variable (s : State)

@[simp] theorem State.releaseNmi_cfg : s.releaseNmi.cfg = s.cfg := by unfold State.releaseNmi; split <;> rfl

@[simp] theorem State.releaseNmi_env : s.releaseNmi.env = s.env := by unfold State.releaseNmi; split <;> rfl

/-- After a release nothing is pending, whether or not it had to release. -/
@[simp] theorem State.releaseNmi_blk : s.releaseNmi.blk = { s.blk with freezePending := false } := by
  unfold State.releaseNmi
  split
  · rfl
  · next h =>
    have hf : s.blk.freezePending = false := by simpa using h
    rw [← hf]

@[simp] theorem State.releaseNmi_out : s.releaseNmi.out =
    { s.out with events := s.out.events ++ if s.blk.freezePending then [.nmiRelease] else [] } := by
  unfold State.releaseNmi
  split
  · rfl
  · simp

@[simp] theorem State.revert_cfg : s.revert.cfg = s.cfg := by simp [State.revert]

@[simp] theorem State.revert_env : s.revert.env = s.env := by simp [State.revert]

@[simp] theorem State.revert_blk : s.revert.blk = { s.blk with cfgMapped := false, freezePending := false } := by
  simp [State.revert]

@[simp] theorem State.revert_out : s.revert.out =
    { s.out with events := s.out.events ++ .cfgReverted :: if s.blk.freezePending then [.nmiRelease] else [] } := by
  simp [State.revert]
  rfl

@[simp] theorem State.enablePath_cfg : s.enablePath.cfg = s.cfg := by
  unfold State.enablePath; dsimp only; split <;> simp

@[simp] theorem State.enablePath_env : s.enablePath.env = s.env := by
  unfold State.enablePath; dsimp only; split <;> simp

@[simp] theorem State.enablePath_blk : s.enablePath.blk =
    { s.allocateAndRegister.blk with cfgMapped := s.blk.switchOn || s.blk.cfgMapped } := by
  unfold State.enablePath
  dsimp only
  split
  · next h =>
    have hs : s.blk.switchOn = true := h
    simp [hs]
  · next h =>
    have hs : s.blk.switchOn = false := by simpa using h
    simp [hs]

@[simp] theorem State.enablePath_out : s.enablePath.out =
    { s.out with events := s.out.events ++ if s.blk.switchOn then [.cfgMapped] else [] } := by
  unfold State.enablePath
  dsimp only
  split
  · next h =>
    have hs : s.blk.switchOn = true := h
    simp [hs]
  · next h =>
    have hs : s.blk.switchOn = false := by simpa using h
    simp [hs]

end Conditional

end Sys2Proof.Machine
end

