-- ==== Sys2Proof/Laws/Registry.lean ====
section
/-! SUPPORT. The laws of the registry: what `newest` picks, and what unregistering and the lifecycle paths leave. -/

namespace Sys2Proof.Machine

theorem newest_eq_none {es : List Entry} : newest es = none ↔ es = [] := by
  cases es <;> simp [newest]

/-- `newest` picks an entry of the list, and no entry of the list has a larger id. -/
theorem newest_spec {es : List Entry} {e : Entry} (h : newest es = some e) : e ∈ es ∧ ∀ f ∈ es, f.id ≤ e.id := by
  induction es generalizing e with
  | nil => simp [newest] at h
  | cons d es ih =>
    simp only [newest, Option.some.injEq] at h
    cases hn : newest es with
    | none =>
      rw [hn] at h
      rw [newest_eq_none.1 hn]
      simp [newer] at h
      simp [h]
    | some g =>
      obtain ⟨hg, hmax⟩ := ih hn
      rw [hn] at h
      simp only [newer] at h
      split at h
      · next hle =>
        subst h
        refine ⟨List.mem_cons_self, fun f hf => ?_⟩
        rcases List.mem_cons.1 hf with rfl | hf
        · exact le_rfl
        · exact (hmax f hf).trans hle
      · next hlt =>
        subst h
        refine ⟨List.mem_cons_of_mem _ hg, fun f hf => ?_⟩
        rcases List.mem_cons.1 hf with rfl | hf
        · omega
        · exact hmax f hf

@[simp] theorem Block.register_eq (d : Descriptor) (b : Block) :
    b.register d = { b with H := b.H ++ [{ id := b.nextId, desc := d }], nextId := b.nextId + 1 } := rfl

/-- Unregistering a list of ids removes exactly the entries with one of them and keeps the order of the rest. -/
@[simp] theorem Block.unregisterAll_eq (ids : List Nat) (b : Block) :
    b.unregisterAll ids = { b with H := b.H.filter fun e => decide (e.id ∉ ids) } := by
  unfold Block.unregisterAll
  induction ids generalizing b with
  | nil => simp
  | cons i ids ih =>
    rw [List.foldl_cons, ih]
    simp [Block.unregister, List.filter_filter, Bool.and_comm]

@[simp] theorem State.unregisterAndFree_cfg (s : State) : s.unregisterAndFree.cfg = s.cfg := rfl

@[simp] theorem State.unregisterAndFree_env (s : State) : s.unregisterAndFree.env = s.env := rfl

@[simp] theorem State.unregisterAndFree_out (s : State) : s.unregisterAndFree.out = s.out := rfl

@[simp] theorem State.unregisterAndFree_blk (s : State) : s.unregisterAndFree.blk =
    { s.blk with H := s.blk.H.filter fun e => decide (e.id ∉ s.blk.regIds), regIds := [], mem := none,
                 enabled := false } := by
  simp [State.unregisterAndFree]

@[simp] theorem State.disablePath_cfg (s : State) : s.disablePath.cfg = s.cfg := by
  unfold State.disablePath; split <;> simp

@[simp] theorem State.disablePath_env (s : State) : s.disablePath.env = s.env := by
  unfold State.disablePath; split <;> simp

/-- The disable path of R162 whole: only with the switch on does it touch the configuration and the latch. -/
theorem State.disablePath_blk (s : State) : s.disablePath.blk =
    { s.blk with H := s.blk.H.filter fun e => decide (e.id ∉ s.blk.regIds), regIds := [], mem := none,
                 enabled := false,
                 cfgMapped := if s.blk.switchOn then false else s.blk.cfgMapped,
                 freezePending := if s.blk.switchOn then false else s.blk.freezePending } := by
  unfold State.disablePath
  split <;> simp [*]

theorem State.disablePath_out (s : State) : s.disablePath.out =
    { s.out with events := s.out.events ++
        if s.blk.switchOn then .cfgReverted :: (if s.blk.freezePending then [.nmiRelease] else []) else [] } := by
  unfold State.disablePath
  split <;> simp [*]

end Sys2Proof.Machine
end

