-- ==== Sys2Proof/Laws/Ops.lean ====
section
/-! SUPPORT. One lemma per shared operation that says everything it can do when it answers a next state. -/

namespace Sys2Proof.Machine

/-! ### The parameters and the operand forms -/

/-- Two ranges pass the test exactly when no address lies in both, empty ranges included. -/
theorem disjointRanges_iff (r q : Addr × Addr) :
    disjointRanges r q = true ↔ ∀ a, ¬(inRange r.1 r.2 a = true ∧ inRange q.1 q.2 a = true) := by
  simp only [disjointRanges, inRange, Bool.or_eq_true, Bool.and_eq_true, decide_eq_true_eq, BitVec.lt_def, BitVec.le_def]
  constructor
  · intro h a ha; omega
  · intro h
    have h1 := h r.1
    have h2 := h q.1
    omega

/-- What R8 (a), (b) say, in the form proofs use. -/
structure Geometry (c : Config) : Prop where
  tiles : c.pageCount * c.pageSize = c.memSize
  mask : c.pageMask.toNat = c.pageSize - 1
  count : c.pageCount = 2 ^ c.pageBits
  size : ∃ k, c.pageSize = 2 ^ k

theorem geometry_of_ok {c : Config} (h : paramsOk c = true) : Geometry c := by
  simp only [paramsOk, geometryOk, Bool.and_eq_true, decide_eq_true_eq, List.any_eq_true] at h
  obtain ⟨⟨⟨-, ⟨hc, hm, ht⟩, k, -, hk⟩, -⟩, -⟩ := h
  exact ⟨ht, hm, hc, k, hk⟩

theorem addrW_of_ok {c : Config} (h : paramsOk c = true) : c.addrW = 16 := by
  simp only [paramsOk, widthsOk, Bool.and_eq_true, decide_eq_true_eq] at h
  exact h.1.1.1.1

/-- A finite registry of a machine that meets R7 holds at least two entries. -/
theorem two_le_of_ok {c : Config} (h : paramsOk c = true) {k : Nat} (hk : c.nSlots = some k) : 2 ≤ k := by
  simp only [paramsOk, slotsOk, hk, Bool.and_eq_true, decide_eq_true_eq] at h
  exact h.2

theorem Geometry.pageCount_pos {c : Config} (g : Geometry c) : 0 < c.pageCount := by
  rw [g.count]; exact Nat.two_pow_pos _

theorem Geometry.pageSize_pos {c : Config} (g : Geometry c) : 0 < c.pageSize := by
  obtain ⟨k, hk⟩ := g.size; rw [hk]; exact Nat.two_pow_pos _

/-- The in-page part of an address is the remainder by PAGE_SIZE. -/
theorem Geometry.mask_and {c : Config} (g : Geometry c) (a : Addr) : (a &&& c.pageMask).toNat = a.toNat % c.pageSize := by
  obtain ⟨k, hk⟩ := g.size
  rw [BitVec.toNat_and, g.mask, hk]
  exact Nat.and_two_pow_sub_one_eq_mod a.toNat k

/-- Masking a page is the remainder by PAGE_COUNT. -/
theorem Geometry.maskPage_eq {c : Config} (g : Geometry c) (v : Nat) : maskPage c v = v % c.pageCount := by
  rw [maskPage, g.count]
  exact Nat.and_two_pow_sub_one_eq_mod v _

theorem Geometry.maskPage_lt {c : Config} (g : Geometry c) (v : Nat) : maskPage c v < c.pageCount := by
  rw [g.maskPage_eq]; exact Nat.mod_lt _ g.pageCount_pos

/-- The window offset of a page in range lies inside onboard memory. -/
theorem Geometry.windowOffset_lt {c : Config} (g : Geometry c) {p : Nat} (hp : p < c.pageCount) (a : Addr) :
    windowOffset c p a < c.memSize := by
  have hm : (a &&& c.pageMask).toNat < c.pageSize := by rw [g.mask_and]; exact Nat.mod_lt _ g.pageSize_pos
  calc windowOffset c p a < p * c.pageSize + c.pageSize := Nat.add_lt_add_left hm _
    _ = (p + 1) * c.pageSize := (Nat.succ_mul _ _).symm
    _ ≤ c.pageCount * c.pageSize := Nat.mul_le_mul_right _ hp
    _ = c.memSize := g.tiles

/-! ### The enable path -/

/-- What `ensureEnabled` can do: go on in an enabled state, go on after the enable path, or raise OutOfMemory. -/
theorem ensureEnabled_next {k : State → Step} {s t : State} (h : ensureEnabled k s = .next t) :
    (s.blk.enabled = true ∧ k s = .next t) ∨
    (s.blk.enabled = false ∧ s.env.inp.allocOk = true ∧ hasRoom s.cfg s.blk.H 2 = true ∧
      k (s.call .allocOk).enablePath = .next t) ∨
    (s.blk.enabled = false ∧ s.env.inp.allocOk = false ∧ t = (s.call .allocOk).raise .outOfMemory) := by
  unfold ensureEnabled at h
  split at h
  · next he => exact .inl ⟨he, h⟩
  · next he =>
    have he : s.blk.enabled = false := by simpa using he
    split at h
    · next ha =>
      split at h
      · next hr => exact .inr (.inl ⟨he, ha, hr, h⟩)
      · cases h
    · next ha =>
      cases h
      exact .inr (.inr ⟨he, by simpa using ha, rfl⟩)

/-- SNAPLOAD completes only for a typed record, and then as `loadRecord` says. -/
theorem snapload_next {s t : State} (h : exec .snapload s = .next t) :
    s.env.inp.record.typed s.cfg = true ∧ loadRecord s.env.inp.record s = .next t := by
  simp only [exec, execSnapload] at h
  split at h
  · exact ⟨‹_›, h⟩
  · cases h

/-! ### Bus cycles -/

/-- One byte of a memory is stored at `off`, or, with no `off`, the memory is as before. -/
def StoresAt (off : Option Nat) (m m' : Memory) : Prop :=
  match off with
  | none => m' = m
  | some o => ∃ v, m' = m.write o v

/-- The same of onboard memory, which may be absent. -/
def OnboardStoresAt (off : Option Nat) (m m' : Option Memory) : Prop :=
  match off with
  | none => m' = m
  | some o => ∃ k v, m = some k ∧ m' = some (k.write o v)

/-- The validity flag a row leaves (R23). -/
def validAfter (row : BusRow) (s : State) : Bool :=
  match row with
  | .window => s.windowOpen
  | .reg => false
  | _ => s.blk.valid

/-- The page a row leaves: only an enabled register range writes it. -/
def PageAfter (row : BusRow) (s : State) (page : Nat) : Prop :=
  page = s.blk.page ∨ (row = .reg ∧ s.blk.enabled = true ∧ ∃ v, page = maskPage s.cfg v)

/-- Everything a bus cycle does to the state, taken by the handler of `row`: it stores at `off` in onboard memory and at `adr` in
system memory, sets `valid`, may set `page`, and touches nothing else but the per-operation outputs and the calls. -/
structure BusFrame (row : BusRow) (off adr : Option Nat) (s t : State) : Prop where
  cfg : t.cfg = s.cfg
  blk : t.blk = { s.blk with page := t.blk.page, valid := t.blk.valid, mem := t.blk.mem }
  mem : OnboardStoresAt off s.blk.mem t.blk.mem
  env : t.env = { s.env with sys := t.env.sys }
  sys : StoresAt adr s.env.sys t.env.sys
  events : t.out.events = s.out.events
  result : t.out.result = .ok
  page : PageAfter row s t.blk.page
  valid : t.blk.valid = validAfter row s

theorem regReadVia_frame {d : Descriptor} {hit : Option Hit} {a : Addr} {s t : State}
    (h : regReadVia d hit a s = .next t) : BusFrame .reg none none s t := by
  cases h
  refine ⟨rfl, rfl, rfl, rfl, rfl, rfl, rfl, ?_, rfl⟩
  by_cases he : s.blk.enabled = true
  · exact .inr ⟨rfl, he, _, if_pos he⟩
  · exact .inl (if_neg he)

theorem regWriteVia_frame {d : Descriptor} {hit : Option Hit} {a : Addr} {s t : State}
    (h : regWriteVia d hit a s = .next t) : BusFrame .reg none none s t := by
  cases h
  refine ⟨rfl, rfl, rfl, rfl, rfl, rfl, rfl, ?_, rfl⟩
  by_cases he : s.blk.enabled = true
  · exact .inr ⟨rfl, he, _, if_pos he⟩
  · exact .inl (if_neg he)

theorem windowReadVia_frame {d : Descriptor} {hit : Option Hit} {a : Addr} {s t : State}
    (h : windowReadVia d hit a s = .next t) : BusFrame .window none none s t := by
  unfold windowReadVia at h
  split at h
  · next ho => split at h <;> cases h; exact ⟨rfl, rfl, rfl, rfl, rfl, rfl, rfl, .inl rfl, ho.symm⟩
  · next ho =>
    have ho : s.windowOpen = false := by simpa using ho
    cases h; exact ⟨rfl, rfl, rfl, rfl, rfl, rfl, rfl, .inl rfl, ho.symm⟩

/-- The offset a window write stores to. -/
def windowStore (d : Descriptor) (a : Addr) (s : State) : Option Nat :=
  if s.windowOpen then some (windowOffset s.cfg s.blk.page (reducedAddr d.mask a)) else none

theorem windowWriteVia_frame {d : Descriptor} {hit : Option Hit} {a : Addr} {v : Byte} {s t : State}
    (h : windowWriteVia d hit a v s = .next t) : BusFrame .window (windowStore d a s) none s t := by
  unfold windowWriteVia at h
  split at h
  · next ho =>
    split at h <;> cases h
    next m hm =>
      refine ⟨rfl, rfl, ?_, rfl, rfl, rfl, rfl, .inl rfl, ho.symm⟩
      rw [windowStore, if_pos ho]
      exact ⟨m, v, hm, rfl⟩
  · next ho =>
    cases h
    refine ⟨rfl, rfl, ?_, rfl, rfl, rfl, rfl, .inl rfl, ?_⟩
    · rw [windowStore, if_neg ho]; rfl
    · have ho : s.windowOpen = false := by simpa using ho
      exact ho.symm

theorem foreignReadVia_frame {e : Entry} {a : Addr} {s t : State} (h : foreignReadVia e a s = .next t) :
    BusFrame .foreign none none s t := by
  cases h; exact ⟨rfl, rfl, rfl, rfl, rfl, rfl, rfl, .inl rfl, rfl⟩

theorem foreignWriteVia_frame {e : Entry} {a : Addr} {v : Byte} {s t : State}
    (h : foreignWriteVia e a v s = .next t) : BusFrame .foreign none none s t := by
  cases h; exact ⟨rfl, rfl, rfl, rfl, rfl, rfl, rfl, .inl rfl, rfl⟩

/-- The rows below the registry leave `page` and `valid`. -/
def isFallRow : BusRow → Bool
  | .roml | .romh | .fb1 | .fb2 | .sys => true
  | .foreign | .reg | .window => false

theorem validAfter_fall {row : BusRow} (hr : isFallRow row = true) (s : State) : validAfter row s = s.blk.valid := by
  cases row <;> first | rfl | cases hr

theorem passRead_frame {row : BusRow} (hr : isFallRow row = true) {hit : Hit} {a : Addr} {s t : State}
    (h : passRead hit a s = .next t) : BusFrame row none none s t := by
  cases h; exact ⟨rfl, rfl, rfl, rfl, rfl, rfl, rfl, .inl rfl, (validAfter_fall hr s).symm⟩

theorem passWrite_frame {row : BusRow} (hr : isFallRow row = true) {hit : Hit} {a : Addr} {v : Byte} {s t : State}
    (h : passWrite hit a v s = .next t) : BusFrame row none (some a.toNat) s t := by
  cases h; exact ⟨rfl, rfl, rfl, rfl, ⟨v, rfl⟩, rfl, rfl, .inl rfl, (validAfter_fall hr s).symm⟩

theorem romhReadAt_frame {a : Addr} {s t : State} (h : romhReadAt a s = .next t) : BusFrame .romh none none s t := by
  unfold romhReadAt at h
  split at h
  · split at h <;> cases h
    exact ⟨rfl, rfl, rfl, rfl, rfl, rfl, rfl, .inl rfl, rfl⟩
  · exact passRead_frame rfl h

theorem romhWriteAt_frame {a : Addr} {v : Byte} {s t : State} (h : romhWriteAt a v s = .next t) :
    BusFrame .romh (rowOnboardStore .romh a s) (rowSystemStore .romh a s) s t := by
  unfold romhWriteAt at h
  split at h
  · next hr =>
    have hr : redirectsWrite s a = true := hr
    simp only [rowOnboardStore, rowSystemStore, if_pos hr]
    split at h <;> cases h
    next m hm => exact ⟨rfl, rfl, ⟨m, v, hm, rfl⟩, rfl, rfl, rfl, rfl, .inl rfl, rfl⟩
  · next hr =>
    have hr : ¬redirectsWrite s a = true := hr
    simp only [rowOnboardStore, rowSystemStore, if_neg hr]
    exact passWrite_frame rfl h

/-- A read cycle, whichever handler takes it. -/
theorem busRead_frame {a : Addr} {s t : State} (h : busRead a s = .next t) :
    BusFrame (busRow s.cfg (rowCond s a) a) none none s t := by
  unfold busRead at h
  unfold busRow
  cases hw : winner s a with
  | some e =>
    rw [hw] at h
    simp only [rowCond, hw, Option.map_some, entryRead] at h ⊢
    cases hr : e.desc.role <;> rw [hr] at h
    · exact regReadVia_frame h
    · exact windowReadVia_frame h
    · exact foreignReadVia_frame h
  | none =>
    rw [hw] at h
    simp only [rowCond, hw, Option.map_none, fallRead] at h ⊢
    split_ifs at h ⊢
    · exact passRead_frame rfl h
    · exact romhReadAt_frame h
    · exact passRead_frame rfl h
    · exact passRead_frame rfl h
    · exact passRead_frame rfl h

/-- A write cycle, whichever handler takes it. -/
theorem busWrite_frame {a : Addr} {v : Byte} {s t : State} (h : busWrite a v s = .next t) :
    BusFrame (busRow s.cfg (rowCond s a) a) (rowOnboardStore (busRow s.cfg (rowCond s a) a) a s)
      (rowSystemStore (busRow s.cfg (rowCond s a) a) a s) s t := by
  unfold busWrite at h
  unfold busRow
  cases hw : winner s a with
  | some e =>
    rw [hw] at h
    simp only [rowCond, hw, Option.map_some, entryWrite] at h ⊢
    cases hr : e.desc.role <;> rw [hr] at h
    · exact regWriteVia_frame h
    · have hc : (calledThrough .win (winDesc s.cfg) s a).1 = e.desc := by simp [calledThrough, hw, hr]
      simp only [Role.row, rowOnboardStore, rowSystemStore, hc]
      exact windowWriteVia_frame h
    · exact foreignWriteVia_frame h
  | none =>
    rw [hw] at h
    simp only [rowCond, hw, Option.map_none, fallWrite] at h ⊢
    split_ifs at h ⊢
    · exact passWrite_frame rfl h
    · exact romhWriteAt_frame h
    · exact passWrite_frame rfl h
    · exact passWrite_frame rfl h
    · exact passWrite_frame rfl h

/-- Every bus cycle, class row or handler row: the row it takes, and the places it stores to. -/
theorem bus_frame {i : Instr} {s t : State} (hi : isBusCycle i = true) (h : exec i s = .next t) :
    ∃ row a, rowTaken s i = some (row, a) ∧ BusFrame row (onboardStore s i) (systemStore s i) s t := by
  cases i <;> first | cases hi | skip
  case foreignWrite a v =>
    refine ⟨_, a, rfl, ?_⟩
    show BusFrame _ (rowOnboardStore _ a s) (rowSystemStore _ a s) s t
    simp only [exec, execForeignWrite] at h
    split at h
    · next e hw =>
      split at h
      · next hr =>
        have hb : busRow s.cfg (rowCond s a) a = .foreign := by simp [busRow, rowCond, hw, hr, Role.row]
        rw [hb]; exact foreignWriteVia_frame h
      · exact busWrite_frame h
    · exact busWrite_frame h
  case foreignRead a =>
    refine ⟨_, a, rfl, ?_⟩
    simp only [exec, execForeignRead] at h
    split at h
    · next e hw =>
      split at h
      · next hr =>
        have hb : busRow s.cfg (rowCond s a) a = .foreign := by simp [busRow, rowCond, hw, hr, Role.row]
        rw [hb]; exact foreignReadVia_frame h
      · exact busRead_frame h
    · exact busRead_frame h
  case regWrite a v => exact ⟨_, a, rfl, regWriteVia_frame h⟩
  case regRead a => exact ⟨_, a, rfl, regReadVia_frame h⟩
  case windowWrite a v => exact ⟨_, a, rfl, windowWriteVia_frame h⟩
  case windowRead a => exact ⟨_, a, rfl, windowReadVia_frame h⟩
  case romlWrite a v => exact ⟨_, a, rfl, passWrite_frame rfl h⟩
  case romlRead a => exact ⟨_, a, rfl, passRead_frame rfl h⟩
  case romhWrite a v => exact ⟨_, a, rfl, romhWriteAt_frame h⟩
  case romhRead a => exact ⟨_, a, rfl, romhReadAt_frame h⟩
  case fb1Write a v => exact ⟨_, a, rfl, passWrite_frame rfl h⟩
  case fb1Read a => exact ⟨_, a, rfl, passRead_frame rfl h⟩
  case fb2Write a v => exact ⟨_, a, rfl, passWrite_frame rfl h⟩
  case fb2Read a => exact ⟨_, a, rfl, passRead_frame rfl h⟩
  case sysWrite a v => exact ⟨_, a, rfl, passWrite_frame rfl h⟩
  case sysRead a => exact ⟨_, a, rfl, passRead_frame rfl h⟩
  case buswr a v => exact ⟨_, a, rfl, busWrite_frame h⟩
  case busrd a => exact ⟨_, a, rfl, busRead_frame h⟩

/-- The window handlers' memory access completes wherever INV2 holds. -/
theorem mem_of_windowOpen {s : State} (hp : s.blk.memPresent = true) (h : s.windowOpen = true) :
    ∃ m, s.blk.mem = some m := by
  simp only [State.windowOpen, Bool.and_eq_true] at h
  simp only [Block.memPresent, h.1, beq_iff_eq] at hp
  exact Option.isSome_iff_exists.1 hp

end Sys2Proof.Machine
end

