-- ==== Sys2Proof/Laws/PerInstr.lean ====
section
/-! SUPPORT. The family `Encoding`, one lemma per operation: an operation has the words of its class row, and as many of
them as the length rule R88 reads from the first. -/

namespace Sys2Proof.Laws.Encoding

open Sys2Proof

/-- What every operation's encoding satisfies (R82, R88). -/
def Statement (i : Instr) : Prop :=
  encode i.classRow = encode i ∧ ∃ w ws, encode i = w :: ws ∧ (encode i).length = opLength w

/-- A one-word operation whose `op` is not HREG's. -/
theorem single {i : Instr} {w : Word} (hc : encode i.classRow = encode i) (h : encode i = [w]) (hw : opOf w ≠ 0x5#4) :
    Statement i := ⟨hc, w, [], h, by simp [h, opLength, hw]⟩

theorem foreignWrite (a : Addr) (d : Byte) : Statement (.foreignWrite a d) := single rfl rfl (by simp)

theorem foreignRead (a : Addr) : Statement (.foreignRead a) := single rfl rfl (by simp)

theorem regWrite (a : Addr) (d : Byte) : Statement (.regWrite a d) := single rfl rfl (by simp)

theorem regRead (a : Addr) : Statement (.regRead a) := single rfl rfl (by simp)

theorem windowWrite (a : Addr) (d : Byte) : Statement (.windowWrite a d) := single rfl rfl (by simp)

theorem windowRead (a : Addr) : Statement (.windowRead a) := single rfl rfl (by simp)

theorem romlWrite (a : Addr) (d : Byte) : Statement (.romlWrite a d) := single rfl rfl (by simp)

theorem romlRead (a : Addr) : Statement (.romlRead a) := single rfl rfl (by simp)

theorem romhWrite (a : Addr) (d : Byte) : Statement (.romhWrite a d) := single rfl rfl (by simp)

theorem romhRead (a : Addr) : Statement (.romhRead a) := single rfl rfl (by simp)

theorem fb1Write (a : Addr) (d : Byte) : Statement (.fb1Write a d) := single rfl rfl (by simp)

theorem fb1Read (a : Addr) : Statement (.fb1Read a) := single rfl rfl (by simp)

theorem fb2Write (a : Addr) (d : Byte) : Statement (.fb2Write a d) := single rfl rfl (by simp)

theorem fb2Read (a : Addr) : Statement (.fb2Read a) := single rfl rfl (by simp)

theorem sysWrite (a : Addr) (d : Byte) : Statement (.sysWrite a d) := single rfl rfl (by simp)

theorem sysRead (a : Addr) : Statement (.sysRead a) := single rfl rfl (by simp)

theorem seten (b : Bool) : Statement (.seten b) := single rfl rfl (by simp)

theorem setsw (b : Bool) : Statement (.setsw b) := single rfl rfl (by simp)

theorem getresEnabled : Statement .getresEnabled := single rfl rfl (by simp)

theorem getresSwitchOn : Statement .getresSwitchOn := single rfl rfl (by simp)

theorem getresMode : Statement .getresMode := single rfl rfl (by simp)

theorem hreg (desc : Descriptor) : Statement (.hreg desc) :=
  ⟨rfl, hregWord0 desc, _, rfl, by simp [encode, hregWords_eq, opLength]⟩

theorem hunreg (id : BitVec 24) : Statement (.hunreg id) := single rfl rfl (by simp)

theorem dispatch (a : Addr) (k : AccessKind) : Statement (.dispatch a k) := single rfl rfl (by simp)

theorem snapsave : Statement .snapsave := single rfl rfl (by simp)

theorem snapload : Statement .snapload := single rfl rfl (by simp)

theorem attach (m : ModelId) : Statement (.attach m) := single rfl rfl (by simp)

theorem detach : Statement .detach := single rfl rfl (by simp)

theorem setdef : Statement .setdef := single rfl rfl (by simp)

theorem setmode (v : Byte) : Statement (.setmode v) := single rfl rfl (by simp)

theorem reservedE (rest : BitVec 28) : Statement (.reservedE rest) := by
  refine single rfl rfl ?_
  have h : opOf (0xE#4 ++ rest) = 0xE#4 := by
    unfold opOf
    rw [BitVec.extractLsb'_append_eq_of_le (by decide)]
    simp
  rw [h]
  decide

theorem reset : Statement .reset := single rfl rfl (by simp)

theorem buswr (a : Addr) (d : Byte) : Statement (.buswr a d) := single rfl rfl (by simp)

theorem busrd (a : Addr) : Statement (.busrd a) := single rfl rfl (by simp)

end Sys2Proof.Laws.Encoding
end

