-- ==== Sys2Proof/Tests/Slice0.lean ====
section
/-! SUPPORT. Tests of the model against the vectors of 95_test_vectors.md and the bit patterns of 30_encoding.md, the
smoke test of `Instr.wf`, and the states that meet the hypotheses of the statements. -/

namespace Sys2Proof.Tests

open Sys2Proof Sys2Proof.Machine

/-! ### Helpers -/

/-- The outcome is a next state with the property. -/
def nextHas (r : Step) (p : State → Bool) : Bool :=
  match r with
  | .next t => p t
  | .fault _ => false
  | .refused _ => false

/-- The outcome is this refusal. -/
def refusedBy (r : Step) (why : Refusal) : Bool :=
  match r with
  | .next _ => false
  | .fault _ => false
  | .refused w => decide (w = why)

/-- The decoder reads this operation and leaves no word. -/
def reads (r : Except DecodeError (Instr × List Word)) (i : Instr) : Bool :=
  match r with
  | .ok (j, rest) => decide (j = i) && rest.isEmpty
  | .error _ => false

/-- The decoder refuses with this reason. -/
def refuses (r : Except DecodeError (Instr × List Word)) (why : DecodeError) : Bool :=
  match r with
  | .ok _ => false
  | .error w => decide (w = why)

/-- After `RESET; SETEN 1`: `H` = [0 REG, 1 WIN], memory of zeros. -/
def hidden : State :=
  { State.reset with blk := { Block.reset with enabled := true, mem := some [], regIds := [0, 1], nextId := 2,
                                               H := [⟨0, regDesc .canonical⟩, ⟨1, winDesc .canonical⟩] } }

/-- The same with page 2 and `mem[0x210] = 0x77`: the state of section 2.6, switch off. -/
def hidden2 : State := { hidden with blk := { hidden.blk with page := 2, mem := some [(0x210, 0x77#8)] } }

/-- The state of section 2.6 with the switch on and a freeze pending. -/
def mapped2 : State :=
  { hidden2 with blk := { hidden2.blk with switchOn := true, cfgMapped := true, freezePending := true } }

/-- The switch was on before the enable: nothing pending. -/
def mappedQuiet : State := { mapped2 with blk := { mapped2.blk with freezePending := false } }

/-- Disabled, the switch on. -/
def switchOnly : State := { State.reset with blk := { Block.reset with switchOn := true } }

def withScript (s : State) (ws : List Word) : State := { s with env := { s.env with script := ws } }
def withSys (s : State) (m : Memory) : State := { s with env := { s.env with sys := m } }
def withInp (s : State) (inp : Inputs) : State := { s with env := { s.env with inp := inp } }
def withEntries (s : State) (es : List Entry) : State := { s with blk := { s.blk with H := s.blk.H ++ es } }
def noAlloc (s : State) : State := withInp s { s.env.inp with allocOk := false }
def fullRegistry (s : State) : State := { s with cfg := { s.cfg with nSlots := some s.blk.H.length } }

/-- The descriptor of `HREG owner,2,excl,rc,base,end,mask`. -/
def foreign (owner : OwnerId) (excl : Bool) (base endAddr mask : Addr) : Descriptor :=
  { base := base, endAddr := endAddr, mask := mask, readCapable := true, ownerId := owner, exclusive := excl,
    role := .foreign }

/-- P3 line 3: a FOREIGN entry over the start of the register range. -/
def foreign7 : State := withEntries hidden [⟨2, foreign 7#8 false 0xDE00#16 0xDE0F#16 0x000F#16⟩]

/-- Section 2.2 rows 14 and 15. -/
def overlap : State :=
  withEntries hidden [⟨3, foreign 9#8 true 0xDF00#16 0xDF7F#16 0x007F#16⟩, ⟨4, foreign 8#8 false 0xDF00#16 0xDFFF#16 0x00FF#16⟩]

/-- A record whose memory is one byte `b` everywhere. -/
def recordOf (version : Nat) (en sw : Bool) (page : Nat) (b : Byte) : SnapshotRecord :=
  { formatVersion := version, enabled := en, switchOn := sw, currentPage := page,
    rawMemory := ⟨2048, List.replicate 2048 b, List.length_replicate⟩ }

def loading (s : State) (r : SnapshotRecord) : State := withInp s { s.env.inp with record := r }
def attaching (s : State) (img : Option (List Byte)) : State := withInp s { s.env.inp with image := img }

/-! ### WellFormed: an ill-formed term for each check -/

theorem test_wf_romlWrite : Instr.wf .canonical (.romlWrite 0x7FFF#16 0#8) = false := by decide
theorem test_wf_romlRead : Instr.wf .canonical (.romlRead 0xA000#16) = false := by decide
theorem test_wf_romhWrite : Instr.wf .canonical (.romhWrite 0xDFFF#16 0#8) = false := by decide
theorem test_wf_romhRead : Instr.wf .canonical (.romhRead 0x0000#16) = false := by decide
theorem test_wf_fb1Write : Instr.wf .canonical (.fb1Write 0x0FFF#16 0#8) = false := by decide
theorem test_wf_fb1Read : Instr.wf .canonical (.fb1Read 0x8000#16) = false := by decide
theorem test_wf_fb2Write : Instr.wf .canonical (.fb2Write 0xC000#16 0#8) = false := by decide
theorem test_wf_fb2Read : Instr.wf .canonical (.fb2Read 0x9FFF#16) = false := by decide
theorem test_wf_reservedE : Instr.wf .canonical (.reservedE 0#28) = false := by decide

/-! ### Decoding: a word written from R80, R84, R87, R92 for every constructor -/

theorem test_decode_buswr : reads (decodeOp [0x00DF1042#32]) (.buswr 0xDF10#16 0x42#8) = true := by decide
theorem test_decode_busrd : reads (decodeOp [0x10DE2D00#32]) (.busrd 0xDE2D#16) = true := by decide
/-- `0001 ... xxxxxxxx`: the data field of a read is ignored. -/
theorem test_decode_busrd_data : reads (decodeOp [0x10DE2DFF#32]) (.busrd 0xDE2D#16) = true := by decide
theorem test_decode_seten : reads (decodeOp [0x20000001#32]) (.seten true) = true := by decide
theorem test_decode_setsw : reads (decodeOp [0x30000000#32]) (.setsw false) = true := by decide
theorem test_decode_getresEnabled : reads (decodeOp [0x40000000#32]) .getresEnabled = true := by decide
theorem test_decode_getresSwitchOn : reads (decodeOp [0x40000001#32]) .getresSwitchOn = true := by decide
theorem test_decode_getresMode : reads (decodeOp [0x40000002#32]) .getresMode = true := by decide
/-- P3 line 13: owner 9, FOREIGN, exclusive, readCapable. -/
theorem test_decode_hreg : reads (decodeOp [0x5009000B#32, 0xDF00DF7F#32, 0x0000007F#32])
    (.hreg (foreign 9#8 true 0xDF00#16 0xDF7F#16 0x007F#16)) = true := by decide
theorem test_decode_hunreg : reads (decodeOp [0x60ABCDEF#32]) (.hunreg 0xABCDEF#24) = true := by decide
theorem test_decode_dispatch_read : reads (decodeOp [0x70DE0501#32]) (.dispatch 0xDE05#16 .read) = true := by decide
theorem test_decode_dispatch_write : reads (decodeOp [0x70D00000#32]) (.dispatch 0xD000#16 .write) = true := by decide
theorem test_decode_snapsave : reads (decodeOp [0x80000000#32]) .snapsave = true := by decide
theorem test_decode_snapload : reads (decodeOp [0x90000000#32]) .snapload = true := by decide
theorem test_decode_attach : reads (decodeOp [0xA0000005#32]) (.attach 5#8) = true := by decide
theorem test_decode_detach : reads (decodeOp [0xB0000000#32]) .detach = true := by decide
theorem test_decode_setdef : reads (decodeOp [0xC0000000#32]) .setdef = true := by decide
theorem test_decode_setmode : reads (decodeOp [0xD0000001#32]) (.setmode 1#8) = true := by decide
theorem test_decode_reset : reads (decodeOp [0xF0000000#32]) .reset = true := by decide

/-- The handler rows, by the state the words are decoded in (R83, R84). -/
theorem test_decode_regWrite : reads (nextOp (withScript hidden [0x00DE0500#32])) (.regWrite 0xDE05#16 0x00#8) = true := by decide
theorem test_decode_regRead : reads (nextOp (withScript hidden [0x10DE2D00#32])) (.regRead 0xDE2D#16) = true := by decide
theorem test_decode_windowWrite :
    reads (nextOp (withScript hidden [0x00DF1042#32])) (.windowWrite 0xDF10#16 0x42#8) = true := by decide
theorem test_decode_windowRead : reads (nextOp (withScript hidden [0x10DFFF00#32])) (.windowRead 0xDFFF#16) = true := by decide
theorem test_decode_romlWrite :
    reads (nextOp (withScript mapped2 [0x00800022#32])) (.romlWrite 0x8000#16 0x22#8) = true := by decide
theorem test_decode_romlRead : reads (nextOp (withScript mapped2 [0x109FFF00#32])) (.romlRead 0x9FFF#16) = true := by decide
theorem test_decode_romhWrite :
    reads (nextOp (withScript mapped2 [0x00FFFA56#32])) (.romhWrite 0xFFFA#16 0x56#8) = true := by decide
theorem test_decode_romhRead : reads (nextOp (withScript mapped2 [0x10E00000#32])) (.romhRead 0xE000#16) = true := by decide
theorem test_decode_fb1Write :
    reads (nextOp (withScript mapped2 [0x007FFF01#32])) (.fb1Write 0x7FFF#16 0x01#8) = true := by decide
theorem test_decode_fb1Read : reads (nextOp (withScript mapped2 [0x10100000#32])) (.fb1Read 0x1000#16) = true := by decide
theorem test_decode_fb2Write :
    reads (nextOp (withScript mapped2 [0x00A00002#32])) (.fb2Write 0xA000#16 0x02#8) = true := by decide
theorem test_decode_fb2Read : reads (nextOp (withScript mapped2 [0x10BFFF00#32])) (.fb2Read 0xBFFF#16) = true := by decide
theorem test_decode_sysWrite :
    reads (nextOp (withScript State.reset [0x00DF1042#32])) (.sysWrite 0xDF10#16 0x42#8) = true := by decide
theorem test_decode_sysRead : reads (nextOp (withScript mapped2 [0x10D00000#32])) (.sysRead 0xD000#16) = true := by decide
/-- With the switch off no fall-through row is in the path (R89). -/
theorem test_decode_hidden_romh : reads (nextOp (withScript hidden [0x10FFFA00#32])) (.sysRead 0xFFFA#16) = true := by decide
theorem test_decode_foreignWrite :
    reads (nextOp (withScript foreign7 [0x00DE0C11#32])) (.foreignWrite 0xDE0C#16 0x11#8) = true := by decide
theorem test_decode_foreignRead : reads (nextOp (withScript foreign7 [0x10DE0500#32])) (.foreignRead 0xDE05#16) = true := by decide
theorem test_decode_past_foreign : reads (nextOp (withScript foreign7 [0x10DE1500#32])) (.regRead 0xDE15#16) = true := by decide

/-- The reserved encodings of R90, words of section 2.1 among them. -/
theorem test_refuse_op : refuses (decodeOp [0xE0000000#32]) .reservedOp = true := by decide
theorem test_refuse_z : refuses (decodeOp [0x11DF1000#32]) .reservedZ = true := by decide
theorem test_refuse_seten : refuses (decodeOp [0x20000003#32]) .reservedBits = true := by decide
theorem test_refuse_getres : refuses (decodeOp [0x40000003#32]) .reservedSelector = true := by decide
theorem test_refuse_dispatch : refuses (decodeOp [0x70DE0502#32]) .reservedBits = true := by decide
theorem test_refuse_attach : refuses (decodeOp [0xA0000100#32]) .reservedBits = true := by decide
theorem test_refuse_plain : refuses (decodeOp [0xF0000001#32]) .reservedBits = true := by decide
theorem test_refuse_role : refuses (decodeOp [0x5007000D#32, 0#32, 0#32]) .reservedRole = true := by decide
theorem test_refuse_hreg_bits : refuses (decodeOp [0x50070011#32, 0#32, 0#32]) .reservedBits = true := by decide
theorem test_refuse_upper : refuses (decodeOp [0x50070009#32, 0#32, 0x00010000#32]) .reservedUpper = true := by decide
theorem test_refuse_truncated : refuses (decodeOp [0x50070009#32, 0#32]) .truncated = true := by decide
/-- A reserved word is refused by the step as well (R90: "refuse them"). -/
theorem test_step_reserved :
    refusedBy (step (withScript hidden [0xE0000000#32])) (.reservedEncoding .reservedOp) = true := by decide

/-- The host's reading of one row's word, and one step on it after reset. -/
theorem test_table_hreg :
    decodeTableWord 96 0x0000000FDE00DE0F50070009 = some (.hreg (foreign 7#8 false 0xDE00#16 0xDE0F#16 0x000F#16)) := by decide
theorem test_table_step :
    nextHas (step (State.reset.withFetchWord 32 0x20000001)) (fun t => t.blk.enabled && t.env.script.isEmpty) = true := by
  decide

/-! ### Parameters other than the canonical ones (R7, R8, U5) -/

/-- A build with four pages of 128 bytes. -/
def small : Config := { Config.canonical with pageCount := 4, pageBits := 2, memSize := 512, pageSize := 128, pageMask := 0x007F#16 }

theorem test_params_small : paramsOk small = true := by decide
/-- R8 (a), (b), (c), (d), (e), the widths of the word, and "at least 2" of N_SLOTS. -/
theorem test_params_bad :
    paramsOk { small with pageBits := 3 } = false ∧ paramsOk { small with memSize := 2048 } = false ∧
    paramsOk { small with winBase := 0xDE80#16 } = false ∧ paramsOk { small with vecHi := 0xDFFF#16 } = false ∧
    paramsOk { small with regBase := 0xDE01#16 } = false ∧ paramsOk { small with addrW := 20 } = false ∧
    paramsOk { small with nSlots := some 1 } = false := by decide
/-- An empty range shares no address with the range around it (log 29); one address shared is too many. -/
theorem test_params_empty_range :
    paramsOk { small with fb1Base := 0x9000#16, fb1End := 0x8FFF#16 } = true ∧
    paramsOk { small with fb1Base := 0x9000#16, fb1End := 0x9000#16 } = false := by decide
/-- R134 with PAGE_COUNT = 4: `perm3(0xDE05)` = 5 is stored as 1, and 1 * 128 + (0xDFFF & 0x7F) = 255. -/
theorem test_page_small : nextHas (exec (.regRead 0xDE05#16) { hidden with cfg := small }) (fun t =>
    decide (t.blk.page = 1 ∧ windowOffset small t.blk.page 0xDFFF#16 = 255)) = true := by decide
/-- A record of the canonical size is none of this build's. -/
theorem test_snapload_illtyped : refusedBy (exec .snapload (loading { hidden with cfg := small } (recordOf 1 true true 0 0#8)))
    .illTypedRecord = true := by decide
theorem test_step_params : refusedBy (step { hidden with cfg := { small with memSize := 2048 } }) .parametersOutsideR8 = true := by
  decide

/-! ### One step of each operation -/

/-- P3 line 6: FOREIGN owner 7, ra = 5, answered with the owner's id, `page` as before. -/
theorem test_foreignRead : nextHas (exec (.foreignRead 0xDE05#16) foreign7) (fun t =>
    decide (t.out.dOut = some 0x07#8 ∧ t.out.validOut = some true ∧ t.out.hit = some (.entry 2) ∧ t.blk = foreign7.blk)) = true := by
  decide
/-- P3 line 8: the reduced address of 0xDE0C is 0x000C under mask 0x000F. -/
theorem test_foreignRead_ra : nextHas (exec (.foreignRead 0xDE0C#16) foreign7) (fun t =>
    decide (t.out.calls = [.foreignRead 7#8 0x000C#16])) = true := by decide
theorem test_foreignWrite : nextHas (exec (.foreignWrite 0xDE0C#16 0x11#8) foreign7) (fun t =>
    decide (t.out.calls = [.foreignWrite 7#8 0x000C#16 0x11#8] ∧ t.blk = foreign7.blk ∧ t.env.sys = [])) = true := by decide
/-- Section 2.6: `WR $DE03,$00` selects page 6, not 3. -/
theorem test_regWrite : nextHas (exec (.regWrite 0xDE03#16 0x00#8) mapped2) (fun t =>
    decide (t.blk = { mapped2.blk with page := 6, valid := false })) = true := by decide
/-- Section 2.6: the byte 0xFF is stored nowhere. -/
theorem test_regWrite_data : nextHas (exec (.regWrite 0xDE01#16 0xFF#8) hidden2) (fun t =>
    decide (t.blk = { hidden2.blk with page := 4 } ∧ t.env.sys = [])) = true := by decide
/-- R180: `RD $DE2D` sets page 5, returns 0x00, VALID 0. -/
theorem test_regRead : nextHas (exec (.regRead 0xDE2D#16) hidden) (fun t =>
    decide (t.blk.page = 5 ∧ t.out.dOut = some 0x00#8 ∧ t.out.validOut = some false ∧ t.out.hit = some (.entry 0))) = true := by
  decide
/-- R193: called with `enabled` = 0 the page is kept. -/
theorem test_regRead_disabled : nextHas (exec (.regRead 0xDE2D#16) switchOnly) (fun t =>
    decide (t.blk = switchOnly.blk ∧ t.out.dOut = some 0x00#8)) = true := by decide
/-- Section 2.6, switch on and off. -/
theorem test_windowWrite : nextHas (exec (.windowWrite 0xDF10#16 0x88#8) mapped2) (fun t =>
    decide (t.blk = { mapped2.blk with mem := some [(0x210, 0x88#8)], valid := true })) = true := by decide +kernel
theorem test_windowWrite_hidden : nextHas (exec (.windowWrite 0xDF10#16 0x88#8) hidden2) (fun t =>
    decide (t.blk = hidden2.blk ∧ t.env.sys = [])) = true := by decide
theorem test_windowRead : nextHas (exec (.windowRead 0xDF10#16) mapped2) (fun t =>
    decide (t.out.dOut = some 0x77#8 ∧ t.out.validOut = some true ∧ t.blk = { mapped2.blk with valid := true })) = true := by decide
theorem test_windowRead_hidden : nextHas (exec (.windowRead 0xDF10#16) hidden2) (fun t =>
    decide (t.out.dOut = some 0x00#8 ∧ t.out.validOut = some false ∧ t.blk = hidden2.blk)) = true := by decide
/-- R185: `WR $8000,$22` sets `sys[0x8000] = 0x22`. -/
theorem test_romlWrite : nextHas (exec (.romlWrite 0x8000#16 0x22#8) mapped2) (fun t =>
    decide (t.env.sys = [(0x8000, 0x22#8)] ∧ t.blk = mapped2.blk ∧ t.out.hit = some .roml)) = true := by decide
/-- R184: with `sys[0x8000] = 0x11`, `RD $8000` returns 0x11. -/
theorem test_romlRead : nextHas (exec (.romlRead 0x8000#16) (withSys mapped2 [(0x8000, 0x11#8)])) (fun t =>
    decide (t.out.dOut = some 0x11#8 ∧ t.out.validOut = none)) = true := by decide
/-- Section 2.6: `WR $FFFB,$9A` is redirected, `WR $E000,$9A` is not. -/
theorem test_romhWrite_vector : nextHas (exec (.romhWrite 0xFFFB#16 0x9A#8) mapped2) (fun t =>
    decide (t.blk.mem = some [(0x210, 0x77#8), (0x2FB, 0x9A#8)] ∧ t.env.sys = [])) = true := by decide
theorem test_romhWrite : nextHas (exec (.romhWrite 0xE000#16 0x9A#8) mapped2) (fun t =>
    decide (t.blk = mapped2.blk ∧ t.env.sys = [(0xE000, 0x9A#8)])) = true := by decide
/-- R186: with page 3, `mem[0x3FA] = 0x34`: `RD $FFFA` returns 0x34. -/
theorem test_romhRead_vector : nextHas (exec (.romhRead 0xFFFA#16)
    { mapped2 with blk := { mapped2.blk with page := 3, mem := some [(0x3FA, 0x34#8), (0x3FB, 0x12#8)] } }) (fun t =>
    decide (t.out.dOut = some 0x34#8 ∧ t.out.validOut = none)) = true := by decide
/-- R186: `RD $FFFC` returns `sys[0xFFFC]`. -/
theorem test_romhRead : nextHas (exec (.romhRead 0xFFFC#16) (withSys mapped2 [(0xFFFC, 0x33#8)])) (fun t =>
    decide (t.out.dOut = some 0x33#8 ∧ t.out.hit = some .romh)) = true := by decide
theorem test_fb1Write : nextHas (exec (.fb1Write 0x4000#16 0x05#8) mapped2) (fun t =>
    decide (t.env.sys = [(0x4000, 0x05#8)] ∧ t.out.hit = some .fb1)) = true := by decide
theorem test_fb1Read : nextHas (exec (.fb1Read 0x4000#16) (withSys mapped2 [(0x4000, 0x06#8)])) (fun t =>
    decide (t.out.dOut = some 0x06#8 ∧ t.blk = mapped2.blk)) = true := by decide
theorem test_fb2Write : nextHas (exec (.fb2Write 0xA000#16 0x07#8) mapped2) (fun t =>
    decide (t.env.sys = [(0xA000, 0x07#8)] ∧ t.out.hit = some .fb2)) = true := by decide
theorem test_fb2Read : nextHas (exec (.fb2Read 0xA000#16) (withSys mapped2 [(0xA000, 0x08#8)])) (fun t =>
    decide (t.out.dOut = some 0x08#8 ∧ t.blk = mapped2.blk)) = true := by decide
/-- R117: after RESET, `WR $DF10,$42` sets `sys[0xDF10]` and leaves the block untouched. -/
theorem test_sysWrite : nextHas (exec (.sysWrite 0xDF10#16 0x42#8) State.reset) (fun t =>
    decide (t.env.sys = [(0xDF10, 0x42#8)] ∧ t.blk = Block.reset ∧ t.out.hit = some .none)) = true := by decide
/-- R116: after RESET with `sys[0xDE05] = 0x99`, `RD $DE05` returns 0x99 and `page` stays 0. -/
theorem test_sysRead : nextHas (exec (.sysRead 0xDE05#16) (withSys State.reset [(0xDE05, 0x99#8)])) (fun t =>
    decide (t.out.dOut = some 0x99#8 ∧ t.blk = Block.reset)) = true := by decide
/-- Section 2.5: SETEN 1 after RESET, and with `AllocOK` false. -/
theorem test_seten : nextHas (exec (.seten true) State.reset) (fun t => decide (t.blk = hidden.blk ∧ t.out.events = [])) = true := by
  decide
theorem test_seten_refused : nextHas (exec (.seten true) (noAlloc State.reset)) (fun t =>
    decide (t.blk = Block.reset ∧ t.out.result = .outOfMemory)) = true := by decide
/-- Section 2.4: 1,0,0 SETSW 1, and 1,1,0 SETSW 0. -/
theorem test_setsw_on : nextHas (exec (.setsw true) hidden2) (fun t =>
    decide (t.blk = mapped2.blk ∧ t.out.events = [.cfgMapped, .nmiTrigger])) = true := by decide
theorem test_setsw_off : nextHas (exec (.setsw false) mappedQuiet) (fun t =>
    decide (t.blk = hidden2.blk ∧ t.out.events = [.cfgReverted])) = true := by decide
theorem test_getresEnabled : nextHas (exec .getresEnabled hidden) (fun t => decide (t.out.value = .bit true)) = true := by decide
/-- R149: after `SETSW 1` while Disabled, `GETRES 1` returns 1. -/
theorem test_getresSwitchOn : nextHas (exec .getresSwitchOn switchOnly) (fun t => decide (t.out.value = .bit true)) = true := by
  decide
theorem test_getresMode : refusedBy (exec .getresMode hidden) .noModeResource = true := by decide
/-- P3 line 3: the id is 2. -/
theorem test_hreg : nextHas (exec (.hreg (foreign 7#8 false 0xDE00#16 0xDE0F#16 0x000F#16)) hidden) (fun t =>
    decide (t.out.value = .handlerId 2 ∧ t.blk = { foreign7.blk with nextId := 3 })) = true := by decide
/-- P3 line 10: the rest keeps its order. -/
theorem test_hunreg : nextHas (exec (.hunreg 2#24) foreign7) (fun t => decide (t.blk = hidden.blk)) = true := by decide
/-- Section 2.2 row 14: exclusive beats newer non-exclusive. -/
theorem test_dispatch_exclusive : nextHas (exec (.dispatch 0xDF10#16 .read) overlap) (fun t =>
    decide (t.out.value = .handler (some 3))) = true := by decide
/-- Section 2.2 row 6. -/
theorem test_dispatch_none : nextHas (exec (.dispatch 0xE000#16 .read) overlap) (fun t =>
    decide (t.out.value = .handler none)) = true := by decide
/-- Section 2.7: none while disabled. -/
theorem test_snapsave_disabled : nextHas (exec .snapsave State.reset) (fun t =>
    decide (t.out.value = .record none ∧ t.out.result = .ok)) = true := by decide
/-- Section 2.7: `page` 9 becomes 1, the freeze stays pending, no event, ids unchanged. -/
theorem test_snapload_mapped : nextHas (exec .snapload (loading mapped2 (recordOf 1 true true 9 0x00#8))) (fun t =>
    decide (t.blk = { mapped2.blk with page := 1, mem := some [] } ∧ t.out.events = [])) = true := by decide +kernel
/-- Section 2.7: a disabled record disables: CfgReverted, NmiRelease, then the switch without an event. -/
theorem test_snapload_disabled : nextHas (exec .snapload (loading mapped2 (recordOf 1 false false 0 0x01#8))) (fun t =>
    decide (t.blk = { Block.reset with nextId := 2 } ∧ t.out.events = [.cfgReverted, .nmiRelease])) = true := by decide
/-- R214: ATTACH of a malformed image changes nothing and asks no allocation. -/
theorem test_attach_bad : nextHas (exec (.attach 0#8) (attaching State.reset (some [0x01#8]))) (fun t =>
    decide (t.blk = Block.reset ∧ t.out.result = .invalidImage ∧ t.out.calls = [])) = true := by decide
theorem test_attach : nextHas (exec (.attach 0#8) State.reset) (fun t =>
    decide (t.blk = { hidden.blk with attachedModel := some 0#8 })) = true := by decide
theorem test_detach : nextHas (exec .detach { hidden with blk := { hidden.blk with attachedModel := some 0#8, isDefault := true } })
    (fun t => decide (t.blk = { Block.reset with nextId := 2 })) = true := by decide
theorem test_setdef_none : nextHas (exec .setdef hidden) (fun t => decide (t.blk = hidden.blk)) = true := by decide
theorem test_setdef : nextHas (exec .setdef { hidden with blk := { hidden.blk with attachedModel := some 0#8 } })
    (fun t => t.blk.isDefault) = true := by decide
theorem test_setmode : refusedBy (exec (.setmode 1#8) hidden) .noModeResource = true := by decide
theorem test_reservedE : refusedBy (exec (.reservedE 0#28) hidden) (.reservedEncoding .reservedOp) = true := by decide
theorem test_reset : nextHas (exec .reset mapped2) (fun t => decide (t.blk = Block.reset ∧ t.out.events = [])) = true := by decide
/-- R115: with page 5 and `mem[0x510] = 0x42`, `RD $DF10` hits id 1 and gives 0x42. -/
theorem test_busrd : nextHas (exec (.busrd 0xDF10#16)
    { mapped2 with blk := { mapped2.blk with page := 5, mem := some [(0x510, 0x42#8)] } }) (fun t =>
    decide (t.out.dOut = some 0x42#8 ∧ t.out.hit = some (.entry 1) ∧ t.out.validOut = some true)) = true := by decide
/-- A Hidden write is "not forwarded to system memory" (R183). -/
theorem test_buswr_hidden : nextHas (exec (.buswr 0xDF10#16 0x88#8) hidden2) (fun t =>
    decide (t.blk = hidden2.blk ∧ t.env.sys = [])) = true := by decide

/-! ### Witnesses: states and operands that meet the hypotheses of the statements, clause by clause -/

/-- Room for exactly two more entries, the least a finite registry needs for an enable. -/
def roomForTwo (s : State) : State := { s with cfg := { s.cfg with nSlots := some (s.blk.H.length + 2) } }

/-- A machine whose pages do not tile its memory. -/
def badParams (s : State) : State := { s with cfg := { s.cfg with memSize := 1024 } }

theorem witness_StepPerformsNextOperation :
    paramsOk hidden.cfg = true ∧ reads (nextOp (withScript hidden [0x20000000#32])) (.seten false) = true ∧
    paramsOk State.reset.cfg = true ∧ State.reset.env.script = [] ∧ paramsOk (badParams hidden).cfg = false := by decide

/-- One word for each of R90 (a) to (f). -/
theorem witness_ReservedEncodingsAreRefused :
    paramsOk (withScript hidden [0xD00000FF#32]).cfg = true ∧
    (0xEFFFFFFF#32).extractLsb' 28 4 = 0xE#4 ∧
    (0x0100DF10#32).extractLsb' 24 4 ≠ 0#4 ∧
    (unusedField ((0x20000002#32).extractLsb' 28 4) = some (1, 23) ∧ (0x20000002#32).extractLsb' 1 23 ≠ 0) ∧
    ((0x40000003#32).extractLsb' 28 4 = 0x4#4 ∧ (0x40000003#32).extractLsb' 0 2 = 3#2) ∧
    ((0x5000000C#32).extractLsb' 28 4 = 0x5#4 ∧ (0x5000000C#32).extractLsb' 2 2 = 3#2) ∧
    ((0x50000000#32).extractLsb' 28 4 = 0x5#4 ∧ (0x00010000#32).extractLsb' 16 16 ≠ 0#16) ∧
    ((0xD00000FF#32).extractLsb' 8 24 = 0xD00000#24 ∧ (withScript hidden [0xD00000FF#32]).env.script = [0xD00000FF#32]) := by
  decide

/-- A handler row that its row conditions select, at both ends of its range, and a control operation. -/
theorem witness_EncodedOperationDecodesBack :
    Instr.wf .canonical (.fb1Write 0x1000#16 1#8) = true ∧
    Instr.fb1Write 0x1000#16 1#8 = selectRow .canonical (canonicalCond .canonical) (Instr.fb1Write 0x1000#16 1#8).classRow ∧
    Instr.romhRead 0xFFFF#16 = selectRow .canonical (canonicalCond .canonical) (Instr.romhRead 0xFFFF#16).classRow ∧
    Instr.wf .canonical .snapload = true := by decide

theorem witness_DecodedWordsEncodeBack : reads (decodeOp [0x10DE2DFF#32]) (.busrd 0xDE2D#16) = true := by decide

theorem witness_DecodedOperationIsWellFormed :
    reads (decodeWith .canonical (canonicalCond .canonical) [0x007FFF01#32]) (.fb1Write 0x7FFF#16 1#8) = true := by decide

/-- Enabled and mapped with a word at each end of the register range, and disabled. -/
theorem witness_BusWordRowByAddress :
    mapped2.cfg = Config.canonical ∧ mapped2.blk.H = [⟨0, regDesc mapped2.cfg⟩, ⟨1, winDesc mapped2.cfg⟩] ∧
    (0x0#4 ++ 0#4 ++ 0xDE00#16 ++ 0x42#8 : Word) = 0x00DE0042#32 ∧ (0x1#4 ++ 0#4 ++ 0xDEFF#16 ++ 0#8 : Word) = 0x10DEFF00#32 ∧
    State.reset.blk.enabled = false ∧ State.reset.blk.H = [] ∧ State.reset.blk.cfgMapped = false := by decide

theorem witness_HregAppendsEntry :
    (∀ k, (roomForTwo hidden).cfg.nSlots = some k → (roomForTwo hidden).blk.H.length < k) ∧
    (0x1FFF#16).toNat < (0x2000#16).toNat ∧ ((fullRegistry hidden).cfg.nSlots = some 2 ∧ 2 ≤ (fullRegistry hidden).blk.H.length) := by
  refine ⟨fun k h => ?_, by decide, rfl, le_rfl⟩
  cases h; decide

theorem witness_HunregRemovesTheEntry : ∀ e ∈ hidden.blk.H, e.id ≠ (2#24).toNat := by decide

theorem witness_DefaultArbitrationPicksNewest :
    Config.canonical.arbitration = .newestExclusiveFirst ∧
    (dispatchIn .canonical overlap.blk.H 0xDF10#16).map (fun e => e.id) = some 3 ∧
    (∃ f ∈ overlap.blk.H, hits 0xDF10#16 f = true ∧ f.desc.exclusive = true) ∧
    (dispatchIn .canonical overlap.blk.H 0xDF90#16).map (fun e => e.id) = some 4 ∧
    (∀ f ∈ overlap.blk.H, hits 0xDF90#16 f = true → f.desc.exclusive = false) := by decide

theorem witness_ArbitrationChoosesAHitEntry :
    (dispatchIn .canonical hidden.blk.H 0xDEFF#16).isSome = true ∧
    (∃ e ∈ hidden.blk.H, e.desc.base.toNat ≤ (0xDE00#16).toNat ∧ (0xDE00#16).toNat ≤ e.desc.endAddr.toNat) := by decide

/-- 0xDE00 and 0xDE08 (S4). -/
theorem witness_MirroredAddressesActAlike :
    winner hidden 0xDE00#16 = some ⟨0, regDesc .canonical⟩ ∧ winner hidden 0xDE08#16 = some ⟨0, regDesc .canonical⟩ ∧
    0xDE00#16 &&& (regDesc .canonical).mask = 0xDE08#16 &&& (regDesc .canonical).mask := by decide

theorem witness_PassThroughWrites : (withSys hidden [(0x4000, 0x06#8)]).env.sys.wf = true := by decide

theorem witness_RegisterAccessSelectsPage :
    winner hidden 0xDEFF#16 = some ⟨0, regDesc .canonical⟩ ∧ (regDesc .canonical).role = .reg ∧ hidden.blk.enabled = true := by
  decide

theorem witness_HandlersCalledWhileDisabled : switchOnly.blk.enabled = false := rfl

/-- Mapped at the top of the window, and hidden. -/
theorem witness_WindowReadIsGatedBySwitch :
    winner mapped2 0xDFFF#16 = some ⟨1, winDesc .canonical⟩ ∧ (winDesc .canonical).role = .win ∧
    (mapped2.blk.enabled = true ∧ mapped2.blk.switchOn = true) ∧ mapped2.blk.mem = some [(0x210, 0x77#8)] ∧
    winner hidden2 0xDF00#16 = some ⟨1, winDesc .canonical⟩ ∧
    ¬(hidden2.blk.enabled = true ∧ hidden2.blk.switchOn = true) := by decide

theorem witness_WindowWriteIsGatedBySwitch :
    winner mapped2 0xDF00#16 = some ⟨1, winDesc .canonical⟩ ∧ (winDesc .canonical).role = .win ∧
    (mapped2.blk.enabled = true ∧ mapped2.blk.switchOn = true) ∧ mapped2.blk.mem = some [(0x210, 0x77#8)] ∧
    Memory.wf [(0x210, 0x77#8)] = true ∧ winner hidden2 0xDFFF#16 = some ⟨1, winDesc .canonical⟩ ∧
    ¬(hidden2.blk.enabled = true ∧ hidden2.blk.switchOn = true) := by decide

/-- Both vector addresses while mapped, the address beside them, and a vector address while hidden. -/
theorem witness_RomhReadRedirectsVectors :
    (0xFFFA#16 = mapped2.cfg.vecLo ∧ 0xFFFB#16 = mapped2.cfg.vecHi ∧ mapped2.blk.enabled = true ∧
      mapped2.blk.switchOn = true ∧ mapped2.blk.mem.isSome = true) ∧
    ¬(0xFFFC#16 = mapped2.cfg.vecLo ∨ 0xFFFC#16 = mapped2.cfg.vecHi) ∧ hidden2.blk.switchOn = false := by decide

theorem witness_RomhWriteRedirectsVectors :
    (mapped2.cfg.vecWriteRedirect = true ∧ 0xFFFB#16 = mapped2.cfg.vecHi ∧ mapped2.blk.enabled = true ∧
      mapped2.blk.switchOn = true ∧ mapped2.blk.mem = some [(0x210, 0x77#8)] ∧ Memory.wf [(0x210, 0x77#8)] = true) ∧
    (¬(0xFFF9#16 = mapped2.cfg.vecLo ∨ 0xFFF9#16 = mapped2.cfg.vecHi) ∧ mapped2.env.sys.wf = true) := by decide

theorem witness_ForeignCyclesTouchNoState :
    (winner foreign7 0xDE0F#16).map (fun e => (e.id, e.desc.role)) = some (2, .foreign) ∧
    (winner foreign7 0xDE10#16).map (fun e => (e.id, e.desc.role)) = some (0, .reg) ∧ winner foreign7 0xE000#16 = none := by
  decide

theorem witness_BusCyclesNeverFail : isBusCycle (.romhRead 0xFFFA#16) = true ∧ mapped2.blk.memPresent = true := by decide

/-- A cycle for each clause: a window write and a class row taken by the window (they store at 0x200 and 0x2FF), a redirected and
a plain ROM-high write, a register write, a write of a FOREIGN entry, a read. -/
theorem witness_BusCycleFrame :
    (isBusCycle (.windowWrite 0xDF00#16 1#8) = true ∧ (∃ t, exec (.windowWrite 0xDF00#16 1#8) mapped2 = .next t) ∧
      mapped2.windowOpen = true ∧ winner mapped2 0xDF00#16 = some ⟨1, winDesc .canonical⟩ ∧
      onboardStore mapped2 (.windowWrite 0xDF00#16 1#8) = some 0x200 ∧ isRegisterAccess mapped2 (.windowWrite 0xDF00#16 1#8) = false) ∧
    (onboardStore mapped2 (.buswr 0xDFFF#16 1#8) = some 0x2FF ∧ systemStore mapped2 (.buswr 0xDFFF#16 1#8) = none ∧
      ∃ t, exec (.buswr 0xDFFF#16 1#8) mapped2 = .next t) ∧
    (onboardStore mapped2 (.romhWrite 0xFFFB#16 1#8) = some 0x2FB ∧ systemStore mapped2 (.romhWrite 0xFFFB#16 1#8) = none ∧
      onboardStore mapped2 (.romhWrite 0xFFFC#16 1#8) = none ∧ systemStore mapped2 (.romhWrite 0xFFFC#16 1#8) = some 0xFFFC) ∧
    (∃ t, exec (.regWrite 0xDE03#16 0#8) mapped2 = .next t) ∧
    ((winner foreign7 0xDE0C#16).map (fun e => e.desc.role) = some .foreign ∧
      ∃ t, exec (.foreignWrite 0xDE0C#16 1#8) foreign7 = .next t) ∧
    (isReadCycle (.busrd 0xDF00#16) = true ∧ ∃ t, exec (.busrd 0xDF00#16) mapped2 = .next t) :=
  ⟨⟨rfl, ⟨_, rfl⟩, by decide, by decide, by decide, by decide⟩, ⟨by decide, by decide, _, rfl⟩, by decide, ⟨_, rfl⟩,
    ⟨by decide, _, rfl⟩, rfl, _, rfl⟩

theorem witness_HiddenModeIsolatesMemory : isBusCycle (.buswr 0xDF00#16 1#8) = true ∧ hidden2.blk.switchOn = false := by decide

theorem witness_WindowReadAfterWrite :
    mapped2.blk.enabled = true ∧ mapped2.blk.switchOn = true ∧ mapped2.blk.mem = some [(0x210, 0x77#8)] ∧
    Memory.wf [(0x210, 0x77#8)] = true ∧ winner mapped2 0xDFFF#16 = some ⟨1, winDesc .canonical⟩ ∧
    (winDesc .canonical).role = .win ∧
    (∃ t, exec (.buswr 0xDFFF#16 0xA5#8) mapped2 = .next t ∧ t.cfg = mapped2.cfg ∧ t.blk.page = mapped2.blk.page ∧
      winner t 0xDFFF#16 = some ⟨1, winDesc .canonical⟩) :=
  ⟨rfl, rfl, rfl, by decide, by decide, rfl, _, rfl, rfl, rfl, by decide⟩

/-- VEC_LO through 0xDFFA and VEC_HI through 0xDFFB. -/
theorem witness_VectorFetchReadsWindowStore :
    mapped2.Inv = true ∧ mapped2.blk.enabled = true ∧ mapped2.blk.switchOn = true ∧ (winDesc .canonical).role = .win ∧
    (winner mapped2 0xDFFA#16 = some ⟨1, winDesc .canonical⟩ ∧ 0xFFFA#16 = mapped2.cfg.vecLo ∧ winner mapped2 0xFFFA#16 = none ∧
      0xFFFA#16 &&& mapped2.cfg.pageMask = 0xDFFA#16 &&& (winDesc .canonical).mask &&& mapped2.cfg.pageMask) ∧
    (winner mapped2 0xDFFB#16 = some ⟨1, winDesc .canonical⟩ ∧ 0xFFFB#16 = mapped2.cfg.vecHi ∧ winner mapped2 0xFFFB#16 = none ∧
      0xFFFB#16 &&& mapped2.cfg.pageMask = 0xDFFB#16 &&& (winDesc .canonical).mask &&& mapped2.cfg.pageMask) := by decide

/-- A mapped and a hidden window access, a register access, a load, a reset, and a cycle that leaves the flag. -/
theorem witness_ValidIsSetOnlyByMappedWindowAccess :
    (∃ t, exec (.windowRead 0xDF00#16) mapped2 = .next t ∧ t.blk.valid = true ∧
      isWindowAccess mapped2 (.windowRead 0xDF00#16) = true) ∧
    (∃ t, exec (.buswr 0xDFFF#16 1#8) hidden2 = .next t ∧ isWindowAccess hidden2 (.buswr 0xDFFF#16 1#8) = true) ∧
    (∃ t, exec (.busrd 0xDE00#16) mapped2 = .next t ∧ isRegisterAccess mapped2 (.busrd 0xDE00#16) = true) ∧
    (∃ t, exec .snapload (loading mapped2 (recordOf 1 false true 0 0#8)) = .next t ∧ t.out.result = .ok) ∧
    (∃ t, exec .reset mapped2 = .next t) ∧
    (∃ t, exec (.sysRead 0x0000#16) mapped2 = .next t ∧ isWindowAccess mapped2 (.sysRead 0x0000#16) = false ∧
      isRegisterAccess mapped2 (.sysRead 0x0000#16) = false) :=
  ⟨⟨_, rfl, rfl, by decide⟩, ⟨_, rfl, by decide⟩, ⟨_, rfl, by decide⟩, ⟨_, rfl, rfl⟩, ⟨_, rfl⟩, _, rfl, by decide, by decide⟩

/-- The four rows of R141 in order. -/
theorem witness_SetswTransitions :
    true = mapped2.blk.switchOn ∧ (true ≠ State.reset.blk.switchOn ∧ State.reset.blk.enabled = false) ∧
    (hidden2.blk.switchOn = false ∧ hidden2.blk.enabled = true) ∧ (mapped2.blk.switchOn = true ∧ mapped2.blk.enabled = true) := by
  decide

theorem witness_SetenEnables :
    switchOnly.blk.enabled = false ∧ (noAlloc switchOnly).env.inp.allocOk = false ∧ switchOnly.env.inp.allocOk = true ∧
    (∀ k, (roomForTwo switchOnly).cfg.nSlots = some k → (roomForTwo switchOnly).blk.H.length + 2 ≤ k) := by
  refine ⟨rfl, rfl, rfl, fun k h => ?_⟩
  cases h; decide

theorem witness_AllocationFailureChangesNothing :
    (noAlloc switchOnly).blk.enabled = false ∧ (noAlloc switchOnly).env.inp.allocOk = false ∧
    ((recordOf 1 true true 0 0#8).typed (noAlloc switchOnly).cfg = true ∧
      (recordOf 1 true true 0 0#8).formatVersion = (noAlloc switchOnly).cfg.snapVersion ∧
      (recordOf 1 true true 0 0#8).enabled = true) ∧
    (noAlloc switchOnly).env.inp.image = none := ⟨rfl, rfl, ⟨rfl, rfl, rfl⟩, rfl⟩

/-- Disabled, with two FOREIGN entries. -/
def twoForeign : State :=
  withEntries switchOnly [⟨0, foreign 7#8 false 0xDE00#16 0xDE0F#16 0x000F#16⟩, ⟨1, foreign 8#8 false 0xDF00#16 0xDFFF#16 0x00FF#16⟩]

/-- No slot is left, and one slot is left: two are needed. -/
theorem witness_FullRegistryRefusesEnable :
    twoForeign.blk.enabled = false ∧ twoForeign.env.inp.allocOk = true ∧
    (fullRegistry twoForeign).cfg.nSlots = some 2 ∧ paramsOk (fullRegistry twoForeign).cfg = true ∧
    2 < twoForeign.blk.H.length + 2 ∧ 3 < twoForeign.blk.H.length + 2 ∧ (fullRegistry twoForeign).env.inp.image = none ∧
    (recordOf 1 true true 0 0#8).typed (fullRegistry twoForeign).cfg = true := by decide

theorem witness_SetenDisables : mapped2.blk.enabled = true := rfl

/-- With a foreign entry in `H` and a freeze pending. -/
theorem witness_DisableThenEnablePreserves :
    mapped2.Inv = true ∧ mapped2.RegistryInv = true ∧ mapped2.blk.enabled = true ∧ mapped2.env.inp.allocOk = true ∧
    mapped2.cfg.nSlots = none ∧ mapped2.cfg.pageOnEnable = .keep := by decide

theorem witness_NmiTriggerOnlyOnSwitchEdge :
    ∃ t, exec (.setsw true) hidden = .next t ∧ hidden.cfg.loadFiresTrigger = false ∧ Instr.setsw true ≠ .snapload :=
  ⟨_, rfl, rfl, by decide⟩

theorem witness_LatchFollowsTheEvents :
    mapped2.Inv = true ∧ (∃ t, exec (.setsw false) mapped2 = .next t) ∧ (∃ t, exec .reset mapped2 = .next t) :=
  ⟨by decide, ⟨_, rfl⟩, ⟨_, rfl⟩⟩

theorem witness_EnableOrderDecidesTheFreeze :
    State.reset.Inv = true ∧ State.reset.blk.enabled = false ∧ State.reset.blk.switchOn = false ∧
    State.reset.env.inp.allocOk = true ∧ State.reset.cfg.nSlots = none := by decide

theorem witness_SnapsaveOutputsTheRecord :
    switchOnly.blk.enabled = false ∧ mapped2.blk.enabled = true ∧ mapped2.blk.mem = some [(0x210, 0x77#8)] := by decide

theorem witness_SnaploadRejectsOtherVersions :
    (recordOf 2 true true 0 0#8).typed hidden.cfg = true ∧
    (loading hidden (recordOf 2 true true 0 0#8)).env.inp.record.formatVersion ≠ hidden.cfg.snapVersion := by decide

/-- An enabled record on a disabled instance with exactly the room it needs. -/
theorem witness_SnaploadReplacesTheState :
    (roomForTwo (loading switchOnly (recordOf 1 true true 13 0x5A#8))).Inv = true ∧
    (recordOf 1 true true 13 0x5A#8).typed switchOnly.cfg = true ∧
    (loading switchOnly (recordOf 1 true true 13 0x5A#8)).env.inp.record.formatVersion = switchOnly.cfg.snapVersion ∧
    switchOnly.env.inp.allocOk = true ∧ switchOnly.blk.H.length + 2 ≤ 2 := ⟨by decide, rfl, rfl, rfl, by decide⟩

theorem witness_SnapshotRoundTrip :
    mapped2.Inv = true ∧
    ∃ t r, exec .snapsave mapped2 = .next t ∧ t.out.value = .record (some r) ∧
      (loading State.reset r).cfg = mapped2.cfg ∧ (loading State.reset r).blk = Block.reset ∧
      (loading State.reset r).env.inp.record = r ∧ (loading State.reset r).env.inp.allocOk = true :=
  ⟨by decide, _, _, rfl, rfl, rfl, rfl, rfl, rfl⟩

/-- Another model; images of 2047 and 2048 bytes; enabled and disabled. -/
theorem witness_AttachEnablesAndCopiesTheImage :
    5#8 ≠ State.reset.cfg.modelCanon ∧ 0#8 = State.reset.cfg.modelCanon ∧
    (attaching State.reset (some (List.replicate 2047 0#8))).env.inp.image = some (List.replicate 2047 0#8) ∧
    (List.replicate 2047 0#8).length ≠ State.reset.cfg.memSize ∧
    imageOk Config.canonical (List.replicate 2048 0x5A#8) = true ∧ hidden.blk.enabled = true ∧
    (State.reset.blk.enabled = false ∧ State.reset.env.inp.allocOk = true ∧ State.reset.cfg.nSlots = none) :=
  ⟨by decide, rfl, rfl, by rw [List.length_replicate]; decide, by simp only [imageOk, List.length_replicate]; rfl, rfl, rfl, rfl, rfl⟩

theorem witness_DetachDisablesAndClears : mapped2.blk.enabled = true ∧ switchOnly.blk.enabled = false := by decide

theorem witness_SetdefMarksTheAttachedModel :
    ({ hidden.blk with attachedModel := some 0#8 } : Block).attachedModel ≠ none ∧ hidden.blk.attachedModel = none := by decide

theorem witness_ErrorsChangeNothing :
    ∃ t, exec (.seten true) (noAlloc State.reset) = .next t ∧ t.out.result ≠ .ok := ⟨_, rfl, by decide⟩

/-- One operation for each result other than Ok. -/
theorem witness_ResultsByOperation :
    (∃ t, exec (.seten true) (noAlloc State.reset) = .next t ∧ t.out.result = .outOfMemory) ∧
    (∃ t, exec (.attach 0#8) (attaching State.reset (some [])) = .next t ∧ t.out.result = .invalidImage) ∧
    (∃ t, exec .snapload (loading hidden (recordOf 2 true true 0 0#8)) = .next t ∧
      t.out.result = .unsupportedSnapshotVersion) ∧
    (∃ t, exec (.setsw false) hidden = .next t ∧ t.out.result = .idempotent) :=
  ⟨⟨_, rfl, rfl⟩, ⟨_, rfl, rfl⟩, ⟨_, rfl, rfl⟩, ⟨_, rfl, rfl⟩⟩

/-- An operation for each element that changes. -/
theorem witness_EachElementHasItsWriters :
    (∃ t, exec (.seten true) State.reset = .next t ∧ t.blk.enabled ≠ State.reset.blk.enabled ∧ t.blk.mem ≠ State.reset.blk.mem ∧
      t.blk.H ≠ State.reset.blk.H ∧ t.blk.regIds ≠ State.reset.blk.regIds ∧ t.blk.nextId ≠ State.reset.blk.nextId) ∧
    (∃ t, exec (.setsw true) hidden = .next t ∧ t.blk.switchOn ≠ hidden.blk.switchOn ∧
      t.blk.freezePending ≠ hidden.blk.freezePending ∧ t.blk.cfgMapped ≠ hidden.blk.cfgMapped) ∧
    (∃ t, exec (.regRead 0xDE01#16) hidden = .next t ∧ t.blk.page ≠ hidden.blk.page) ∧
    (∃ t, exec (.windowRead 0xDF00#16) mapped2 = .next t ∧ t.blk.valid ≠ mapped2.blk.valid) ∧
    (∃ t, exec (.attach 0#8) State.reset = .next t ∧ t.blk.attachedModel ≠ State.reset.blk.attachedModel) ∧
    (∃ t, exec .setdef { hidden with blk := { hidden.blk with attachedModel := some 0#8 } } = .next t ∧
      t.blk.isDefault ≠ hidden.blk.isDefault) ∧
    (∃ t, exec (.sysWrite 0x0000#16 1#8) hidden = .next t ∧ t.env.sys ≠ hidden.env.sys) :=
  ⟨⟨_, rfl, by decide, by decide, by decide, by decide, by decide⟩, ⟨_, rfl, by decide, by decide, by decide⟩,
    ⟨_, rfl, by decide⟩, ⟨_, rfl, by decide⟩, ⟨_, rfl, by decide⟩, ⟨_, rfl, by decide⟩, _, rfl, by decide⟩

theorem witness_EveryStepKeepsTheInvariants :
    mapped2.Inv = true ∧ ∃ t, step (withScript mapped2 [0x00DFFFA5#32]) = .next t := ⟨by decide, _, rfl⟩

theorem witness_StepsWithinTheDutyKeepTheRegistry :
    mapped2.Inv = true ∧ mapped2.RegistryInv = true ∧ keepsDuty mapped2 (.hunreg 2#24) = true ∧
    (∃ rest, nextOp (withScript mapped2 [0x60000002#32]) = .ok (.hunreg 2#24, rest)) ∧
    ∃ t, step (withScript mapped2 [0x60000002#32]) = .next t :=
  ⟨by decide, by decide, by decide, ⟨_, rfl⟩, _, rfl⟩

/-- The first and the last page, and an address at each end of a page. -/
theorem witness_WindowOffsetLiesInMemory :
    paramsOk .canonical = true ∧ 0 < Config.canonical.pageCount ∧ 7 < Config.canonical.pageCount ∧
    windowOffset .canonical 0 0xDF00#16 = 0 ∧ windowOffset .canonical 7 0xDFFF#16 = 2047 := by decide

/-- A record one byte short. -/
theorem witness_IllTypedRecordIsRefused :
    ({ recordOf 1 true true 0 0#8 with rawMemory := RawMemory.zeros 2047 } : SnapshotRecord).rawMemory.bytes.length ≠
      State.reset.cfg.memSize := by
  rw [RawMemory.length_eq]; decide

end Sys2Proof.Tests
end

section
/-! SUPPORT. What a step and a control operation can do: the inversion of `step`, and one constructor per way a control operation
(any operation that is no bus cycle) answers a next state. -/

namespace Sys2Proof.Machine

/-! ### The step -/

/-- With no word left there is no next operation. -/
theorem script_ne_nil_of_nextOp {s : State} {p : Instr × List Word} (h : nextOp s = .ok p) : s.env.script ≠ [] := by
  intro hs
  rw [nextOp, hs] at h
  cases h

theorem nextInputs_eq_headD (s : State) : nextInputs s = s.env.pending.headD (Inputs.reference s.cfg) := by
  unfold nextInputs
  split <;> simp_all

/-- A step under parameters of R8 performs the operation at the head of the stream. -/
theorem step_of_nextOp {s : State} {i : Instr} {rest : List Word} (hp : paramsOk s.cfg = true)
    (h : nextOp s = .ok (i, rest)) : step s = exec i (s.advance rest) := by
  obtain ⟨w, ws, hs⟩ := List.exists_cons_of_ne_nil (script_ne_nil_of_nextOp h)
  simp only [step, if_pos hp, hs, h]

theorem step_of_script_nil {s : State} (hp : paramsOk s.cfg = true) (hs : s.env.script = []) :
    step s = .fault .endOfScript := by
  simp only [step, if_pos hp, hs]

theorem step_of_paramsBad {s : State} (hp : paramsOk s.cfg = false) : step s = .refused .parametersOutsideR8 := by
  simp [step, hp]

/-- A step that answers a next state performed a decoded operation. -/
theorem step_next {s t : State} (h : step s = .next t) :
    paramsOk s.cfg = true ∧ ∃ i rest, nextOp s = .ok (i, rest) ∧ exec i (s.advance rest) = .next t := by
  cases hp : paramsOk s.cfg with
  | false => rw [step_of_paramsBad hp] at h; cases h
  | true =>
    refine ⟨rfl, ?_⟩
    cases hop : nextOp s with
    | ok p => exact ⟨p.1, p.2, rfl, step_of_nextOp hp hop ▸ h⟩
    | error why =>
      unfold step at h
      rw [if_pos hp, hop] at h
      split at h <;> cases h

/-- Settles O1: the step by cases of the parameters and the stream, and what the fetch takes. -/
theorem stepPerformsNextOperation : Obligations.StepPerformsNextOperation := by
  unfold Obligations.StepPerformsNextOperation
  refine fun s => ⟨fun hp i rest h => ⟨step_of_nextOp hp h, rfl, rfl, rfl, ?_⟩, step_of_script_nil, step_of_paramsBad⟩
  rw [State.advance_env, nextInputs_eq_headD, List.drop_one]

/-! ### The switch and the memory updates, whole -/

@[simp] theorem pageAfterEnable_call (s : State) (k : EnvCall) : pageAfterEnable (s.call k) = pageAfterEnable s := rfl

@[simp] theorem State.moveSwitch_cfg (s : State) (b : Bool) : (s.moveSwitch b).cfg = s.cfg := by
  unfold State.moveSwitch; dsimp only; split_ifs <;> simp

@[simp] theorem State.moveSwitch_env (s : State) (b : Bool) : (s.moveSwitch b).env = s.env := by
  unfold State.moveSwitch; dsimp only; split_ifs <;> simp

/-- The switch moves alone while disabled; while enabled the configuration and the latch follow it (R141 to R143). -/
@[simp] theorem State.moveSwitch_blk (s : State) (b : Bool) : (s.moveSwitch b).blk =
    { s.blk with switchOn := b, cfgMapped := if s.blk.enabled then b else s.blk.cfgMapped,
                 freezePending := if s.blk.enabled then b else s.blk.freezePending } := by
  unfold State.moveSwitch
  cases he : s.blk.enabled <;> cases b <;> simp

@[simp] theorem State.loadSwitch_cfg (s : State) (b : Bool) : (s.loadSwitch b).cfg = s.cfg := by
  unfold State.loadSwitch; dsimp only; split_ifs <;> simp

@[simp] theorem State.loadSwitch_env (s : State) (b : Bool) : (s.loadSwitch b).env = s.env := by
  unfold State.loadSwitch; dsimp only; split_ifs <;> simp

/-- The latch after the switch step of a load: kept by a switch that stays, cleared by a switch that goes off, and set by one that
comes on only under LOAD_FIRES_TRIGGER (R212). -/
def latchAfterLoad (s : State) (b : Bool) : Bool :=
  if s.blk.enabled && (b != s.blk.switchOn) then b && (s.cfg.loadFiresTrigger || s.blk.freezePending)
  else s.blk.freezePending

@[simp] theorem State.loadSwitch_blk (s : State) (b : Bool) : (s.loadSwitch b).blk =
    { s.blk with switchOn := b,
                 cfgMapped := if s.blk.enabled && (b != s.blk.switchOn) then b else s.blk.cfgMapped,
                 freezePending := latchAfterLoad s b } := by
  unfold State.loadSwitch latchAfterLoad
  split
  · next hb => subst hb; simp
  · next hb =>
    have hne : (b != s.blk.switchOn) = true := by simpa using hb
    cases he : s.blk.enabled with
    | false => simp
    | true => cases b <;> cases hf : s.cfg.loadFiresTrigger <;> simp [hne]

@[simp] theorem State.ensureDisabled_cfg (s : State) : s.ensureDisabled.cfg = s.cfg := by
  unfold State.ensureDisabled; split <;> simp

@[simp] theorem State.ensureDisabled_env (s : State) : s.ensureDisabled.env = s.env := by
  unfold State.ensureDisabled; split <;> simp

@[simp] theorem State.attachImage_cfg (m : ModelId) (img : Option (List Byte)) (s : State) :
    (s.attachImage m img).cfg = s.cfg := rfl

@[simp] theorem State.attachImage_env (m : ModelId) (img : Option (List Byte)) (s : State) :
    (s.attachImage m img).env = s.env := rfl

@[simp] theorem State.attachImage_blk (m : ModelId) (img : Option (List Byte)) (s : State) :
    (s.attachImage m img).blk =
      { s.blk with mem := img.elim s.blk.mem fun bs => some (Memory.ofBytes bs), attachedModel := some m } := by
  cases img <;> rfl

/-! ### The control operations -/

/-- `u` is `s` made ready for an operation that needs `enabled` = 1: itself, or after the enable path (R161). -/
inductive Ready (s : State) : State → Prop
  | already (he : s.blk.enabled = true) : Ready s s
  | enabling (he : s.blk.enabled = false) : Ready s (s.call .allocOk).enablePath

/-- Each way a control operation answers a next state: it ends with a result and a value and no more, it finds no memory, or it
runs the updates of its rule. -/
inductive ControlStep (s : State) : Instr → State → Prop
  | ends (i : Instr) (r : Result) (v : OutValue) : ControlStep s i (s.finish r v)
  | noMemory (i : Instr) : ControlStep s i ((s.call .allocOk).raise .outOfMemory)
  | enable (he : s.blk.enabled = false) : ControlStep s (.seten true) (s.call .allocOk).enablePath.done
  | disable (he : s.blk.enabled = true) : ControlStep s (.seten false) s.disablePath.done
  | switch (b : Bool) (hb : b ≠ s.blk.switchOn) : ControlStep s (.setsw b) (s.moveSwitch b).done
  | register (d : Descriptor) : ControlStep s (.hreg d)
      ({ s with blk := s.blk.register d }.finish .ok (.handlerId s.blk.nextId))
  | unregister (id : BitVec 24) : ControlStep s (.hunreg id) { s with blk := s.blk.unregister id.toNat }.done
  | loadEnabled (u : State) (hu : Ready s u) (ht : s.env.inp.record.typed s.cfg = true) :
      ControlStep s .snapload ((u.loadSwitch s.env.inp.record.switchOn).loadContents s.env.inp.record).done
  | loadDisabled (ht : s.env.inp.record.typed s.cfg = true) : ControlStep s .snapload
      ((s.ensureDisabled.loadSwitch s.env.inp.record.switchOn).loadContents s.env.inp.record).done
  | attach (m : ModelId) (u : State) (hu : Ready s u) (hi : imageBad s.cfg s.env.inp.image = false) :
      ControlStep s (.attach m) (u.attachImage m s.env.inp.image).done
  | detach : ControlStep s .detach
      { s.ensureDisabled with blk := { s.ensureDisabled.blk with attachedModel := none, isDefault := false } }.done
  | setdef : ControlStep s .setdef
      { s with blk := { s.blk with isDefault := if s.blk.attachedModel.isSome then true else s.blk.isDefault } }.done
  | reset : ControlStep s .reset { s with blk := Block.reset }.done

/-- An operation that goes on in a ready state answers what its continuation answers there, or finds no memory. -/
theorem ensureEnabled_ready {f : State → State} {s t : State} (h : ensureEnabled (fun u => .next (f u)) s = .next t) :
    (∃ u, Ready s u ∧ t = f u) ∨ t = (s.call .allocOk).raise .outOfMemory := by
  rcases ensureEnabled_next h with ⟨he, hk⟩ | ⟨he, -, -, hk⟩ | ⟨-, -, ht⟩
  · cases hk; exact .inl ⟨s, .already he, rfl⟩
  · cases hk; exact .inl ⟨_, .enabling he, rfl⟩
  · exact .inr ht

theorem seten_controlStep {b : Bool} {s t : State} (h : exec (.seten b) s = .next t) : ControlStep s (.seten b) t := by
  simp only [exec, execSeten] at h
  split at h
  · cases h; exact .ends _ _ _
  · next hb =>
    cases b with
    | true =>
      have he : s.blk.enabled = false := by simpa using hb
      rcases ensureEnabled_ready (f := State.done) h with ⟨u, hu, rfl⟩ | rfl
      · cases hu with
        | already h' => simp [he] at h'
        | enabling => exact .enable he
      · exact .noMemory _
    | false =>
      cases h
      exact .disable (by simpa using hb)

theorem snapload_controlStep {s t : State} (h : exec .snapload s = .next t) : ControlStep s .snapload t := by
  obtain ⟨ht, h⟩ := snapload_next h
  unfold loadRecord at h
  split at h
  · split at h
    · rcases ensureEnabled_ready h with ⟨u, hu, rfl⟩ | rfl
      · exact .loadEnabled u hu ht
      · exact .noMemory _
    · cases h; exact .loadDisabled ht
  · cases h; exact .ends _ _ _

theorem attach_controlStep {m : ModelId} {s t : State} (h : exec (.attach m) s = .next t) :
    ControlStep s (.attach m) t := by
  simp only [exec, execAttach] at h
  split at h
  · split at h
    · cases h; exact .ends _ _ _
    · next hi =>
      rcases ensureEnabled_ready h with ⟨u, hu, rfl⟩ | rfl
      · exact .attach m u hu (by simpa using hi)
      · exact .noMemory _
  · cases h

/-- Every operation that is no bus cycle and answers a next state does one of these. -/
theorem control_step {i : Instr} {s t : State} (hi : isBusCycle i = false) (h : exec i s = .next t) :
    ControlStep s i t := by
  cases i <;> cases hi
  case seten b => exact seten_controlStep h
  case setsw b =>
    simp only [exec, execSetsw] at h
    split at h
    · cases h; exact .ends _ _ _
    · next hb => cases h; exact .switch b hb
  case getresEnabled => cases h; exact .ends _ _ _
  case getresSwitchOn => cases h; exact .ends _ _ _
  case getresMode => cases h
  case hreg d =>
    simp only [exec, execHreg] at h
    split at h <;> cases h
    exact .register d
  case hunreg id => cases h; exact .unregister id
  case dispatch a k => cases h; exact .ends _ _ _
  case snapsave =>
    simp only [exec, execSnapsave] at h
    split at h
    · split at h <;> cases h
      exact .ends _ _ _
    · cases h; exact .ends _ _ _
  case snapload => exact snapload_controlStep h
  case attach m => exact attach_controlStep h
  case detach => cases h; exact .detach
  case setdef => cases h; exact .setdef
  case setmode v => cases h
  case reservedE bits => cases h
  case reset => cases h; exact .reset

theorem Ready.cfg_eq {s u : State} (h : Ready s u) : u.cfg = s.cfg := by cases h <;> simp

theorem Ready.env_eq {s u : State} (h : Ready s u) : u.env = s.env := by cases h <;> simp

theorem Ready.enabled {s u : State} (h : Ready s u) : u.blk.enabled = true := by
  cases h with
  | already he => exact he
  | enabling => simp

/-- No control operation writes a parameter (R7). -/
theorem ControlStep.cfg_eq {s t : State} {i : Instr} (h : ControlStep s i t) : t.cfg = s.cfg := by
  cases h with
  | loadEnabled u hu ht => simp [hu.cfg_eq]
  | attach m u hu hi => simp [hu.cfg_eq]
  | _ => simp

/-- No control operation reaches the environment's state (R15). -/
theorem ControlStep.env_eq {s t : State} {i : Instr} (h : ControlStep s i t) : t.env = s.env := by
  cases h with
  | loadEnabled u hu ht => simp [hu.env_eq]
  | attach m u hu hi => simp [hu.env_eq]
  | _ => simp

end Sys2Proof.Machine
end


section
/-! SUPPORT. The invariants of R36, R37 and R8 hold at reset and are kept by every operation and every step. -/

namespace Sys2Proof.Machine

/-! ### The invariant by parts -/

/-- What `State.Inv` says of the block under parameters `c`: INV1, INV2 with the canonical form of onboard memory, INV5, INV6,
INV8 (R36, R37). -/
structure BlockInv (c : Config) (b : Block) : Prop where
  page : b.page < c.pageCount
  memPresent : b.mem.isSome = b.enabled
  memCanonical : ∀ m, b.mem = some m → m.wf = true ∧ m.within c.memSize = true
  cfgMapped : b.cfgMapped = (b.enabled && b.switchOn)
  freeze : b.freezePending = true → b.enabled = true ∧ b.switchOn = true
  idsRising : b.H.Pairwise fun e f => e.id < f.id
  idsBelow : ∀ e ∈ b.H, e.id < b.nextId

theorem Block.memCanonical_iff (n : Nat) (b : Block) :
    b.memCanonical n = true ↔ ∀ m, b.mem = some m → m.wf = true ∧ m.within n = true := by
  unfold Block.memCanonical
  cases b.mem <;> simp

theorem Block.freezeQualified_iff (b : Block) :
    b.freezeQualified = true ↔ (b.freezePending = true → b.enabled = true ∧ b.switchOn = true) := by
  unfold Block.freezeQualified
  cases b.freezePending <;> simp

theorem Block.idsRising_iff (b : Block) :
    b.idsRising = true ↔ (b.H.Pairwise fun e f => e.id < f.id) ∧ ∀ e ∈ b.H, e.id < b.nextId := by
  simp [Block.idsRising]

/-- The invariant speaks of the parameters, the block and system memory, and of nothing else. -/
theorem State.inv_iff (s : State) : s.Inv = true ↔
    paramsOk s.cfg = true ∧ BlockInv s.cfg s.blk ∧ s.env.sys.wf = true ∧ s.env.sys.within (2 ^ s.cfg.addrW) = true := by
  simp only [State.Inv, State.pageInRange, Block.memPresent, Block.cfgFollows, Bool.and_eq_true, decide_eq_true_eq, beq_iff_eq,
    Block.memCanonical_iff, Block.freezeQualified_iff, Block.idsRising_iff]
  constructor
  · rintro ⟨⟨⟨⟨⟨⟨⟨⟨hp, hpage⟩, hmem⟩, hcan⟩, hcfg⟩, hfr⟩, hris, hlt⟩, hwf⟩, hin⟩
    exact ⟨hp, ⟨hpage, hmem, hcan, hcfg, hfr, hris, hlt⟩, hwf, hin⟩
  · rintro ⟨hp, ⟨hpage, hmem, hcan, hcfg, hfr, hris, hlt⟩, hwf, hin⟩
    exact ⟨⟨⟨⟨⟨⟨⟨⟨hp, hpage⟩, hmem⟩, hcan⟩, hcfg⟩, hfr⟩, hris, hlt⟩, hwf⟩, hin⟩

/-! ### What keeps the block's invariant, update by update -/

section BlockUpdates

variable {c : Config} {b : Block}

theorem BlockInv.withPage (h : BlockInv c b) {p : Nat} (hp : p < c.pageCount) : BlockInv c { b with page := p } :=
  { h with page := hp }

theorem BlockInv.withValid (h : BlockInv c b) (v : Bool) : BlockInv c { b with valid := v } := { h with }

theorem BlockInv.withHostSide (h : BlockInv c b) (m : Option ModelId) (d : Bool) :
    BlockInv c { b with attachedModel := m, isDefault := d } := { h with }

/-- While enabled, the block may be given any canonical memory of its size. -/
theorem BlockInv.withMem (h : BlockInv c b) (he : b.enabled = true) {m : Memory} (hw : m.wf = true)
    (hn : m.within c.memSize = true) : BlockInv c { b with mem := some m } :=
  { h with
    memPresent := he.symm
    memCanonical := by rintro _ ⟨⟩; exact ⟨hw, hn⟩ }

/-- The switch, the configuration and the latch move together. -/
theorem BlockInv.withSwitch (h : BlockInv c b) {sw cm fp : Bool} (hc : cm = (b.enabled && sw))
    (hf : fp = true → b.enabled = true ∧ sw = true) :
    BlockInv c { b with switchOn := sw, cfgMapped := cm, freezePending := fp } :=
  { h with cfgMapped := hc, freeze := hf }

/-- While disabled the block is neither mapped nor frozen (INV5, INV6). -/
theorem BlockInv.quiet_of_disabled (h : BlockInv c b) (he : b.enabled = false) :
    b.cfgMapped = false ∧ b.freezePending = false := by
  refine ⟨by simp [h.cfgMapped, he], ?_⟩
  cases hf : b.freezePending with
  | false => rfl
  | true => have := (h.freeze hf).1; simp [he] at this

/-- With the switch off the block is neither mapped nor frozen (INV5, INV6). -/
theorem BlockInv.quiet_of_switchOff (h : BlockInv c b) (hs : b.switchOn = false) :
    b.cfgMapped = false ∧ b.freezePending = false := by
  refine ⟨by simp [h.cfgMapped, hs], ?_⟩
  cases hf : b.freezePending with
  | false => rfl
  | true => have := (h.freeze hf).2; simp [hs] at this

theorem BlockInv.register (h : BlockInv c b) (d : Descriptor) : BlockInv c (b.register d) :=
  { h with
    idsRising := by
      refine List.pairwise_append.2 ⟨h.idsRising, List.pairwise_singleton _ _, fun e he f hf => ?_⟩
      rw [List.mem_singleton.1 hf]
      exact h.idsBelow e he
    idsBelow := by
      intro e he
      rcases List.mem_append.1 he with he | he
      · exact Nat.lt_succ_of_lt (h.idsBelow e he)
      · rw [List.mem_singleton.1 he]; exact Nat.lt_succ_self _ }

theorem BlockInv.filterH (h : BlockInv c b) (p : Entry → Bool) : BlockInv c { b with H := b.H.filter p } :=
  { h with
    idsRising := h.idsRising.filter p
    idsBelow := fun e he => h.idsBelow e (List.mem_filter.1 he).1 }

theorem blockInv_reset (hp : paramsOk c = true) : BlockInv c Block.reset where
  page := (geometry_of_ok hp).pageCount_pos
  memPresent := rfl
  memCanonical := by rintro _ ⟨⟩
  cfgMapped := rfl
  freeze := by rintro ⟨⟩
  idsRising := .nil
  idsBelow := by rintro _ ⟨⟩

end BlockUpdates

/-! ### The paths of the control operations -/

section Paths

variable {c : Config} {s : State}

theorem pageAfterEnable_lt (hp : paramsOk s.cfg = true) (h : BlockInv s.cfg s.blk) :
    pageAfterEnable s < s.cfg.pageCount := by
  unfold pageAfterEnable
  split
  · exact h.page
  · exact (geometry_of_ok hp).maskPage_lt _

/-- The enable path from the disabled state: nothing was mapped or frozen, so the configuration it leaves is the switch's. -/
theorem enablePath_blockInv (hp : paramsOk s.cfg = true) (h : BlockInv s.cfg s.blk) (he : s.blk.enabled = false) :
    BlockInv s.cfg s.enablePath.blk := by
  obtain ⟨hc, hf⟩ := h.quiet_of_disabled he
  have hr := (h.register (regDesc s.cfg)).register (winDesc s.cfg)
  rw [State.enablePath_blk, State.allocateAndRegister_blk]
  exact { hr with
    page := pageAfterEnable_lt hp h
    memPresent := rfl
    memCanonical := by rintro _ ⟨⟩; exact ⟨rfl, rfl⟩
    cfgMapped := by simp [hc]
    freeze := by simp [hf] }

/-- The disable path: with the switch on it reverts, with the switch off there was nothing to revert. -/
theorem disablePath_blockInv (h : BlockInv c s.blk) : BlockInv c s.disablePath.blk := by
  have hq : (if s.blk.switchOn then false else s.blk.cfgMapped) = false ∧
      (if s.blk.switchOn then false else s.blk.freezePending) = false := by
    cases hs : s.blk.switchOn with
    | true => exact ⟨rfl, rfl⟩
    | false => exact h.quiet_of_switchOff hs
  rw [State.disablePath_blk, hq.1, hq.2]
  exact { h.filterH fun e => decide (e.id ∉ s.blk.regIds) with
    memPresent := rfl
    memCanonical := by rintro _ ⟨⟩
    cfgMapped := rfl
    freeze := by rintro ⟨⟩ }

theorem ensureDisabled_blockInv (h : BlockInv c s.blk) : BlockInv c s.ensureDisabled.blk := by
  unfold State.ensureDisabled
  split
  · exact disablePath_blockInv h
  · exact h

theorem Ready.blockInv {u : State} (hu : Ready s u) (hp : paramsOk s.cfg = true) (h : BlockInv s.cfg s.blk) :
    BlockInv s.cfg u.blk := by
  cases hu with
  | already => exact h
  | enabling he => exact enablePath_blockInv (s := s.call .allocOk) hp h he

theorem moveSwitch_blockInv (h : BlockInv c s.blk) (b : Bool) : BlockInv c (s.moveSwitch b).blk := by
  rw [State.moveSwitch_blk]
  apply h.withSwitch
  · cases he : s.blk.enabled <;> simp [h.cfgMapped, he]
  · cases he : s.blk.enabled with
    | true => simp
    | false => simp [(h.quiet_of_disabled he).2]

theorem loadSwitch_blockInv (h : BlockInv c s.blk) (b : Bool) : BlockInv c (s.loadSwitch b).blk := by
  rw [State.loadSwitch_blk]
  apply h.withSwitch
  · cases he : s.blk.enabled <;> cases hs : s.blk.switchOn <;> cases b <;> simp [h.cfgMapped, he, hs]
  · intro hl
    unfold latchAfterLoad at hl
    split at hl
    · next hm =>
      simp only [Bool.and_eq_true] at hm hl
      exact ⟨hm.1, hl.1⟩
    · next hm =>
      obtain ⟨he, hs⟩ := h.freeze hl
      simpa [he, hs] using hm

theorem loadContents_blockInv (hp : paramsOk s.cfg = true) (h : BlockInv s.cfg s.blk) {r : SnapshotRecord}
    (ht : r.typed s.cfg = true) : BlockInv s.cfg (s.loadContents r).blk := by
  have h' := (h.withPage ((geometry_of_ok hp).maskPage_lt r.currentPage)).withValid false
  rw [State.loadContents_blk]
  split_ifs with he
  · have hsize : r.rawMemory.bytes.length = s.cfg.memSize :=
      r.rawMemory.length_eq.trans (by simpa [SnapshotRecord.typed] using ht)
    exact h'.withMem he (Memory.wf_ofBytes _) (hsize ▸ Memory.within_ofBytes _)
  · exact h'

theorem length_of_imageOk {img : List Byte} (h : imageOk c img = true) : img.length = c.memSize := by
  simp only [imageOk, Bool.and_eq_true, decide_eq_true_eq] at h
  exact h.1

theorem attachImage_blockInv (h : BlockInv c s.blk) (he : s.blk.enabled = true) (m : ModelId)
    {image : Option (List Byte)} (hi : imageBad c image = false) : BlockInv c (s.attachImage m image).blk := by
  cases image with
  | none => exact h.withHostSide (some m) s.blk.isDefault
  | some img =>
    have hsize : img.length = c.memSize := length_of_imageOk (by simpa [imageBad] using hi)
    exact (h.withMem he (Memory.wf_ofBytes img) (hsize ▸ Memory.within_ofBytes img)).withHostSide (some m) s.blk.isDefault

/-- The switch and the contents of a load, once the enable or disable path is behind it (R212). -/
theorem load_blockInv (hc : s.cfg = c) (hp : paramsOk c = true) (h : BlockInv c s.blk) {r : SnapshotRecord}
    (ht : r.typed c = true) : BlockInv c ((s.loadSwitch r.switchOn).loadContents r).done.blk := by
  subst hc
  have hl := State.loadSwitch_cfg s r.switchOn
  have hs := loadSwitch_blockInv h r.switchOn
  rw [← hl] at hp hs ht ⊢
  exact loadContents_blockInv hp hs ht

/-- Every control operation keeps the block's invariant. -/
theorem ControlStep.blockInv {i : Instr} {t : State} (hs : ControlStep s i t) (hp : paramsOk s.cfg = true)
    (h : BlockInv s.cfg s.blk) : BlockInv s.cfg t.blk := by
  cases hs with
  | ends | noMemory => exact h
  | enable he => exact (Ready.enabling he).blockInv hp h
  | disable => exact disablePath_blockInv h
  | switch b => exact moveSwitch_blockInv h b
  | register d => exact h.register d
  | unregister id => exact h.filterH _
  | loadEnabled u hu ht => exact load_blockInv hu.cfg_eq hp (hu.blockInv hp h) ht
  | loadDisabled ht => exact load_blockInv (State.ensureDisabled_cfg s) hp (ensureDisabled_blockInv h) ht
  | attach m u hu hi => exact attachImage_blockInv (hu.blockInv hp h) hu.enabled m hi
  | detach => exact (ensureDisabled_blockInv h).withHostSide none false
  | setdef => exact h.withHostSide _ _
  | reset => exact blockInv_reset hp

end Paths

/-! ### Bus cycles -/

section BusCycles

variable {s t : State}

/-- The offset a bus cycle stores to lies inside onboard memory (R132). -/
theorem onboardStore_lt (hp : paramsOk s.cfg = true) (hpage : s.blk.page < s.cfg.pageCount) {i : Instr} {off : Nat}
    (h : onboardStore s i = some off) : off < s.cfg.memSize := by
  unfold onboardStore at h
  split at h
  · cases h
  · obtain ⟨⟨row, a⟩, -, h⟩ := Option.bind_eq_some_iff.1 h
    have hlt := (geometry_of_ok hp).windowOffset_lt hpage
    cases row <;> simp only [rowOnboardStore, Option.ite_none_right_eq_some, Option.some.injEq, reduceCtorEq] at h
    case window => exact h.2 ▸ hlt _
    case romh => exact h.2 ▸ hlt _

/-- The address a bus cycle stores to is one of the 2^ADDR_W bytes of system memory (R66). -/
theorem systemStore_lt (hp : paramsOk s.cfg = true) {i : Instr} {b : Nat} (h : systemStore s i = some b) :
    b < 2 ^ s.cfg.addrW := by
  unfold systemStore at h
  split at h
  · cases h
  · obtain ⟨⟨row, a⟩, -, h⟩ := Option.bind_eq_some_iff.1 h
    have hb : a.toNat = b := by
      cases row <;> simp only [rowSystemStore, Option.ite_none_left_eq_some, Option.some.injEq, reduceCtorEq] at h
      case romh => exact h.2
      all_goals exact h
    rw [addrW_of_ok hp, ← hb]
    exact a.isLt

/-- A store inside the bound keeps the canonical form and the bound. -/
theorem StoresAt.canonical {off : Option Nat} {m m' : Memory} {n : Nat} (h : StoresAt off m m')
    (hoff : ∀ o, off = some o → o < n) (hw : m.wf = true) (hn : m.within n = true) :
    m'.wf = true ∧ m'.within n = true := by
  cases off with
  | none => cases h; exact ⟨hw, hn⟩
  | some o =>
    obtain ⟨v, rfl⟩ := h
    exact ⟨Memory.wf_write hw o v, Memory.within_write hn (hoff o rfl) v⟩

/-- A bus cycle's store changes no presence, and changes a present memory as `StoresAt` says. -/
theorem OnboardStoresAt.cases {off : Option Nat} {m m' : Option Memory} (h : OnboardStoresAt off m m') :
    m'.isSome = m.isSome ∧ ∀ k', m' = some k' → ∃ k, m = some k ∧ StoresAt off k k' := by
  cases off with
  | none => cases h; exact ⟨rfl, fun k hk => ⟨k, hk, rfl⟩⟩
  | some o =>
    obtain ⟨k, v, rfl, rfl⟩ := h
    exact ⟨rfl, by rintro _ ⟨⟩; exact ⟨k, rfl, v, rfl⟩⟩

theorem PageAfter.lt {row : BusRow} {p : Nat} (h : PageAfter row s p) (hp : paramsOk s.cfg = true)
    (hpage : s.blk.page < s.cfg.pageCount) : p < s.cfg.pageCount := by
  rcases h with rfl | ⟨-, -, v, rfl⟩
  · exact hpage
  · exact (geometry_of_ok hp).maskPage_lt v

/-- A bus cycle that stores inside onboard memory keeps the block's invariant. -/
theorem BusFrame.blockInv {row : BusRow} {off adr : Option Nat} (f : BusFrame row off adr s t) (hp : paramsOk s.cfg = true)
    (hoff : ∀ o, off = some o → o < s.cfg.memSize) (h : BlockInv s.cfg s.blk) : BlockInv s.cfg t.blk := by
  obtain ⟨hsome, hmem⟩ := f.mem.cases
  rw [f.blk]
  exact { h with
    page := f.page.lt hp h.page
    memPresent := hsome.trans h.memPresent
    memCanonical := by
      intro k' hk'
      obtain ⟨k, hk, hst⟩ := hmem k' hk'
      obtain ⟨hw, hn⟩ := h.memCanonical k hk
      exact hst.canonical hoff hw hn }

end BusCycles

/-! ### Every operation and every step -/

theorem bus_keeps_inv {i : Instr} {s t : State} (hi : isBusCycle i = true) (hs : s.Inv = true) (h : exec i s = .next t) :
    t.Inv = true := by
  obtain ⟨hp, hb, hw, hn⟩ := s.inv_iff.1 hs
  obtain ⟨row, a, -, f⟩ := bus_frame hi h
  rw [State.inv_iff, f.cfg]
  exact ⟨hp, f.blockInv hp (fun _ => onboardStore_lt hp hb.page) hb,
    f.sys.canonical (fun _ => systemStore_lt hp) hw hn⟩

theorem control_keeps_inv {i : Instr} {s t : State} (hi : isBusCycle i = false) (hs : s.Inv = true)
    (h : exec i s = .next t) : t.Inv = true := by
  obtain ⟨hp, hb, hsys⟩ := s.inv_iff.1 hs
  have hc := control_step hi h
  rw [State.inv_iff, hc.cfg_eq, hc.env_eq]
  exact ⟨hp, hc.blockInv hp hb, hsys⟩

/-- Whatever the operation, its meaning keeps the invariant. -/
theorem exec_keeps_inv {i : Instr} {s t : State} (hs : s.Inv = true) (h : exec i s = .next t) : t.Inv = true := by
  cases hi : isBusCycle i with
  | true => exact bus_keeps_inv hi hs h
  | false => exact control_keeps_inv hi hs h

/-- The fetch touches the stream and the answers only, of which the invariant does not speak. -/
@[simp] theorem State.advance_inv (s : State) (rest : List Word) : (s.advance rest).Inv = s.Inv := rfl

/-- Settles O54: a step is the fetch, which the invariant does not see, and then an operation, which keeps it. -/
theorem everyStepKeepsTheInvariants : Obligations.EveryStepKeepsTheInvariants := by
  unfold Obligations.EveryStepKeepsTheInvariants
  intro s t hs h
  obtain ⟨-, i, rest, -, hx⟩ := step_next h
  exact exec_keeps_inv ((s.advance_inv rest).trans hs) hx

/-- Settles O53: the canonical parameters meet R8, and the reset block has nothing enabled and nothing registered. -/
theorem resetMeetsTheInvariants : Obligations.ResetMeetsTheInvariants := by
  unfold Obligations.ResetMeetsTheInvariants
  refine ⟨?_, by decide⟩
  have hp : paramsOk State.reset.cfg = true := by decide
  exact State.reset.inv_iff.2 ⟨hp, blockInv_reset hp, rfl, rfl⟩

end Sys2Proof.Machine
end


section
/-! SUPPORT. The writers of each state element (R23 to R34), read off the two frames: of a bus cycle and of a control operation. -/

namespace Sys2Proof.Machine

/-! ### What a path writes only under a condition -/

/-- An enable writes `page` only under PAGE_ON_ENABLE = draw (U6). -/
theorem draw_of_pageAfterEnable_ne {s : State} (h : pageAfterEnable s ≠ s.blk.page) : s.cfg.pageOnEnable = .draw := by
  unfold pageAfterEnable at h
  split at h
  · exact absurd rfl h
  · assumption

/-- A state made ready for an operation differs from the state in what the enable path writes (R161). -/
theorem Ready.kept {s u : State} (h : Ready s u) :
    u.blk.switchOn = s.blk.switchOn ∧ u.blk.valid = s.blk.valid ∧ u.blk.freezePending = s.blk.freezePending ∧
    u.blk.attachedModel = s.blk.attachedModel ∧ u.blk.isDefault = s.blk.isDefault := by
  cases h <;> simp

theorem Ready.page_writer {s u : State} (h : Ready s u) (hne : u.blk.page ≠ s.blk.page) :
    s.cfg.pageOnEnable = .draw ∧ s.blk.enabled = false := by
  cases h with
  | already => exact absurd rfl hne
  | enabling he => exact ⟨draw_of_pageAfterEnable_ne (by simpa using hne), he⟩

/-- The disable path leaves the switch, the page, the validity flag, the id counter and the host-side state (R162). -/
theorem State.ensureDisabled_kept (s : State) :
    s.ensureDisabled.blk.switchOn = s.blk.switchOn ∧ s.ensureDisabled.blk.page = s.blk.page ∧
    s.ensureDisabled.blk.valid = s.blk.valid ∧ s.ensureDisabled.blk.nextId = s.blk.nextId ∧
    s.ensureDisabled.blk.attachedModel = s.blk.attachedModel ∧ s.ensureDisabled.blk.isDefault = s.blk.isDefault := by
  unfold State.ensureDisabled
  split <;> simp [State.disablePath_blk]

/-! ### What a bus cycle writes -/

/-- A bus cycle leaves nine of the twelve elements (R20): all but `page`, `valid` and `mem`. -/
theorem BusFrame.kept {row : BusRow} {off adr : Option Nat} {s t : State} (f : BusFrame row off adr s t) :
    t.blk.enabled = s.blk.enabled ∧ t.blk.switchOn = s.blk.switchOn ∧ t.blk.freezePending = s.blk.freezePending ∧
    t.blk.cfgMapped = s.blk.cfgMapped ∧ t.blk.regIds = s.blk.regIds ∧ t.blk.H = s.blk.H ∧
    t.blk.nextId = s.blk.nextId ∧ t.blk.attachedModel = s.blk.attachedModel ∧ t.blk.isDefault = s.blk.isDefault := by
  rw [f.blk]
  exact ⟨rfl, rfl, rfl, rfl, rfl, rfl, rfl, rfl, rfl⟩

theorem BusFrame.page_writer {row : BusRow} {off adr : Option Nat} {s t : State} (f : BusFrame row off adr s t)
    (hne : t.blk.page ≠ s.blk.page) : row = .reg ∧ s.blk.enabled = true := by
  rcases f.page with hp | ⟨hr, he, -⟩
  · exact absurd hp hne
  · exact ⟨hr, he⟩

theorem BusFrame.valid_writer {row : BusRow} {off adr : Option Nat} {s t : State} (f : BusFrame row off adr s t)
    (hne : t.blk.valid ≠ s.blk.valid) : row = .window ∨ row = .reg := by
  rw [f.valid] at hne
  cases row <;> simp [validAfter] at hne ⊢

theorem OnboardStoresAt.off_ne_none {off : Option Nat} {m m' : Option Memory} (h : OnboardStoresAt off m m')
    (hne : m' ≠ m) : off ≠ none := by
  rintro rfl
  exact hne h

theorem StoresAt.off_ne_none {off : Option Nat} {m m' : Memory} (h : StoresAt off m m') (hne : m' ≠ m) : off ≠ none := by
  rintro rfl
  exact hne h

theorem isRegisterAccess_of_row {s : State} {i : Instr} {a : Addr} (h : rowTaken s i = some (.reg, a)) :
    isRegisterAccess s i = true := by
  simp [isRegisterAccess, h]

theorem isWindowAccess_of_row {s : State} {i : Instr} {a : Addr} (h : rowTaken s i = some (.window, a)) :
    isWindowAccess s i = true := by
  simp [isWindowAccess, h]

/-! ### The writers -/

/-- Settles O52. A bus cycle writes `page`, `valid` and one byte of a memory, as its row says. A control operation writes no
parameter and nothing of the environment, and of the block what its path writes. -/
theorem eachElementHasItsWriters : Obligations.EachElementHasItsWriters := by
  unfold Obligations.EachElementHasItsWriters
  intro i s t h
  cases hi : isBusCycle i with
  | true =>
    obtain ⟨row, a, hrow, f⟩ := bus_frame hi h
    obtain ⟨henabled, hswitch, hfreeze, hmapped, hregIds, hH, hnextId, hmodel, hdefault⟩ := f.kept
    refine ⟨f.cfg, absurd henabled, absurd hswitch, fun hpage => ?_, fun hmem => .inl (f.mem.off_ne_none hmem),
      fun hvalid => ?_, absurd hfreeze, absurd hmapped, absurd hregIds, absurd hH, absurd hnextId, absurd hmodel,
      absurd hdefault, f.sys.off_ne_none, f.env⟩
    · obtain ⟨rfl, he⟩ := f.page_writer hpage
      exact .inl ⟨isRegisterAccess_of_row hrow, he⟩
    · rcases f.valid_writer hvalid with rfl | rfl
      · exact .inl (isWindowAccess_of_row hrow)
      · exact .inr (.inl (isRegisterAccess_of_row hrow))
  | false =>
    have hc := control_step hi h
    rw [hc.cfg_eq, hc.env_eq]
    cases hc with
    | ends | noMemory => simp
    | enable he =>
      have hp : pageAfterEnable s ≠ s.blk.page → s.cfg.pageOnEnable = .draw := draw_of_pageAfterEnable_ne
      simpa [he] using hp
    | disable => simp [State.disablePath_blk]
    | switch => simp
    | register => simp
    | unregister => simp [Block.unregister]
    | loadEnabled u hu => simp [hu.kept]
    | loadDisabled => simp [s.ensureDisabled_kept]
    | attach m u hu =>
      have hp : u.blk.page ≠ s.blk.page → (isRegisterAccess s (.attach m) = true ∧ s.blk.enabled = true) ∨
          (s.cfg.pageOnEnable = .draw ∧ s.blk.enabled = false) := fun hne => .inr (hu.page_writer hne)
      simpa [hu.kept] using hp
    | detach => simp [s.ensureDisabled_kept]
    | setdef => simp
    | reset => simp

end Sys2Proof.Machine
end

section
/-! SUPPORT. The own entries of the block in the registry (R36 INV3, R37 INV7): what each update of `H`, `regIds` and `enabled` does to
them, and that the operations within the duty of R270 keep them. -/

namespace Sys2Proof.Machine

/-- What `State.RegistryInv` says of a registry, of the ids held in `regIds` and of `enabled` (INV3, INV7). -/
structure OwnRegistered (c : Config) (H : List Entry) (ids : List Nat) (enabled : Bool) : Prop where
  ids_eq : (H.filter (isOwn c)).map (fun e => e.id) = ids
  descs_eq : (H.filter (isOwn c)).map (fun e => e.desc) = if enabled then [regDesc c, winDesc c] else []

/-- The same of a block under parameters `c`. -/
abbrev BlockRegistry (c : Config) (b : Block) : Prop := OwnRegistered c b.H b.regIds b.enabled

theorem State.registryInv_iff (s : State) : s.RegistryInv = true ↔ BlockRegistry s.cfg s.blk := by
  simp only [State.RegistryInv, Bool.and_eq_true, decide_eq_true_eq]
  exact ⟨fun ⟨hi, hd⟩ => ⟨hi, hd⟩, fun ⟨hi, hd⟩ => ⟨hi, hd⟩⟩

/-! ### The registry, update by update -/

section Registries

variable {c : Config} {H : List Entry} {ids : List Nat} {enabled : Bool}

/-- The id of each own entry is one of the ids held. -/
theorem OwnRegistered.id_mem (h : OwnRegistered c H ids enabled) {e : Entry} (he : e ∈ H) (ho : isOwn c e = true) :
    e.id ∈ ids :=
  h.ids_eq ▸ List.mem_map_of_mem (List.mem_filter.2 ⟨he, ho⟩)

/-- While disabled no entry is an own one. -/
theorem OwnRegistered.none_of_disabled (h : OwnRegistered c H ids false) : H.filter (isOwn c) = [] :=
  List.map_eq_nil_iff.1 h.descs_eq

/-- An entry of another owner or role joins without a trace. -/
theorem OwnRegistered.append (h : OwnRegistered c H ids enabled) {e : Entry} (he : isOwn c e = false) :
    OwnRegistered c (H ++ [e]) ids enabled := by
  have hown : (H ++ [e]).filter (isOwn c) = H.filter (isOwn c) := by simp [he]
  exact ⟨hown ▸ h.ids_eq, hown ▸ h.descs_eq⟩

/-- An entry leaves without a trace when its id is not one of those held. -/
theorem OwnRegistered.filter_ne (h : OwnRegistered c H ids enabled) {n : Nat} (hn : n ∉ ids) :
    OwnRegistered c (H.filter fun e => decide (e.id ≠ n)) ids enabled := by
  have hown : (H.filter fun e => decide (e.id ≠ n)).filter (isOwn c) = H.filter (isOwn c) := by
    rw [List.filter_filter]
    refine List.filter_congr fun e he => ?_
    cases ho : isOwn c e with
    | false => rfl
    | true =>
      have hne : e.id ≠ n := fun heq => hn (heq ▸ h.id_mem he ho)
      simp [hne]
  exact ⟨hown ▸ h.ids_eq, hown ▸ h.descs_eq⟩

/-- The enable path's two registrations make the two entries of R167, under the ids it holds (R161). -/
theorem OwnRegistered.enable (h : OwnRegistered c H ids false) (i j : Nat) :
    OwnRegistered c (H ++ [⟨i, regDesc c⟩] ++ [⟨j, winDesc c⟩]) [i, j] true := by
  have hreg : isOwn c ⟨i, regDesc c⟩ = true := by simp [isOwn, regDesc]
  have hwin : isOwn c ⟨j, winDesc c⟩ = true := by simp [isOwn, winDesc]
  constructor <;> simp [h.none_of_disabled, hreg, hwin]

/-- Unregistering every id held leaves no own entry (R162). -/
theorem OwnRegistered.disable (h : OwnRegistered c H ids enabled) :
    OwnRegistered c (H.filter fun e => decide (e.id ∉ ids)) [] false := by
  have hown : (H.filter fun e => decide (e.id ∉ ids)).filter (isOwn c) = [] := by
    rw [List.filter_filter, List.filter_eq_nil_iff]
    intro e he hb
    obtain ⟨ho, hid⟩ := Bool.and_eq_true_iff.1 hb
    exact of_decide_eq_true hid (h.id_mem he ho)
  constructor <;> rw [hown] <;> rfl

end Registries

/-! ### The paths and the operations -/

section Operations

variable {s t : State}

theorem Ready.blockRegistry {u : State} (hu : Ready s u) (h : BlockRegistry s.cfg s.blk) :
    BlockRegistry s.cfg u.blk := by
  cases hu with
  | already => exact h
  | enabling he =>
    have hoff : OwnRegistered s.cfg s.blk.H s.blk.regIds false := he ▸ h
    simpa using hoff.enable s.blk.nextId (s.blk.nextId + 1)

theorem disablePath_blockRegistry {c : Config} (h : BlockRegistry c s.blk) : BlockRegistry c s.disablePath.blk := by
  rw [State.disablePath_blk]
  exact h.disable

theorem ensureDisabled_blockRegistry {c : Config} (h : BlockRegistry c s.blk) :
    BlockRegistry c s.ensureDisabled.blk := by
  unfold State.ensureDisabled
  split
  · exact disablePath_blockRegistry h
  · exact h

/-- Under the duty of R270 the descriptor of an HREG is none that INV7 counts, whatever id it is given. -/
theorem isOwn_of_keepsDuty {d : Descriptor} (hd : keepsDuty s (.hreg d) = true) (id : Nat) :
    isOwn s.cfg ⟨id, d⟩ = false :=
  (Bool.not_eq_true' _).mp hd

/-- Under the duty of R270 the id of an HUNREG is not one of those held in `regIds`. -/
theorem notMem_regIds_of_keepsDuty {id : BitVec 24} (hd : keepsDuty s (.hunreg id) = true) : id.toNat ∉ s.blk.regIds :=
  of_decide_eq_true hd

/-- A control operation within the duty: the enable path brings the two entries, the disable path takes them away, HREG and HUNREG
act on entries of others, and no other update reaches the registry. -/
theorem ControlStep.blockRegistry {i : Instr} (hc : ControlStep s i t) (hd : keepsDuty s i = true)
    (h : BlockRegistry s.cfg s.blk) : BlockRegistry s.cfg t.blk := by
  cases hc with
  | ends | noMemory | setdef => exact h
  | enable he => exact (Ready.enabling he).blockRegistry h
  | disable => exact disablePath_blockRegistry h
  | switch b => simpa using h
  | register d => exact h.append (isOwn_of_keepsDuty hd s.blk.nextId)
  | unregister id => exact h.filter_ne (notMem_regIds_of_keepsDuty hd)
  | loadEnabled u hu => simpa using hu.blockRegistry h
  | loadDisabled => simpa using ensureDisabled_blockRegistry h
  | attach m u hu => exact hu.blockRegistry h
  | detach => exact ensureDisabled_blockRegistry h
  | reset => exact ⟨rfl, rfl⟩

theorem BusFrame.blockRegistry {row : BusRow} {off adr : Option Nat} (f : BusFrame row off adr s t)
    (h : BlockRegistry s.cfg s.blk) : BlockRegistry s.cfg t.blk := by
  rw [f.blk]
  exact h

/-- Whatever operation keeps the duty, its meaning keeps the registry invariant. -/
theorem exec_keeps_registryInv {i : Instr} (hs : s.RegistryInv = true) (hd : keepsDuty s i = true)
    (hx : exec i s = .next t) : t.RegistryInv = true := by
  rw [State.registryInv_iff] at hs ⊢
  cases hi : isBusCycle i with
  | true =>
    obtain ⟨row, a, -, f⟩ := bus_frame hi hx
    exact f.cfg ▸ f.blockRegistry hs
  | false =>
    have hc := control_step hi hx
    exact hc.cfg_eq ▸ hc.blockRegistry hd hs

end Operations

/-- The fetch reaches neither the registry nor what the duty speaks of. -/
@[simp] theorem State.advance_registryInv (s : State) (rest : List Word) : (s.advance rest).RegistryInv = s.RegistryInv := rfl

@[simp] theorem keepsDuty_advance (s : State) (rest : List Word) (i : Instr) : keepsDuty (s.advance rest) i = keepsDuty s i := rfl

/-- Settles O55: a step is the fetch, which the registry does not see, and then an operation within the duty, which keeps it. -/
theorem stepsWithinTheDutyKeepTheRegistry : Obligations.StepsWithinTheDutyKeepTheRegistry := by
  unfold Obligations.StepsWithinTheDutyKeepTheRegistry
  intro s t i rest hinv hreg hop hduty hstep
  obtain ⟨hp, -⟩ := s.inv_iff.1 hinv
  rw [step_of_nextOp hp hop] at hstep
  exact exec_keeps_registryInv (s.advance_registryInv rest ▸ hreg) (keepsDuty_advance s rest i ▸ hduty) hstep

end Sys2Proof.Machine
end

section
/-! SUPPORT. What a bus cycle leaves as it was (R26, R27, R31, R39, R238): the two stores read byte by byte, and where each write row
stores. -/

namespace Sys2Proof.Machine

/-! ### The stores, byte by byte -/

theorem StoresAt.read_other {adr : Option Nat} {m m' : Memory} (h : StoresAt adr m m') {b : Nat} (hb : adr ≠ some b) :
    m'.read b = m.read b := by
  cases adr with
  | none => cases h; rfl
  | some o =>
    obtain ⟨v, rfl⟩ := h
    exact Memory.read_write_other m v fun hbo => hb (hbo ▸ rfl)

theorem OnboardStoresAt.read_other {off : Option Nat} {m m' : Option Memory} (h : OnboardStoresAt off m m') {o : Nat}
    (ho : off ≠ some o) : m'.map (fun k => k.read o) = m.map fun k => k.read o := by
  cases off with
  | none => cases h; rfl
  | some p =>
    obtain ⟨k, v, rfl, rfl⟩ := h
    exact congrArg some (Memory.read_write_other k v fun hop => ho (hop ▸ rfl))

theorem StoresAt.eq_of_none {adr : Option Nat} {m m' : Memory} (h : StoresAt adr m m') (ha : adr = none) : m' = m := by
  subst ha
  exact h

theorem OnboardStoresAt.eq_of_none {off : Option Nat} {m m' : Option Memory} (h : OnboardStoresAt off m m')
    (ho : off = none) : m' = m := by
  subst ho
  exact h

/-! ### Where a cycle stores -/

section Stores

variable {s : State}

/-- A read cycle stores nothing. -/
theorem stores_of_readCycle {i : Instr} (hi : isReadCycle i = true) : onboardStore s i = none ∧ systemStore s i = none :=
  ⟨if_pos hi, if_pos hi⟩

/-- A cycle that a FOREIGN entry takes has the foreign row. -/
theorem busRow_of_foreign {a : Addr} {e : Entry} (hw : winner s a = some e) (hr : e.desc.role = .foreign) :
    busRow s.cfg (rowCond s a) a = .foreign :=
  busRow_of_winner s.cfg (rowCond s a) a (r := .foreign) (by simp [rowCond, hw, hr])

/-- A write taken by a FOREIGN entry stores nothing (R118). -/
theorem stores_of_foreign {a : Addr} {v : Byte} {e : Entry} (hw : winner s a = some e) (hr : e.desc.role = .foreign) :
    onboardStore s (.foreignWrite a v) = none ∧ systemStore s (.foreignWrite a v) = none := by
  simp [onboardStore, systemStore, isReadCycle, rowTaken, busRow_of_foreign hw hr, rowOnboardStore, rowSystemStore]

/-- An entry of the handler's role that takes the cycle is what the handler is called through. -/
theorem calledThrough_of_winner {role : Role} {own : Descriptor} {a : Addr} {e : Entry} (hw : winner s a = some e)
    (hr : e.desc.role = role) : calledThrough role own s a = (e.desc, some (.entry e.id)) := by
  simp only [calledThrough, hw, if_pos hr]

/-- An open window's write stores at the window offset of the reduced address (R183). -/
theorem stores_of_windowWrite {a : Addr} {v : Byte} {e : Entry} (ho : s.windowOpen = true) (hw : winner s a = some e)
    (hr : e.desc.role = .win) :
    onboardStore s (.windowWrite a v) = some (windowOffset s.cfg s.blk.page (a &&& e.desc.mask)) ∧
    systemStore s (.windowWrite a v) = none := by
  refine ⟨?_, rfl⟩
  show rowOnboardStore .window a s = _
  rw [rowOnboardStore, if_pos ho, calledThrough_of_winner hw hr, reducedAddr]

theorem redirectsWrite_iff {a : Addr} : redirectsWrite s a = true ↔
    s.cfg.vecWriteRedirect = true ∧ (a = s.cfg.vecLo ∨ a = s.cfg.vecHi) ∧ s.windowOpen = true := by
  simp [redirectsWrite, isVector, and_assoc]

/-- A ROM-high write stores in one of the two memories, at its full address (R187). -/
theorem stores_of_romhWrite (a : Addr) (v : Byte) :
    if s.cfg.vecWriteRedirect = true ∧ (a = s.cfg.vecLo ∨ a = s.cfg.vecHi) ∧ s.windowOpen = true then
      onboardStore s (.romhWrite a v) = some (windowOffset s.cfg s.blk.page a) ∧ systemStore s (.romhWrite a v) = none
    else onboardStore s (.romhWrite a v) = none ∧ systemStore s (.romhWrite a v) = some a.toNat := by
  simp only [← redirectsWrite_iff]
  split
  · next hr => exact ⟨if_pos hr, if_pos hr⟩
  · next hr => exact ⟨if_neg hr, if_neg hr⟩

end Stores

/-! ### The frame -/

/-- A cycle that stores nowhere leaves both memories. -/
theorem BusFrame.memories_kept {row : BusRow} {off adr : Option Nat} {s t : State} (f : BusFrame row off adr s t)
    (h : off = none ∧ adr = none) : t.blk.mem = s.blk.mem ∧ t.env.sys = s.env.sys :=
  ⟨f.mem.eq_of_none h.1, f.sys.eq_of_none h.2⟩

/-- Settles O25: the frame of `bus_frame` read field by field, and where each of the named cycles stores. -/
theorem busCycleFrame : Obligations.BusCycleFrame := by
  unfold Obligations.BusCycleFrame
  intro i s t hi h
  obtain ⟨row, a, hrow, f⟩ := bus_frame hi h
  refine ⟨f.cfg, f.blk, f.env, f.events, fun hreg => ?_, f.mem.cases.1, fun _ => f.mem.read_other, fun _ => f.sys.read_other,
    f.mem.eq_of_none, f.sys.eq_of_none, fun hquiet => f.memories_kept ?_, ?_, ?_⟩
  · by_contra hpage
    obtain ⟨rfl, -⟩ := f.page_writer hpage
    exact Bool.eq_false_iff.1 hreg (isRegisterAccess_of_row hrow)
  · rcases hquiet with ⟨a, v, rfl⟩ | ⟨a, v, e, rfl, hw, hr⟩ | hread
    · exact ⟨rfl, rfl⟩
    · exact stores_of_foreign hw hr
    · exact stores_of_readCycle hread
  · rintro a v rfl ho e hw hr
    exact stores_of_windowWrite ho hw hr
  · rintro a v rfl
    exact stores_of_romhWrite a v

end Sys2Proof.Machine
end

section
/-! SUPPORT. The validity flag (R23, INV9 of R37; log 27): which accesses write it, and what a control operation does to it. -/

namespace Sys2Proof.Machine

/-! ### The kind of an access -/

theorem isWindowAccess_eq {s : State} {i : Instr} {row : BusRow} {a : Addr} (h : rowTaken s i = some (row, a)) :
    isWindowAccess s i = decide (row = .window) := by
  simp [isWindowAccess, h]

theorem isRegisterAccess_eq {s : State} {i : Instr} {row : BusRow} {a : Addr} (h : rowTaken s i = some (row, a)) :
    isRegisterAccess s i = decide (row = .reg) := by
  simp [isRegisterAccess, h]

/-- A control operation takes no row. -/
theorem rowTaken_of_control {i : Instr} (hi : isBusCycle i = false) (s : State) : rowTaken s i = none := by
  cases i <;> cases hi <;> rfl

/-- A control operation is no access of either range. -/
theorem noAccess_of_control {i : Instr} (hi : isBusCycle i = false) (s : State) :
    isWindowAccess s i = false ∧ isRegisterAccess s i = false := by
  simp [isWindowAccess, isRegisterAccess, rowTaken_of_control hi s]

/-! ### What the operations do to the flag -/

/-- Only the window row can set the flag, and it leaves whether the window is open. -/
theorem validAfter_eq_true {row : BusRow} {s : State} (h : validAfter row s = true) :
    s.blk.valid = true ∨ (row = .window ∧ s.windowOpen = true) := by
  cases row with
  | window => exact .inr ⟨rfl, h⟩
  | reg => cases h
  | _ => exact .inl h

theorem validAfter_other {row : BusRow} {s : State} (hw : row ≠ .window) (hr : row ≠ .reg) :
    validAfter row s = s.blk.valid := by
  cases row with
  | window => exact absurd rfl hw
  | reg => exact absurd rfl hr
  | _ => rfl

theorem windowOpen_iff {s : State} : s.windowOpen = true ↔ s.blk.enabled = true ∧ s.blk.switchOn = true :=
  Bool.and_eq_true_iff

/-- A control operation keeps the flag, but for a load and a reset, which may clear it. -/
theorem ControlStep.valid {s t : State} {i : Instr} (hc : ControlStep s i t) :
    t.blk.valid = s.blk.valid ∨ ((i = .snapload ∨ i = .reset) ∧ t.blk.valid = false) := by
  cases hc with
  | loadEnabled | loadDisabled => exact .inr ⟨.inl rfl, rfl⟩
  | reset => exact .inr ⟨.inr rfl, rfl⟩
  | enable | switch => left; simp
  | disable => left; simp [State.disablePath_blk]
  | attach m u hu => left; simp [hu.kept]
  | detach => left; simp [s.ensureDisabled_kept]
  | _ => exact .inl rfl

/-- A load that succeeds has reached the contents of the record (R212). -/
theorem valid_of_snapload_ok {s t : State} (h : exec .snapload s = .next t) (hok : t.out.result = .ok) :
    t.blk.valid = false := by
  obtain ⟨-, h⟩ := snapload_next h
  unfold loadRecord at h
  split at h
  · split at h
    · rcases ensureEnabled_ready h with ⟨u, -, rfl⟩ | rfl
      · rfl
      · cases hok
    · cases h; rfl
  · cases h; cases hok

/-- Settles O29. Among bus cycles the row alone decides: the window row leaves whether the window is open, the register row clears,
any other row keeps. Among control operations only a load and a reset write the flag. -/
theorem validIsSetOnlyByMappedWindowAccess : Obligations.ValidIsSetOnlyByMappedWindowAccess := by
  unfold Obligations.ValidIsSetOnlyByMappedWindowAccess
  intro i s t h
  cases hi : isBusCycle i with
  | true =>
    obtain ⟨row, a, hrow, f⟩ := bus_frame hi h
    simp only [isWindowAccess_eq hrow, isRegisterAccess_eq hrow, f.valid, decide_eq_true_eq, decide_eq_false_iff_not]
    refine ⟨fun hv => ?_, ?_, ?_, fun hw hr _ _ => validAfter_other hw hr⟩
    · simpa only [windowOpen_iff] using validAfter_eq_true hv
    · rintro rfl; rfl
    · rintro (rfl | rfl | ⟨rfl, -⟩)
      · rfl
      · cases hi
      · cases hi
  | false =>
    obtain ⟨hw, hr⟩ := noAccess_of_control hi s
    have hvalid := (control_step hi h).valid
    rw [hw, hr]
    refine ⟨fun hv => ?_, nofun, ?_, fun _ _ hreset hload => ?_⟩
    · rcases hvalid with hk | ⟨-, hc⟩
      · exact .inl (hk ▸ hv)
      · rw [hc] at hv; cases hv
    · rintro (hf | rfl | ⟨rfl, hok⟩)
      · cases hf
      · cases h; rfl
      · exact valid_of_snapload_ok h hok
    · rcases hvalid with hk | ⟨hload' | hreset', -⟩
      · exact hk
      · exact absurd hload' hload
      · exact absurd hreset' hreset

end Sys2Proof.Machine
end

section
/-! SUPPORT. The freeze latch against the event sequence (R24, R147): what each update of the flags emits and does to the latch, and
the paths put together from them. -/

namespace Sys2Proof.Machine

/-- From `s` to `t` the latch is kept, and the events emitted are none of the two NMI events. -/
def LatchKept (s t : State) : Prop :=
  t.blk.freezePending = s.blk.freezePending ∧
    ∃ es, t.out.events = s.out.events ++ es ∧ .nmiTrigger ∉ es ∧ .nmiRelease ∉ es

/-- From `s` to `t` the latch is set exactly with NmiTrigger, and cleared exactly with NmiRelease. -/
def LatchFollows (s t : State) : Prop :=
  ∃ es, t.out.events = s.out.events ++ es ∧
    (.nmiTrigger ∈ es ↔ s.blk.freezePending = false ∧ t.blk.freezePending = true) ∧
    (.nmiRelease ∈ es ↔ s.blk.freezePending = true ∧ t.blk.freezePending = false)

section Rules

variable {s u t : State}

theorem newEvents_of_append {es : List Event} (h : t.out.events = s.out.events ++ es) : newEvents s t = es := by
  rw [newEvents, h, List.drop_left]

theorem LatchKept.of_eq (hf : t.blk.freezePending = s.blk.freezePending) (he : t.out.events = s.out.events) :
    LatchKept s t :=
  ⟨hf, [], by simpa using he, by simp, by simp⟩

theorem LatchKept.follows (h : LatchKept s t) : LatchFollows s t := by
  obtain ⟨hf, es, he, ht, hr⟩ := h
  refine ⟨es, he, ?_, ?_⟩ <;> rw [hf] <;> cases s.blk.freezePending <;> simp [ht, hr]

theorem LatchKept.trans_follows (h : LatchKept s u) (h' : LatchFollows u t) : LatchFollows s t := by
  obtain ⟨hf, es, he, ht, hr⟩ := h
  obtain ⟨es', he', ht', hr'⟩ := h'
  exact ⟨es ++ es', by rw [he', he, List.append_assoc], by simpa [ht, hf] using ht', by simpa [hr, hf] using hr'⟩

theorem LatchFollows.trans_kept (h : LatchFollows s u) (h' : LatchKept u t) : LatchFollows s t := by
  obtain ⟨es, he, ht, hr⟩ := h
  obtain ⟨hf', es', he', ht', hr'⟩ := h'
  exact ⟨es ++ es', by rw [he', he, List.append_assoc], by simpa [ht', hf'] using ht, by simpa [hr', hf'] using hr⟩

/-! ### The updates of the flags -/

theorem mapConfig_latchKept (s : State) : LatchKept s s.mapConfig := ⟨rfl, [.cfgMapped], rfl, by simp, by simp⟩

/-- The NMI entry sets the latch of a state that is not frozen (R142). -/
theorem raiseNmi_latchFollows (hf : s.blk.freezePending = false) : LatchFollows s s.raiseNmi :=
  ⟨[.nmiTrigger], rfl, by simp [hf], by simp [hf]⟩

/-- The withdrawal emits NmiRelease exactly when it clears a pending freeze (R147). -/
theorem revert_latchFollows (s : State) : LatchFollows s s.revert := by
  refine ⟨_, by rw [State.revert_out], ?_, ?_⟩ <;> cases hf : s.blk.freezePending <;> simp

end Rules

/-! ### The paths -/

section Paths

variable {s t : State}

theorem Ready.latchKept {u : State} (hu : Ready s u) : LatchKept s u := by
  cases hu with
  | already => exact .of_eq rfl rfl
  | enabling =>
    refine ⟨by simp, _, by rw [State.enablePath_out]; rfl, ?_, ?_⟩ <;> cases hs : s.blk.switchOn <;> simp [hs]

theorem unregisterAndFree_latchKept (s : State) : LatchKept s s.unregisterAndFree := .of_eq (by simp) rfl

theorem disablePath_latchFollows (s : State) : LatchFollows s s.disablePath := by
  unfold State.disablePath
  split
  · exact (revert_latchFollows s).trans_kept (unregisterAndFree_latchKept _)
  · exact (unregisterAndFree_latchKept s).follows

theorem ensureDisabled_latchFollows (s : State) : LatchFollows s s.ensureDisabled := by
  unfold State.ensureDisabled
  split
  · exact disablePath_latchFollows s
  · exact (LatchKept.of_eq rfl rfl).follows

/-- With the switch off no freeze is pending (INV6). -/
abbrev QuietWhenOff (s : State) : Prop := s.blk.switchOn = false → s.blk.freezePending = false

theorem moveSwitch_latchFollows (hq : QuietWhenOff s) {b : Bool} (hb : b ≠ s.blk.switchOn) :
    LatchFollows s (s.moveSwitch b) := by
  unfold State.moveSwitch
  dsimp only
  split
  · split
    · next hon =>
      have hf : s.blk.freezePending = false := hq (by simpa [hon] using hb)
      exact (mapConfig_latchKept _).trans_follows (raiseNmi_latchFollows hf)
    · exact revert_latchFollows _
  · exact (LatchKept.of_eq rfl rfl).follows

theorem loadSwitch_latchFollows (hq : QuietWhenOff s) (b : Bool) : LatchFollows s (s.loadSwitch b) := by
  unfold State.loadSwitch
  dsimp only
  split
  · exact (LatchKept.of_eq rfl rfl).follows
  · next hb =>
    split
    · split
      · next hon =>
        have hf : s.blk.freezePending = false := hq (by simpa [hon] using hb)
        split
        · exact (mapConfig_latchKept _).trans_follows (raiseNmi_latchFollows hf)
        · exact (mapConfig_latchKept _).follows
      · exact revert_latchFollows _
    · exact (LatchKept.of_eq rfl rfl).follows

/-- While disabled the load's switch moves alone (R212). -/
theorem loadSwitch_latchKept_of_disabled (he : s.blk.enabled = false) (b : Bool) : LatchKept s (s.loadSwitch b) := by
  unfold State.loadSwitch
  dsimp only
  split
  · exact .of_eq rfl rfl
  · simp only [he]
    exact .of_eq rfl rfl

theorem State.ensureDisabled_enabled (s : State) : s.ensureDisabled.blk.enabled = false := by
  unfold State.ensureDisabled
  split
  · rw [State.disablePath_blk]
  · next he => simpa using he

/-- Every control operation but RESET. -/
theorem ControlStep.latchFollows {i : Instr} (hc : ControlStep s i t) (hq : QuietWhenOff s) (hi : i ≠ .reset) :
    LatchFollows s t := by
  cases hc with
  | ends | noMemory | register | unregister | setdef => exact (LatchKept.of_eq rfl rfl).follows
  | enable he => exact (Ready.enabling he).latchKept.follows
  | disable => exact disablePath_latchFollows s
  | switch b hb => exact moveSwitch_latchFollows hq hb
  | loadEnabled u hu =>
    have hq' : QuietWhenOff u := by
      obtain ⟨hs, -, hf, -⟩ := hu.kept
      rwa [QuietWhenOff, hs, hf]
    exact hu.latchKept.trans_follows (loadSwitch_latchFollows hq' _)
  | loadDisabled =>
    exact (ensureDisabled_latchFollows s).trans_kept (loadSwitch_latchKept_of_disabled s.ensureDisabled_enabled _)
  | attach m u hu => exact hu.latchKept.follows
  | detach => exact ensureDisabled_latchFollows s
  | reset => exact absurd rfl hi

theorem exec_latchFollows {i : Instr} (hq : QuietWhenOff s) (hi : i ≠ .reset) (h : exec i s = .next t) :
    LatchFollows s t := by
  cases hb : isBusCycle i with
  | true =>
    obtain ⟨row, a, -, f⟩ := bus_frame hb h
    obtain ⟨-, -, hf, -⟩ := f.kept
    exact (LatchKept.of_eq hf f.events).follows
  | false => exact (control_step hb h).latchFollows hq hi

end Paths

/-- Settles O38: every operation but RESET is put together from updates that move the latch with its events; INV6 keeps an NMI entry
from finding the latch set. RESET clears the latch and emits nothing (R260). -/
theorem latchFollowsTheEvents : Obligations.LatchFollowsTheEvents := by
  unfold Obligations.LatchFollowsTheEvents
  intro i s t hinv h
  obtain ⟨-, hb, -⟩ := s.inv_iff.1 hinv
  refine ⟨fun hi => ?_, ?_⟩
  · obtain ⟨es, he, hiff⟩ := exec_latchFollows (fun hs => (hb.quiet_of_switchOff hs).2) hi h
    rwa [newEvents_of_append he]
  · rintro rfl
    cases h
    exact ⟨rfl, newEvents_of_append (List.append_nil _).symm⟩

end Sys2Proof.Machine
end

section
/-! SUPPORT. The store through the window and the vector fetch (R64, R68, R183, R186): what the class rows make of each while Mapped,
and that the one reads what the other stored. -/

namespace Sys2Proof.Machine

/-! ### The ranges of the parameters -/

theorem isVector_iff {c : Config} {a : Addr} : isVector c a = true ↔ a = c.vecLo ∨ a = c.vecHi := by
  simp [isVector]

/-- What R8 (c) and (d) say of the ROM-high range: it holds both vector addresses, and no address of the ROM-low range. -/
structure RomhRange (c : Config) : Prop where
  vector_mem : ∀ a, isVector c a = true → inRange c.romhBase c.romhEnd a = true
  roml_disjoint : ∀ a, inRange c.romhBase c.romhEnd a = true → inRange c.romlBase c.romlEnd a = false

theorem romhRange_of_ok {c : Config} (h : paramsOk c = true) : RomhRange c := by
  simp only [paramsOk, rangesOk, Bool.and_eq_true, decide_eq_true_eq] at h
  obtain ⟨⟨-, ⟨hdisjoint, hlo, hhi⟩, -⟩, -⟩ := h
  constructor
  · intro a ha
    rcases isVector_iff.1 ha with rfl | rfl
    · exact hlo
    · exact hhi
  · intro a ha
    have hpair : disjointRanges (c.romlBase, c.romlEnd) (c.romhBase, c.romhEnd) = true :=
      List.rel_of_pairwise_cons hdisjoint.of_cons.of_cons List.mem_cons_self
    exact Bool.eq_false_iff.2 fun hlow => (disjointRanges_iff _ _).1 hpair a ⟨hlow, ha⟩

/-! ### The two cycles while Mapped -/

section Mapped

variable {s : State} {m : Memory}

/-- The window's write of an open window: the byte at the window offset of the reduced address, and `valid` (R183). -/
theorem exec_buswr_window {a : Addr} {v : Byte} {e : Entry} (ho : s.windowOpen = true) (hm : s.blk.mem = some m)
    (hw : winner s a = some e) (hr : e.desc.role = .win) :
    exec (.buswr a v) s =
      .next (((s.putMem m (windowOffset s.cfg s.blk.page (a &&& e.desc.mask)) v).setValid true).finishWrite
        (some (.entry e.id))) := by
  simp only [exec, execBuswr, busWrite, hw, entryWrite, hr, windowWriteVia, if_pos ho, hm, reducedAddr]

/-- A read cycle at a vector address that no entry takes falls to ROM-high while Mapped (R115), whose handler redirects it to the
onboard byte at the window offset of the full address (R186). -/
theorem exec_busrd_vector {vec : Addr} (hp : paramsOk s.cfg = true) (hc : s.blk.cfgMapped = true) (ho : s.windowOpen = true)
    (hm : s.blk.mem = some m) (hv : isVector s.cfg vec = true) (hw : winner s vec = none) :
    exec (.busrd vec) s = .next (s.finishRead (m.read (windowOffset s.cfg s.blk.page vec)) (some .romh) none) := by
  have hromh := (romhRange_of_ok hp).vector_mem vec hv
  have hroml := (romhRange_of_ok hp).roml_disjoint vec hromh
  have hfall : fallRead vec s = romhReadAt vec s := by simp [fallRead, hc, hromh, hroml]
  simp only [exec, execBusrd, busRead, hw, hfall, romhReadAt, hv, ho, hm, Bool.and_self, if_true]

end Mapped

/-- Addresses with the same in-page part have the same window offset (R132). -/
theorem windowOffset_congr {c : Config} {a b : Addr} (h : a &&& c.pageMask = b &&& c.pageMask) (page : Nat) :
    windowOffset c page a = windowOffset c page b := by
  rw [windowOffset, windowOffset, h]

/-- The window addresses 0xDFFA and 0xDFFB have the in-page parts of the two canonical vector addresses (R64, R242). -/
theorem canonical_vector_window (p : Addr × Addr)
    (hp : p ∈ [(0xDFFA#16, Config.canonical.vecLo), (0xDFFB#16, Config.canonical.vecHi)]) :
    p.2 &&& Config.canonical.pageMask = p.1 &&& (winDesc .canonical).mask &&& Config.canonical.pageMask := by
  rcases List.mem_pair.1 hp with rfl | rfl <;> decide

/-- Settles O28: the window stores at the offset of the reduced address, the vector fetch reads at the offset of the full one, and the
in-page parts agree. INV2 gives the memory, INV5 the mapped configuration. -/
theorem vectorFetchReadsWindowStore : Obligations.VectorFetchReadsWindowStore := by
  unfold Obligations.VectorFetchReadsWindowStore
  refine ⟨fun s v a vec e hinv he hs hwin hrole hvec hnone hpage => ?_, canonical_vector_window⟩
  obtain ⟨hp, hb, -⟩ := s.inv_iff.1 hinv
  obtain ⟨m, hm⟩ := Option.isSome_iff_exists.1 (hb.memPresent.trans he)
  have ho : s.windowOpen = true := windowOpen_iff.2 ⟨he, hs⟩
  have hc : s.blk.cfgMapped = true := hb.cfgMapped.trans ho
  refine ⟨_, _, exec_buswr_window ho hm hwin hrole, exec_busrd_vector hp hc ho rfl (isVector_iff.2 hvec) hnone, ?_, rfl, rfl⟩
  have hread : (m.write (windowOffset s.cfg s.blk.page (a &&& e.desc.mask)) v).read (windowOffset s.cfg s.blk.page vec) = v := by
    rw [windowOffset_congr hpage, Memory.read_write_same (hb.memCanonical m hm).1]
  exact congrArg some hread

end Sys2Proof.Machine
end

section
/-! SUPPORT. The encoding (R80 to R92) read both ways: which operation an operation code and its 24 operand bits mean, and what the
decoder takes from a stream. -/

namespace Sys2Proof

/-! ### The word and its fields -/

/-- The 24 operand bits of a word (R80). -/
def operandsOf (w : Word) : BitVec 24 := w.extractLsb' 0 24

@[simp] theorem operandsOf_ctlWord (op : BitVec 4) (v : BitVec 24) : operandsOf (ctlWord op v) = v := by
  unfold operandsOf
  rw [extract_ctlWord op v 0 24 le_rfl, BitVec.extractLsb'_eq_self]

/-- A bus word's operand bits are the address and the data byte. -/
theorem busWord_eq_ctlWord (op : BitVec 4) (a : Addr) (d : Byte) : busWord op a d = ctlWord op (a ++ d) :=
  BitVec.append_assoc

/-- A word whose z field is 0 is its operation code and its operand bits. -/
theorem eq_ctlWord_of_zOf {w : Word} (hz : zOf w = 0#4) : w = ctlWord (opOf w) (operandsOf w) := by
  unfold ctlWord
  rw [← hz]
  unfold opOf zOf operandsOf
  rw [BitVec.extractLsb'_append_extractLsb'_eq_extractLsb' (by decide),
    BitVec.extractLsb'_append_extractLsb'_eq_extractLsb' (by decide), BitVec.extractLsb'_eq_self]

theorem bit_bit0Of (w : Word) : bit (bit0Of w) = w.extractLsb' 0 1 := by
  ext i hi
  simp [bit, bit0Of, show i = 0 by omega]

/-- The low bits of a word, cut at bit `k`. -/
theorem extractLsb'_split {n : Nat} (x : BitVec n) (k m : Nat) :
    x.extractLsb' 0 (m + k) = x.extractLsb' k m ++ x.extractLsb' 0 k :=
  (BitVec.extractLsb'_append_extractLsb'_eq_extractLsb' (Nat.zero_add k).symm).symm

theorem operandsOf_eq_addr_data (w : Word) : operandsOf w = addrOf w ++ dataOf w := extractLsb'_split w 8 16

theorem operandsOf_eq_byteArg {w : Word} (h : addrOf w = 0#16) : operandsOf w = byteArg (dataOf w) := by
  rw [operandsOf_eq_addr_data, h, byteArg]

theorem operandsOf_eq_bitArg {w : Word} (h : w.extractLsb' 1 23 = 0#23) : operandsOf w = bitArg (bit0Of w) := by
  rw [bitArg, bit_bit0Of, ← h]
  exact extractLsb'_split w 1 23

theorem operandsOf_eq_selector {w : Word} {r : BitVec 2} (h : w.extractLsb' 2 22 = 0#22) (hr : w.extractLsb' 0 2 = r) :
    operandsOf w = 0#22 ++ r := by
  rw [← h, ← hr]
  exact extractLsb'_split w 2 22

theorem operandsOf_eq_dispatchArg {w : Word} (h : w.extractLsb' 1 7 = 0#7) :
    operandsOf w = dispatchArg (addrOf w) (if bit0Of w then .read else .write) := by
  have hk : kindBit (if bit0Of w then .read else .write) = bit0Of w := by cases bit0Of w <;> rfl
  have hd : dataOf w = 0#7 ++ w.extractLsb' 0 1 := h ▸ extractLsb'_split w 1 7
  rw [dispatchArg, hk, bit_bit0Of, ← hd, operandsOf_eq_addr_data]

/-! ### The operations of one word -/

/-- Which operation of one word an operation code and the 24 operand bits mean (R82): a bus cycle as its class row. A read cycle has any
byte in its data field (R81). -/
inductive Means : BitVec 4 → BitVec 24 → Instr → Prop
  | buswr (a : Addr) (d : Byte) : Means 0x0#4 (a ++ d) (.buswr a d)
  | busrd (a : Addr) (d : Byte) : Means 0x1#4 (a ++ d) (.busrd a)
  | seten (b : Bool) : Means 0x2#4 (bitArg b) (.seten b)
  | setsw (b : Bool) : Means 0x3#4 (bitArg b) (.setsw b)
  | getresEnabled : Means 0x4#4 0#24 .getresEnabled
  | getresSwitchOn : Means 0x4#4 1#24 .getresSwitchOn
  | getresMode : Means 0x4#4 2#24 .getresMode
  | hunreg (id : BitVec 24) : Means 0x6#4 id (.hunreg id)
  | dispatch (a : Addr) (k : AccessKind) : Means 0x7#4 (dispatchArg a k) (.dispatch a k)
  | snapsave : Means 0x8#4 0#24 .snapsave
  | snapload : Means 0x9#4 0#24 .snapload
  | attach (m : ModelId) : Means 0xA#4 (byteArg m) (.attach m)
  | detach : Means 0xB#4 0#24 .detach
  | setdef : Means 0xC#4 0#24 .setdef
  | setmode (v : Byte) : Means 0xD#4 (byteArg v) (.setmode v)
  | reset : Means 0xF#4 0#24 .reset

theorem decodePlain_ok {w : Word} {i j : Instr} (h : decodePlain w j = .ok i) : operandsOf w = 0#24 ∧ i = j := by
  unfold decodePlain at h
  split at h <;> cases h
  exact ⟨‹_›, rfl⟩

theorem decodeBit_ok {w : Word} {f : Bool → Instr} {i : Instr} (h : decodeBit w f = .ok i) :
    ∃ b, operandsOf w = bitArg b ∧ i = f b := by
  unfold decodeBit at h
  split at h <;> cases h
  exact ⟨_, operandsOf_eq_bitArg ‹_›, rfl⟩

theorem decodeByte_ok {w : Word} {f : Byte → Instr} {i : Instr} (h : decodeByte w f = .ok i) :
    ∃ m, operandsOf w = byteArg m ∧ i = f m := by
  unfold decodeByte at h
  split at h <;> cases h
  exact ⟨_, operandsOf_eq_byteArg ‹_›, rfl⟩

theorem decodeGetres_ok {w : Word} {i : Instr} (h : decodeGetres w = .ok i) : Means 0x4#4 (operandsOf w) i := by
  unfold decodeGetres at h
  split at h
  · next hu =>
    split_ifs at h with h0 h1 h2 <;> cases h
    · exact operandsOf_eq_selector hu h0 ▸ .getresEnabled
    · exact operandsOf_eq_selector hu h1 ▸ .getresSwitchOn
    · exact operandsOf_eq_selector hu h2 ▸ .getresMode
  · cases h

theorem decodeDispatch_ok {w : Word} {i : Instr} (h : decodeDispatch w = .ok i) :
    ∃ a k, operandsOf w = dispatchArg a k ∧ i = .dispatch a k := by
  unfold decodeDispatch at h
  split at h <;> cases h
  exact ⟨_, _, operandsOf_eq_dispatchArg ‹_›, rfl⟩

theorem opOf_of_toNat {w : Word} {k : Nat} (h : (opOf w).toNat = k) : opOf w = BitVec.ofNat 4 k := by
  rw [← h, BitVec.ofNat_toNat, BitVec.setWidth_eq]

/-- What the reader of one-word operations answers is what the word means. -/
theorem means_of_decodeSingle {w : Word} {i : Instr} (h : decodeSingle w = .ok i) : Means (opOf w) (operandsOf w) i := by
  unfold decodeSingle at h
  split at h
  case h_15 => cases h
  all_goals rw [opOf_of_toNat ‹_›]
  · cases h; rw [operandsOf_eq_addr_data]; exact .buswr _ _
  · cases h; rw [operandsOf_eq_addr_data]; exact .busrd _ _
  · obtain ⟨b, hv, rfl⟩ := decodeBit_ok h; exact hv ▸ .seten b
  · obtain ⟨b, hv, rfl⟩ := decodeBit_ok h; exact hv ▸ .setsw b
  · exact decodeGetres_ok h
  · cases h; exact .hunreg _
  · obtain ⟨a, k, hv, rfl⟩ := decodeDispatch_ok h; exact hv ▸ .dispatch a k
  · obtain ⟨hv, rfl⟩ := decodePlain_ok h; exact hv ▸ .snapsave
  · obtain ⟨hv, rfl⟩ := decodePlain_ok h; exact hv ▸ .snapload
  · obtain ⟨m, hv, rfl⟩ := decodeByte_ok h; exact hv ▸ .attach m
  · obtain ⟨hv, rfl⟩ := decodePlain_ok h; exact hv ▸ .detach
  · obtain ⟨hv, rfl⟩ := decodePlain_ok h; exact hv ▸ .setdef
  · obtain ⟨m, hv, rfl⟩ := decodeByte_ok h; exact hv ▸ .setmode m
  · obtain ⟨hv, rfl⟩ := decodePlain_ok h; exact hv ▸ .reset

/-- A word is read as what it means. -/
theorem decodeSingle_of_means {op : BitVec 4} {v : BitVec 24} {i : Instr} (h : Means op v i) :
    decodeSingle (ctlWord op v) = .ok i := by
  cases h with
  | buswr a d => simp [decodeSingle, ← busWord_eq_ctlWord]
  | busrd a d => simp [decodeSingle, ← busWord_eq_ctlWord]
  | seten b => simp [decodeSingle, decodeBit]
  | setsw b => simp [decodeSingle, decodeBit]
  | getresEnabled => rfl
  | getresSwitchOn => rfl
  | getresMode => rfl
  | hunreg id => simp [decodeSingle, extract_ctlWord]
  | dispatch a k => cases k <;> simp [decodeSingle, decodeDispatch, kindBit]
  | snapsave => rfl
  | snapload => rfl
  | attach m => simp [decodeSingle, decodeByte]
  | detach => rfl
  | setdef => rfl
  | setmode m => simp [decodeSingle, decodeByte]
  | reset => rfl

/-! ### HREG (R87) -/

theorem roleCode_of_roleOf {c : BitVec 2} {r : Role} (h : roleOf c = some r) : roleCode r = c := by
  unfold roleOf at h
  split_ifs at h with h0 h1 h2 <;> cases h
  · exact h0.symm
  · exact h1.symm
  · exact h2.symm

theorem highHalfOf_append_lowHalfOf (w : Word) : highHalfOf w ++ lowHalfOf w = w := by
  rw [highHalfOf, lowHalfOf, ← extractLsb'_split w 16 16, BitVec.extractLsb'_eq_self]

theorem bit_bit1Of (w : Word) : bit (bit1Of w) = w.extractLsb' 1 1 := by
  ext i hi
  simp [bit, bit1Of, show i = 0 by omega]

/-- The first word of an HREG is put together from its fields. -/
theorem hregWord0_of_fields {w : Word} {d : Descriptor} (ho : opOf w = 0x5#4) (hz : zOf w = 0#4)
    (hown : d.ownerId = hregOwnerOf w) (hu : hregUnusedOf w = 0#12) (hr : roleCode d.role = hregRoleOf w)
    (he : d.exclusive = bit1Of w) (hc : d.readCapable = bit0Of w) : hregWord0 d = w := by
  rw [hregWord0, ← ho, ← hz, hown, ← hu, hr, he, hc, bit_bit1Of, bit_bit0Of]
  unfold opOf zOf hregOwnerOf hregUnusedOf hregRoleOf
  iterate 6 rw [BitVec.extractLsb'_append_extractLsb'_eq_extractLsb' (by decide)]
  rw [BitVec.extractLsb'_eq_self]

/-- What the HREG reader answers has the words of its descriptor at the head of the stream. -/
theorem hregWords_of_decodeHreg {w : Word} {ws rest : List Word} {i : Instr} (ho : opOf w = 0x5#4) (hz : zOf w = 0#4)
    (h : decodeHreg w ws = .ok (i, rest)) : ∃ d, i = .hreg d ∧ w :: ws = hregWords d ++ rest := by
  unfold decodeHreg at h
  split at h
  · next w1 w2 more =>
    split at h
    · next hu =>
      split at h
      · cases h
      · next role hr =>
        split at h <;> cases h
        next hh =>
          refine ⟨_, rfl, ?_⟩
          rw [hregWords_eq, hregWord0_of_fields ho hz rfl hu (roleCode_of_roleOf hr) rfl rfl, highHalfOf_append_lowHalfOf,
            ← hh, highHalfOf_append_lowHalfOf]
          rfl
    · cases h
  · cases h

theorem decodeHreg_hregWords (d : Descriptor) (rest : List Word) :
    decodeHreg (hregWord0 d) ((d.base ++ d.endAddr) :: (0#16 ++ d.mask) :: rest) = .ok (.hreg d, rest) := by
  simp [decodeHreg]

/-! ### The stream -/

theorem Means.op_single {op : BitVec 4} {v : BitVec 24} {i : Instr} (h : Means op v i) : op ≠ 0xE#4 ∧ op ≠ 0x5#4 := by
  cases h <;> decide

/-- What the decoder answers: a word that means the operation, or the three words of an HREG, at the head of the stream. -/
theorem decodeOp_ok_iff {ws rest : List Word} {i : Instr} : decodeOp ws = .ok (i, rest) ↔
    (∃ op v, Means op v i ∧ ws = ctlWord op v :: rest) ∨ ∃ d, i = .hreg d ∧ ws = hregWords d ++ rest := by
  constructor
  · intro h
    cases ws with
    | nil => cases h
    | cons w ws =>
      simp only [decodeOp] at h
      split_ifs at h with hE hz h5
      · exact .inr (hregWords_of_decodeHreg h5 hz h)
      · split at h <;> cases h
        exact .inl ⟨_, _, means_of_decodeSingle ‹_›, by rw [← eq_ctlWord_of_zOf hz]⟩
  · rintro (⟨op, v, hm, rfl⟩ | ⟨d, rfl, rfl⟩)
    · obtain ⟨hE, h5⟩ := hm.op_single
      simp [decodeOp, hE, h5, decodeSingle_of_means hm]
    · simp [decodeOp, hregWords_eq, decodeHreg_hregWords]

theorem decodeWith_of_decodeOp {ws rest : List Word} {i : Instr} (h : decodeOp ws = .ok (i, rest)) (c : Config)
    (q : Addr → RowCond) : decodeWith c q ws = .ok (selectRow c q i, rest) := by
  rw [decodeWith, h]

/-! ### Decode and encode -/

/-- The words of a well-formed operation: one that means its class row, or those of an HREG. -/
theorem encode_cases {c : Config} {i : Instr} (h : i.wf c = true) :
    (∃ op v, Means op v i.classRow ∧ encode i = [ctlWord op v]) ∨ ∃ d, i.classRow = .hreg d ∧ encode i = hregWords d := by
  cases i with
  | foreignWrite a d | regWrite a d | windowWrite a d | romlWrite a d | romhWrite a d | fb1Write a d | fb2Write a d
  | sysWrite a d | buswr a d => exact .inl ⟨_, _, .buswr a d, by rw [← busWord_eq_ctlWord]; rfl⟩
  | foreignRead a | regRead a | windowRead a | romlRead a | romhRead a | fb1Read a | fb2Read a | sysRead a
  | busrd a => exact .inl ⟨_, _, .busrd a 0#8, by rw [← busWord_eq_ctlWord]; rfl⟩
  | seten b => exact .inl ⟨_, _, .seten b, rfl⟩
  | setsw b => exact .inl ⟨_, _, .setsw b, rfl⟩
  | getresEnabled => exact .inl ⟨_, _, .getresEnabled, rfl⟩
  | getresSwitchOn => exact .inl ⟨_, _, .getresSwitchOn, rfl⟩
  | getresMode => exact .inl ⟨_, _, .getresMode, rfl⟩
  | hreg d => exact .inr ⟨d, rfl, rfl⟩
  | hunreg id => exact .inl ⟨_, _, .hunreg id, rfl⟩
  | dispatch a k => exact .inl ⟨_, _, .dispatch a k, rfl⟩
  | snapsave => exact .inl ⟨_, _, .snapsave, rfl⟩
  | snapload => exact .inl ⟨_, _, .snapload, rfl⟩
  | attach m => exact .inl ⟨_, _, .attach m, rfl⟩
  | detach => exact .inl ⟨_, _, .detach, rfl⟩
  | setdef => exact .inl ⟨_, _, .setdef, rfl⟩
  | setmode v => exact .inl ⟨_, _, .setmode v, rfl⟩
  | reservedE bits => cases h
  | reset => exact .inl ⟨_, _, .reset, rfl⟩

theorem decodeOp_encode {c : Config} {i : Instr} (h : i.wf c = true) (rest : List Word) :
    decodeOp (encode i ++ rest) = .ok (i.classRow, rest) := by
  rw [decodeOp_ok_iff]
  rcases encode_cases h with ⟨op, v, hm, hw⟩ | ⟨d, hi, hw⟩
  · exact .inl ⟨op, v, hm, by rw [hw, List.singleton_append]⟩
  · exact .inr ⟨d, hi, by rw [hw]⟩

/-- Settles O4: the words of a well-formed operation mean its class row, and the row conditions then select the row. -/
theorem encodedOperationDecodesBack : Obligations.EncodedOperationDecodesBack := by
  unfold Obligations.EncodedOperationDecodesBack
  intro c q i rest h
  have hop := decodeOp_encode h rest
  refine ⟨hop, fun hi => ?_⟩
  rw [decodeWith_of_decodeOp hop, ← hi]

/-- A word meaning an operation is the operation's encoding, but for the data field of a read cycle (R81, R92). -/
theorem Means.encode_eq {op : BitVec 4} {v : BitVec 24} {i : Instr} (h : Means op v i) :
    encode i = [ctlWord op v] ∨
      ∃ (a : Addr) (d : Byte), i = .busrd a ∧ ctlWord op v = busWord 0x1#4 a d ∧ encode i = [busWord 0x1#4 a 0#8] := by
  cases h with
  | busrd a d => exact .inr ⟨a, d, rfl, (busWord_eq_ctlWord 0x1#4 a d).symm, rfl⟩
  | buswr a d => exact .inl (by rw [← busWord_eq_ctlWord]; rfl)
  | _ => exact .inl rfl

/-- Settles O5: what the decoder takes is one word that means the operation, or the three words of an HREG. -/
theorem decodedWordsEncodeBack : Obligations.DecodedWordsEncodeBack := by
  unfold Obligations.DecodedWordsEncodeBack
  intro ws i rest h
  rcases decodeOp_ok_iff.1 h with ⟨op, v, hm, rfl⟩ | ⟨d, rfl, rfl⟩
  · refine ⟨ctlWord op v, [], rfl, by simp [opLength, hm.op_single], ?_⟩
    rcases hm.encode_eq with he | ⟨a, d, hi, hw, he⟩
    · exact .inl he
    · exact .inr ⟨a, d, hi, rfl, hw, he⟩
  · exact ⟨hregWord0 d, _, rfl, by simp [opLength], .inl rfl⟩

/-! ### What a decoded operation can be -/

/-- A fall-through row is selected inside its range only. -/
theorem wf_busRow (c : Config) (q : RowCond) (a : Addr) (d : Byte) :
    ((busRow c q a).writeRow a d).wf c = true ∧ ((busRow c q a).readRow a).wf c = true := by
  unfold busRow
  split
  · next r _ => cases r <;> exact ⟨rfl, rfl⟩
  · split_ifs with hl hh h1 h2
    · exact ⟨(Bool.and_eq_true_iff.1 hl).2, (Bool.and_eq_true_iff.1 hl).2⟩
    · exact ⟨(Bool.and_eq_true_iff.1 hh).2, (Bool.and_eq_true_iff.1 hh).2⟩
    · exact ⟨(Bool.and_eq_true_iff.1 h1).2, (Bool.and_eq_true_iff.1 h1).2⟩
    · exact ⟨(Bool.and_eq_true_iff.1 h2).2, (Bool.and_eq_true_iff.1 h2).2⟩
    · exact ⟨rfl, rfl⟩

theorem inRange_iff {lo hi a : Addr} : inRange lo hi a = true ↔ lo.toNat ≤ a.toNat ∧ a.toNat ≤ hi.toNat := by
  simp [inRange, BitVec.le_def]

/-- The canonical rows below the registry. -/
theorem busRow_canonical_of_none (m : Bool) (a : Addr) : busRow .canonical { winner := none, mapped := m } a =
    if m = true ∧ 0x8000 ≤ a.toNat ∧ a.toNat ≤ 0x9FFF then .roml
    else if m = true ∧ 0xE000 ≤ a.toNat ∧ a.toNat ≤ 0xFFFF then .romh
    else if m = true ∧ 0x1000 ≤ a.toNat ∧ a.toNat ≤ 0x7FFF then .fb1
    else if m = true ∧ 0xA000 ≤ a.toNat ∧ a.toNat ≤ 0xBFFF then .fb2
    else .sys := by
  simp only [busRow_of_none, Bool.and_eq_true, inRange_iff]
  rfl

theorem isClassRow_row (row : BusRow) (a : Addr) (d : Byte) :
    Machine.isClassRow (row.writeRow a d) = false ∧ Machine.isClassRow (row.readRow a) = false := by
  cases row <;> exact ⟨rfl, rfl⟩

/-- Settles O6: a class row becomes the row its address and the state select; any other operation the words can mean is well formed. -/
theorem decodedOperationIsWellFormed : Obligations.DecodedOperationIsWellFormed := by
  unfold Obligations.DecodedOperationIsWellFormed
  intro c q ws i rest h
  cases hop : decodeOp ws with
  | error e => simp [decodeWith, hop] at h
  | ok p =>
    obtain ⟨j, more⟩ := p
    rw [decodeWith_of_decodeOp hop] at h
    cases h
    rcases decodeOp_ok_iff.1 hop with ⟨op, v, hm, -⟩ | ⟨d, rfl, -⟩
    · cases hm with
      | buswr a d => exact ⟨(wf_busRow c (q a) a d).1, (isClassRow_row _ a d).1⟩
      | busrd a d => exact ⟨(wf_busRow c (q a) a d).2, (isClassRow_row _ a d).2⟩
      | _ => exact ⟨rfl, rfl⟩
    · exact ⟨rfl, rfl⟩

/-- Settles O3: each stream is evaluated. -/
theorem specWordsDecode : Obligations.SpecWordsDecode := by
  unfold Obligations.SpecWordsDecode
  decide

/-! ### The reserved encodings (R90) -/

/-- The reserved encodings (a) to (e) of R90, of a word with the words after it. -/
def IsReserved (w : Word) (ws : List Word) : Prop :=
  opOf w = 0xE#4 ∨
  zOf w ≠ 0#4 ∨
  (∃ start len, Machine.unusedField (opOf w) = some (start, len) ∧ w.extractLsb' start len ≠ 0) ∨
  (opOf w = 0x4#4 ∧ w.extractLsb' 0 2 = 3#2) ∨
  (opOf w = 0x5#4 ∧ hregRoleOf w = 3#2) ∨
  (opOf w = 0x5#4 ∧ ∃ w1 w2 more, ws = w1 :: w2 :: more ∧ highHalfOf w2 ≠ 0#16)

/-- A word that means an operation has 0 in the bits its row does not use (R90 (c)). -/
theorem Means.unused_zero {op : BitVec 4} {v : BitVec 24} {i : Instr} (h : Means op v i) {start len : Nat}
    (hf : Machine.unusedField op = some (start, len)) : (ctlWord op v).extractLsb' start len = 0 := by
  cases h <;> cases hf
  case seten b => exact unused_bitArg 0x2#4 b
  case setsw b => exact unused_bitArg 0x3#4 b
  case dispatch a k => exact unused_dispatchArg 0x7#4 a k
  case attach m => exact addrOf_byteArg 0xA#4 m
  case setmode m => exact addrOf_byteArg 0xD#4 m
  all_goals rfl

/-- No GETRES has the selector 3 (R90 (d)). -/
theorem Means.selector_ne {op : BitVec 4} {v : BitVec 24} {i : Instr} (h : Means op v i) (hop : op = 0x4#4) :
    (ctlWord op v).extractLsb' 0 2 ≠ 3#2 := by
  cases h <;> cases hop <;> decide

theorem Means.not_isReserved {op : BitVec 4} {v : BitVec 24} {i : Instr} (h : Means op v i) (ws : List Word) :
    ¬ IsReserved (ctlWord op v) ws := by
  obtain ⟨hE, h5⟩ := h.op_single
  unfold IsReserved
  rw [opOf_ctlWord, zOf_ctlWord]
  rintro (ha | hb | ⟨start, len, hf, hc⟩ | ⟨h4, hd⟩ | ⟨he, -⟩ | ⟨he, -⟩)
  · exact hE ha
  · exact hb rfl
  · exact hc (h.unused_zero hf)
  · exact h.selector_ne h4 hd
  · exact h5 he
  · exact h5 he

theorem hregWords_not_isReserved (d : Descriptor) (ws : List Word) :
    ¬ IsReserved (hregWord0 d) ((d.base ++ d.endAddr) :: (0#16 ++ d.mask) :: ws) := by
  unfold IsReserved
  rw [opOf_hregWord0, zOf_hregWord0, hregRoleOf_hregWord0]
  rintro (ha | hb | ⟨start, len, hf, hc⟩ | ⟨h4, -⟩ | ⟨-, he⟩ | ⟨-, w1, w2, more, hw, he⟩)
  · cases ha
  · exact hb rfl
  · cases hf
    exact hc (hregUnusedOf_hregWord0 d)
  · cases h4
  · cases hr : d.role <;> rw [hr] at he <;> cases he
  · cases hw
    exact he (highHalfOf_append 0#16 d.mask)

/-- The decoder has no answer at a reserved encoding. -/
theorem decodeOp_of_isReserved {w : Word} {ws : List Word} (h : IsReserved w ws) : ∃ e, decodeOp (w :: ws) = .error e := by
  cases hop : decodeOp (w :: ws) with
  | error e => exact ⟨e, rfl⟩
  | ok p =>
    rcases decodeOp_ok_iff.1 hop with ⟨op, v, hm, hw⟩ | ⟨d, -, hw⟩
    · cases hw
      exact absurd h (hm.not_isReserved _)
    · cases hw
      exact absurd h (hregWords_not_isReserved d _)

/-- The words `0xD00000vv` are those of SETMODE (R166). -/
theorem eq_setmode_of_high {w : Word} (h : w.extractLsb' 8 24 = 0xD00000#24) : w = ctlWord 0xD#4 (byteArg (dataOf w)) := by
  calc w = w.extractLsb' 8 24 ++ dataOf w := (extractLsb'_split w 8 24 ▸ BitVec.extractLsb'_eq_self).symm
    _ = 0xD#4 ++ 0#4 ++ 0#16 ++ dataOf w := by rw [h]; rfl
    _ = ctlWord 0xD#4 (byteArg (dataOf w)) := BitVec.append_assoc

end Sys2Proof
end

section
/-! SUPPORT. The step at a word of the stream (R83, R84, R90): reserved encodings, and the row the state selects for a bus word. -/

namespace Sys2Proof.Machine

/-! ### The step at a word -/

theorem step_of_decodeError {s : State} {w : Word} {ws : List Word} {e : DecodeError} (hp : paramsOk s.cfg = true)
    (hs : s.env.script = w :: ws) (h : decodeOp (w :: ws) = .error e) : step s = .refused (.reservedEncoding e) := by
  simp only [step, if_pos hp, hs, nextOp, decodeWith, h]

theorem nextOp_of_decodeOp {s : State} {ws rest : List Word} {i : Instr} (hs : s.env.script = ws)
    (h : decodeOp ws = .ok (i, rest)) : nextOp s = .ok (selectRow s.cfg (rowCond s) i, rest) := by
  rw [nextOp, hs, decodeWith_of_decodeOp h]

theorem nextOp_of_means {s : State} {op : BitVec 4} {v : BitVec 24} {i : Instr} {rest : List Word} (h : Means op v i)
    (hs : s.env.script = ctlWord op v :: rest) : nextOp s = .ok (selectRow s.cfg (rowCond s) i, rest) :=
  nextOp_of_decodeOp hs (decodeOp_ok_iff.2 (.inl ⟨op, v, h, rfl⟩))

/-- Settles O2: the decoder has no answer at a reserved encoding, and SETMODE and GETRES 2 are decoded and refused by their meaning. -/
theorem reservedEncodingsAreRefused : Obligations.ReservedEncodingsAreRefused := by
  unfold Obligations.ReservedEncodingsAreRefused
  refine fun s w rest hp hs => ⟨fun hr => ?_, ?_⟩
  · obtain ⟨e, he⟩ := decodeOp_of_isReserved hr
    exact ⟨e, step_of_decodeError hp hs he⟩
  · rintro (hw | rfl)
    · rw [eq_setmode_of_high hw] at hs
      rw [step_of_nextOp hp (nextOp_of_means (.setmode _) hs)]
      rfl
    · rw [step_of_nextOp hp (nextOp_of_means .getresMode hs)]
      rfl

/-! ### The handler rows in the states that select them (R83, R115) -/

theorem rowCond_of_winner {s : State} {a : Addr} {e : Entry} (h : winner s a = some e) :
    rowCond s a = { winner := some e.desc.role, mapped := s.blk.cfgMapped } := by
  rw [rowCond, h]
  rfl

theorem rowCond_of_none {s : State} {a : Addr} (h : winner s a = none) :
    rowCond s a = { winner := none, mapped := s.blk.cfgMapped } := by
  rw [rowCond, h]
  rfl

/-- A write cycle is the meaning of the handler row that the state selects. -/
theorem exec_writeRow_busRow (s : State) (a : Addr) (v : Byte) :
    exec ((busRow s.cfg (rowCond s a) a).writeRow a v) s = busWrite a v s := by
  cases hw : winner s a with
  | some e =>
    rw [busRow_of_winner s.cfg _ a (by rw [rowCond_of_winner hw])]
    simp only [busWrite, hw, entryWrite]
    cases hr : e.desc.role with
    | reg => simp only [Role.row, BusRow.writeRow, exec, execRegWrite, calledThrough_of_winner hw hr]
    | win => simp only [Role.row, BusRow.writeRow, exec, execWindowWrite, calledThrough_of_winner hw hr]
    | foreign => simp only [Role.row, BusRow.writeRow, exec, execForeignWrite, hw, if_pos hr]
  | none =>
    rw [rowCond_of_none hw, busRow_of_none]
    simp only [busWrite, hw, fallWrite]
    split_ifs <;> rfl

/-- A read cycle is the meaning of the handler row that the state selects. -/
theorem exec_readRow_busRow (s : State) (a : Addr) :
    exec ((busRow s.cfg (rowCond s a) a).readRow a) s = busRead a s := by
  cases hw : winner s a with
  | some e =>
    rw [busRow_of_winner s.cfg _ a (by rw [rowCond_of_winner hw])]
    simp only [busRead, hw, entryRead]
    cases hr : e.desc.role with
    | reg => simp only [Role.row, BusRow.readRow, exec, execRegRead, calledThrough_of_winner hw hr]
    | win => simp only [Role.row, BusRow.readRow, exec, execWindowRead, calledThrough_of_winner hw hr]
    | foreign => simp only [Role.row, BusRow.readRow, exec, execForeignRead, hw, if_pos hr]
  | none =>
    rw [rowCond_of_none hw, busRow_of_none]
    simp only [busRead, hw, fallRead]
    split_ifs <;> rfl

/-- Settles O8: the class row is the cycle, and so is the handler row that the state selects. -/
theorem classRowActsAsItsHandlerRow : Obligations.ClassRowActsAsItsHandlerRow := by
  unfold Obligations.ClassRowActsAsItsHandlerRow
  exact fun s a v => ⟨(exec_writeRow_busRow s a v).symm, (exec_readRow_busRow s a).symm⟩

/-! ### The row of a bus word by its address (R84) -/

/-- With the own two entries alone in `H`, the canonical ranges pick the one that takes a cycle: they have no address in common. -/
theorem rowCond_own {s : State} {m n : Nat} (hc : s.cfg = .canonical)
    (hH : s.blk.H = [⟨m, regDesc s.cfg⟩, ⟨n, winDesc s.cfg⟩]) (a : Addr) : rowCond s a =
    { winner := if 0xDE00 ≤ a.toNat ∧ a.toNat ≤ 0xDEFF then some .reg
        else if 0xDF00 ≤ a.toNat ∧ a.toNat ≤ 0xDFFF then some .win else none
      mapped := s.blk.cfgMapped } := by
  have hreg : hits a ⟨m, regDesc .canonical⟩ = true ↔ 0xDE00 ≤ a.toNat ∧ a.toNat ≤ 0xDEFF := inRange_iff
  have hwin : hits a ⟨n, winDesc .canonical⟩ = true ↔ 0xDF00 ≤ a.toNat ∧ a.toNat ≤ 0xDFFF := inRange_iff
  have hchoose : winner s a = chooseDefault ([⟨m, regDesc .canonical⟩, ⟨n, winDesc .canonical⟩].filter (hits a)) := by
    rw [winner, hH, hc]
    rfl
  by_cases hr : 0xDE00 ≤ a.toNat ∧ a.toNat ≤ 0xDEFF
  · have hw : ¬(0xDF00 ≤ a.toNat ∧ a.toNat ≤ 0xDFFF) := by omega
    rw [List.filter_cons_of_pos (hreg.2 hr), List.filter_cons_of_neg (mt hwin.1 hw)] at hchoose
    rw [rowCond_of_winner hchoose, if_pos hr]
    rfl
  · rw [List.filter_cons_of_neg (mt hreg.1 hr)] at hchoose
    by_cases hw : 0xDF00 ≤ a.toNat ∧ a.toNat ≤ 0xDFFF
    · rw [List.filter_cons_of_pos (hwin.2 hw)] at hchoose
      rw [rowCond_of_winner hchoose, if_neg hr, if_pos hw]
      rfl
    · rw [List.filter_cons_of_neg (mt hwin.1 hw)] at hchoose
      rw [rowCond_of_none hchoose, if_neg hr, if_neg hw]

/-- With nothing in `H` no entry takes a cycle. -/
theorem winner_of_empty {s : State} (hc : s.cfg = .canonical) (hH : s.blk.H = []) (a : Addr) : winner s a = none := by
  rw [winner, hH, hc]
  rfl

/-- Settles O7: while enabled the two own ranges come first, then the canonical fall-through ranges; while disabled no
entry is in the way of them. -/
theorem busWordRowByAddress : Obligations.BusWordRowByAddress := by
  unfold Obligations.BusWordRowByAddress
  intro s m n a d rest hc hon hoff row
  have hrow : busRow s.cfg (rowCond s a) a = row := by
    cases he : s.blk.enabled with
    | true =>
      rw [rowCond_own hc (hon he), hc]
      simp only [row, he, true_and]
      by_cases hr : 0xDE00 ≤ a.toNat ∧ a.toNat ≤ 0xDEFF
      · simp only [if_pos hr]; rfl
      · by_cases hw : 0xDF00 ≤ a.toNat ∧ a.toNat ≤ 0xDFFF
        · simp only [if_neg hr, if_pos hw]; rfl
        · simp only [if_neg hr, if_neg hw, busRow_canonical_of_none]
    | false =>
      obtain ⟨hH, -⟩ := hoff he
      rw [rowCond_of_none (winner_of_empty hc hH a), hc, busRow_canonical_of_none]
      simp [row, he]
  refine ⟨fun hs => ?_, fun hs => ?_⟩
  · rw [← hrow]
    exact nextOp_of_means (.buswr a d) (busWord_eq_ctlWord 0x0#4 a d ▸ hs)
  · rw [← hrow]
    exact nextOp_of_means (.busrd a d) (busWord_eq_ctlWord 0x1#4 a d ▸ hs)

end Sys2Proof.Machine
end

section
/-! SUPPORT. The choice among the entries of the registry (R113, R114) and the operations of the registry (R110 to R112): the hit test as
a range, what an arbitration can choose, and what the room of a finite registry means. -/

namespace Sys2Proof.Machine

/-! ### The hit test and the choice -/

/-- R113: the inclusive range alone decides. -/
theorem hits_iff {a : Addr} {e : Entry} : hits a e = true ↔ e.desc.base.toNat ≤ a.toNat ∧ a.toNat ≤ e.desc.endAddr.toNat :=
  inRange_iff

/-- The default of R114 picks the newest exclusive entry, or, where no entry is exclusive, the newest. -/
theorem chooseDefault_cases {es : List Entry} {e : Entry} (h : chooseDefault es = some e) :
    newest (es.filter fun f => f.desc.exclusive) = some e ∨
    ((∀ f ∈ es, f.desc.exclusive = false) ∧ newest es = some e) := by
  unfold chooseDefault at h
  split at h
  · next hx => exact .inl (hx.trans h)
  · next hx =>
    have hnone := List.filter_eq_nil_iff.1 (newest_eq_none.1 hx)
    exact .inr ⟨fun f hf => Bool.eq_false_iff.2 (hnone f hf), h⟩

theorem chooseDefault_mem {es : List Entry} {e : Entry} (h : chooseDefault es = some e) : e ∈ es := by
  rcases chooseDefault_cases h with hx | ⟨-, hn⟩
  · exact (List.mem_filter.1 (newest_spec hx).1).1
  · exact (newest_spec hn).1

theorem chooseDefault_ne_none {es : List Entry} (hes : es ≠ []) : chooseDefault es ≠ none := by
  unfold chooseDefault
  split
  · nofun
  · exact mt newest_eq_none.1 hes

/-- Where some entry is exclusive, the default picks an exclusive one, and none of these has a larger id. -/
theorem chooseDefault_exclusive {es : List Entry} {e : Entry} (h : chooseDefault es = some e)
    (hx : ∃ f ∈ es, f.desc.exclusive = true) :
    e.desc.exclusive = true ∧ ∀ f ∈ es, f.desc.exclusive = true → f.id ≤ e.id := by
  rcases chooseDefault_cases h with hn | ⟨hnone, -⟩
  · obtain ⟨he, hmax⟩ := newest_spec hn
    exact ⟨(List.mem_filter.1 he).2, fun f hf hfx => hmax f (List.mem_filter.2 ⟨hf, hfx⟩)⟩
  · obtain ⟨f, hf, hfx⟩ := hx
    exact absurd hfx (Bool.eq_false_iff.1 (hnone f hf))

/-- Where no entry is exclusive, no entry has a larger id than the one the default picks. -/
theorem chooseDefault_shared {es : List Entry} {e : Entry} (h : chooseDefault es = some e)
    (hnone : ∀ f ∈ es, f.desc.exclusive = false) : ∀ f ∈ es, f.id ≤ e.id := by
  rcases chooseDefault_cases h with hx | ⟨-, hn⟩
  · obtain ⟨he, hex⟩ := List.mem_filter.1 (newest_spec hx).1
    exact absurd hex (Bool.eq_false_iff.1 (hnone e he))
  · exact (newest_spec hn).2

/-- Any arbitration picks one of the entries it is given (U1). -/
theorem choose_mem {c : Config} {es : List Entry} {e : Entry} (h : choose c es = some e) : e ∈ es := by
  unfold choose at h
  split at h
  · exact chooseDefault_mem h
  · exact List.mem_of_getElem? h

/-- Any arbitration picks an entry where it is given one: an index reduced modulo the length is an index of the list (log 6). -/
theorem choose_ne_none (c : Config) {es : List Entry} (hes : es ≠ []) : choose c es ≠ none := by
  unfold choose
  split
  · exact chooseDefault_ne_none hes
  · next n _ =>
    have hlt : Config.arbitrate n es % es.length < es.length := Nat.mod_lt _ (List.length_pos_iff.2 hes)
    rw [List.getElem?_eq_getElem hlt]
    nofun

theorem dispatchIn_mem {c : Config} {H : List Entry} {a : Addr} {e : Entry} (h : dispatchIn c H a = some e) :
    e ∈ H ∧ hits a e = true :=
  List.mem_filter.1 (choose_mem h)

/-- An address is unclaimed exactly when no entry hits, under any arbitration. -/
theorem dispatchIn_eq_none_iff {c : Config} {H : List Entry} {a : Addr} :
    dispatchIn c H a = none ↔ ∀ e ∈ H, ¬hits a e = true := by
  constructor
  · intro h
    exact List.filter_eq_nil_iff.1 (by_contra fun hne => choose_ne_none c hne h)
  · intro h
    exact Option.eq_none_iff_forall_ne_some.2 fun e he =>
      have ⟨hmem, hhit⟩ := dispatchIn_mem he
      h e hmem hhit

theorem exists_dispatchIn {c : Config} {H : List Entry} {a : Addr} (h : ∃ e ∈ H, hits a e = true) :
    ∃ e, dispatchIn c H a = some e := by
  obtain ⟨f, hf, hfa⟩ := h
  exact Option.ne_none_iff_exists'.1 fun hnone => dispatchIn_eq_none_iff.1 hnone f hf hfa

theorem dispatchIn_default {c : Config} (hc : c.arbitration = .newestExclusiveFirst) (H : List Entry) (a : Addr) :
    dispatchIn c H a = chooseDefault (H.filter (hits a)) := by
  simp only [dispatchIn, choose, hc]

/-- The register and the window range of the canonical model, 0xDE00 to 0xDEFF and 0xDF00 to 0xDFFF, have no address in common. -/
theorem canonical_own_disjoint (m n : Nat) (a : Addr) :
    ¬(hits a ⟨m, regDesc .canonical⟩ = true ∧ hits a ⟨n, winDesc .canonical⟩ = true) := by
  rw [hits_iff, hits_iff]
  rintro ⟨⟨-, hreg⟩, hwin, -⟩
  have hgap : ¬(winDesc .canonical).base.toNat ≤ (regDesc .canonical).endAddr.toNat := by decide
  exact hgap (hwin.trans hreg)

/-- Settles O12: the default is given the hit entries, and picks the newest of the exclusive ones if there are any. -/
theorem defaultArbitrationPicksNewest : Obligations.DefaultArbitrationPicksNewest := by
  unfold Obligations.DefaultArbitrationPicksNewest
  refine ⟨canonical_own_disjoint, fun c H a hc hhit => ?_⟩
  obtain ⟨e, he⟩ := exists_dispatchIn (c := c) hhit
  obtain ⟨hmem, hea⟩ := dispatchIn_mem he
  have hdefault := (dispatchIn_default hc H a).symm.trans he
  refine ⟨e, hmem, he, hea, fun ⟨f, hf, hfa, hfx⟩ => ?_, fun hnone f hf hfa => ?_⟩
  · obtain ⟨hex, hmax⟩ := chooseDefault_exclusive hdefault ⟨f, List.mem_filter.2 ⟨hf, hfa⟩, hfx⟩
    exact ⟨hex, fun g hg hga => hmax g (List.mem_filter.2 ⟨hg, hga⟩)⟩
  · refine chooseDefault_shared hdefault (fun g hg => ?_) f (List.mem_filter.2 ⟨hf, hfa⟩)
    obtain ⟨hgH, hga⟩ := List.mem_filter.1 hg
    exact hnone g hgH hga

/-- Settles O13: what is chosen is in the list of hit entries, and an arbitration is total on a list that is not empty. -/
theorem arbitrationChoosesAHitEntry : Obligations.ArbitrationChoosesAHitEntry := by
  unfold Obligations.ArbitrationChoosesAHitEntry
  simp only [← hits_iff]
  exact fun c H a => ⟨fun e => dispatchIn_mem, exists_dispatchIn⟩

/-! ### The operations of the registry -/

theorem hasRoom_iff {c : Config} {H : List Entry} {n : Nat} :
    hasRoom c H n = true ↔ ∀ k, c.nSlots = some k → H.length + n ≤ k := by
  unfold hasRoom
  cases c.nSlots <;> simp

/-- A finite registry with fewer than `n` free slots has no room for `n` entries. -/
theorem hasRoom_eq_false {c : Config} {H : List Entry} {n k : Nat} (hk : c.nSlots = some k) (hlt : k < H.length + n) :
    hasRoom c H n = false :=
  Bool.eq_false_iff.2 fun h => Nat.not_le.2 hlt (hasRoom_iff.1 h k hk)

/-- Settles O9: an append under `nextId` where there is room for one entry; an empty range holds no address. -/
theorem hregAppendsEntry : Obligations.HregAppendsEntry := by
  unfold Obligations.HregAppendsEntry
  refine fun s d => ⟨rfl, fun hroom => ?_, fun hempty a => ?_, fun k hk hfull => ?_⟩
  · have hone : hasRoom s.cfg s.blk.H 1 = true := hasRoom_iff.2 hroom
    simp only [exec, execHreg, if_pos hone]
    rfl
  · refine Bool.eq_false_iff.2 fun hhit => ?_
    obtain ⟨hbase, hend⟩ := hits_iff.1 hhit
    exact absurd (hbase.trans hend) (Nat.not_le.2 hempty)
  · have hnone : hasRoom s.cfg s.blk.H 1 = false := hasRoom_eq_false hk (Nat.lt_succ_of_le hfull)
    simp [exec, execHreg, hnone]

/-- The word of HUNREG is its operation code over the id (R82). -/
theorem hunregWord_eq (id : BitVec 24) : ctlWord 0x6#4 id = 0x60000000#32 ||| id.setWidth 32 := by
  unfold ctlWord
  rw [BitVec.append_def, BitVec.setWidth'_eq]
  rfl

theorem exec_hunreg (s : State) (id : BitVec 24) : exec (.hunreg id) s = .next { s with
    blk := { s.blk with H := s.blk.H.filter fun e => decide (e.id ≠ id.toNat) }, out := s.out.control .ok .none } :=
  rfl

/-- Settles O10: the filter of R111, which keeps a registry without the id whole. -/
theorem hunregRemovesTheEntry : Obligations.HunregRemovesTheEntry := by
  unfold Obligations.HunregRemovesTheEntry
  refine fun s id => ⟨congrArg (fun w => [w]) (hunregWord_eq id), exec_hunreg s id, fun hunknown => ?_⟩
  have hkeep : (s.blk.H.filter fun e => decide (e.id ≠ id.toNat)) = s.blk.H :=
    List.filter_eq_self.2 fun e he => decide_eq_true (hunknown e he)
  rw [exec_hunreg, hkeep]

/-- Settles O11: the answer is that of `dispatch`, which is none exactly when no entry hits. -/
theorem dispatchAnswersAndChangesNothing : Obligations.DispatchAnswersAndChangesNothing := by
  unfold Obligations.DispatchAnswersAndChangesNothing
  simp only [← hits_iff]
  exact fun s a kind => ⟨rfl, dispatchIn_eq_none_iff⟩

end Sys2Proof.Machine
end

section
/-! SUPPORT. Cycles that leave the block alone, and cycles that are one cycle at two addresses: the pass to system memory (R116, R117),
the FOREIGN entry (R118), the mirrored address (R119). -/

namespace Sys2Proof.Machine

/-! ### The pass to system memory -/

/-- `SysRead` (R66, log 3): the queued byte, or that of the reference environment's array. -/
theorem sysByte_eq (s : State) (a : Addr) : sysByte s a = s.env.inp.sysReply.getD (system s a.toNat) := by
  unfold sysByte
  cases s.env.inp.sysReply <;> rfl

/-- A read that passes through: the outputs are all it changes. -/
theorem passRead_eq (hit : Hit) (a : Addr) (s : State) : passRead hit a s = .next { s with
    out := (s.out.ofRead (s.env.inp.sysReply.getD (system s a.toNat)) (some hit) none).calling (.sysRead a) } := by
  rw [passRead, sysByte_eq]
  rfl

/-- A write that passes through: the outputs and the array of system memory are all it changes. -/
theorem passWrite_eq (hit : Hit) (a : Addr) (v : Byte) (s : State) : passWrite hit a v s = .next { s with
    env := { s.env with sys := s.env.sys.write a.toNat v },
    out := (s.out.ofWrite (some hit)).calling (.sysWrite a v) } :=
  rfl

/-- Settles O15: each of the four handlers is the pass to system memory under its own name. -/
theorem passThroughReads : Obligations.PassThroughReads := by
  unfold Obligations.PassThroughReads
  exact fun s a => ⟨passRead_eq .none a s, passRead_eq .roml a s, passRead_eq .fb1 a s, passRead_eq .fb2 a s⟩

/-- Settles O16: each of the four handlers is the pass to system memory under its own name, and a store into a canonical memory changes
the byte at its address only. -/
theorem passThroughWrites : Obligations.PassThroughWrites := by
  unfold Obligations.PassThroughWrites
  intro s a v hwf p hp
  have hpass : exec p.1 s = passWrite p.2 a v s := by
    simp only [List.mem_cons, List.not_mem_nil, or_false] at hp
    rcases hp with rfl | rfl | rfl | rfl <;> rfl
  exact ⟨_, hpass.trans (passWrite_eq p.2 a v s), rfl, rfl, rfl, rfl, fun b => Memory.read_write hwf a.toNat b v⟩

/-! ### The FOREIGN entry -/

theorem foreignAnswer_eq (s : State) (owner : OwnerId) :
    foreignAnswer s owner = s.env.inp.foreignReply.getD (owner, true) := by
  unfold foreignAnswer
  cases s.env.inp.foreignReply <;> rfl

/-- Settles O23: with a FOREIGN entry on top the rows are its handler's, and otherwise the cycle of the class row (log 10). -/
theorem foreignCyclesTouchNoState : Obligations.ForeignCyclesTouchNoState := by
  unfold Obligations.ForeignCyclesTouchNoState
  refine fun s a v => ⟨fun e hw hr => ⟨?_, ?_⟩, fun hnot => ?_⟩
  · simp only [exec, execForeignRead, hw, if_pos hr, foreignReadVia, foreignAnswer_eq]
    rfl
  · simp only [exec, execForeignWrite, hw, if_pos hr]
    rfl
  · cases hw : winner s a with
    | none => simp only [exec, execForeignRead, execForeignWrite, hw, execBusrd, execBuswr, and_self]
    | some e => simp only [exec, execForeignRead, execForeignWrite, hw, if_neg (hnot e hw), execBusrd, execBuswr, and_self]

/-! ### The mirrored address -/

section Mirror

variable {s : State} {e : Entry} {a a₁ a₂ : Addr}

theorem exec_busrd_of_winner (hw : winner s a = some e) : exec (.busrd a) s = entryRead e a s := by
  simp only [exec, execBusrd, busRead, hw]

theorem exec_buswr_of_winner (v : Byte) (hw : winner s a = some e) : exec (.buswr a v) s = entryWrite e a v s := by
  simp only [exec, execBuswr, busWrite, hw]

/-- The handler of an entry sees the reduced address alone (R57, R85), in a read cycle. -/
theorem entryRead_congr (h : reducedAddr e.desc.mask a₁ = reducedAddr e.desc.mask a₂) :
    entryRead e a₁ s = entryRead e a₂ s := by
  unfold entryRead
  cases e.desc.role with
  | reg => simp only [regReadVia, h]
  | win => simp only [windowReadVia, h]
  | foreign => simp only [foreignReadVia, h]

/-- The same in a write cycle. -/
theorem entryWrite_congr (h : reducedAddr e.desc.mask a₁ = reducedAddr e.desc.mask a₂) (v : Byte) :
    entryWrite e a₁ v s = entryWrite e a₂ v s := by
  unfold entryWrite
  cases e.desc.role with
  | reg => simp only [regWriteVia, h]
  | win => simp only [windowWriteVia, h]
  | foreign => simp only [foreignWriteVia, h]

end Mirror

/-- Settles O14: both cycles are the entry's, whose handler sees the reduced address alone. -/
theorem mirroredAddressesActAlike : Obligations.MirroredAddressesActAlike := by
  unfold Obligations.MirroredAddressesActAlike
  intro s e a₁ a₂ v hw₁ hw₂ hmirror
  rw [exec_busrd_of_winner hw₁, exec_busrd_of_winner hw₂, exec_buswr_of_winner v hw₁, exec_buswr_of_winner v hw₂]
  exact ⟨entryRead_congr hmirror, entryWrite_congr hmirror v⟩

end Sys2Proof.Machine
end

section
/-! SUPPORT. The enable path in front of an operation (R161, R163): which operations take it, and what a full registry answers. -/

namespace Sys2Proof.Machine

section EnablePath

variable {s : State}

/-- With the allocation granted and no room for the two own entries the enable path is refused, whatever was to follow (log 14). -/
theorem ensureEnabled_registryFull (k : State → Step) (he : s.blk.enabled = false) (ha : s.env.inp.allocOk = true)
    (hroom : hasRoom s.cfg s.blk.H 2 = false) : ensureEnabled k s = .refused .registryFull := by
  simp [ensureEnabled, he, ha, hroom]

theorem exec_seten_true (he : s.blk.enabled = false) :
    exec (.seten true) s = ensureEnabled (fun t => .next t.done) s := by
  simp [exec, execSeten, he]

/-- SNAPLOAD of an accepted record that asks for `enabled` = 1 (R212). -/
theorem exec_snapload_enabled (ht : s.env.inp.record.typed s.cfg = true)
    (hv : s.env.inp.record.formatVersion = s.cfg.snapVersion) (hr : s.env.inp.record.enabled = true) :
    exec .snapload s = ensureEnabled (fun t =>
      .next ((t.loadSwitch s.env.inp.record.switchOn).loadContents s.env.inp.record).done) s := by
  simp only [exec, execSnapload, loadRecord, if_pos ht, if_pos hv, if_pos hr]

theorem imageBad_eq_false_iff {c : Config} {image : Option (List Byte)} :
    imageBad c image = false ↔ ∀ img, image = some img → imageOk c img = true := by
  cases image <;> simp [imageBad]

/-- ATTACH of the canonical model without a malformed image (R214). -/
theorem exec_attach_canonical (hi : imageBad s.cfg s.env.inp.image = false) :
    exec (.attach s.cfg.modelCanon) s = ensureEnabled (fun t =>
      .next (t.attachImage s.cfg.modelCanon s.env.inp.image).done) s := by
  simp [exec, execAttach, hi]

end EnablePath

/-- Settles O34: the three operations take the enable path, and the registry has no room for the two entries it registers. -/
theorem fullRegistryRefusesEnable : Obligations.FullRegistryRefusesEnable := by
  unfold Obligations.FullRegistryRefusesEnable
  intro s k he ha hk hlt
  have hfull (f : State → Step) : ensureEnabled f s = .refused .registryFull :=
    ensureEnabled_registryFull f he ha (hasRoom_eq_false hk hlt)
  refine ⟨?_, fun ht hv hr => ?_, fun himg => ?_⟩
  · rw [exec_seten_true he, hfull]
  · rw [exec_snapload_enabled ht hv hr, hfull]
  · rw [exec_attach_canonical (imageBad_eq_false_iff.2 himg), hfull]

end Sys2Proof.Machine
end

section
/-! SUPPORT. The operand forms read bit by bit: which address bit each bit of the page permutation is (R130, R131), and what the
window offset is under the canonical parameters (R132, R133). -/

namespace Sys2Proof.Machine

/-! ### The page permutation -/

/-- Bit `i` of the permuted value is address bit `2 - i` (R130). -/
theorem perm3_getElem (a : Addr) {i : Nat} (hi : i < 3) : (perm3 a)[i] = a.getLsbD (2 - i) := by
  obtain rfl | rfl | rfl : i = 0 ∨ i = 1 ∨ i = 2 := by omega
  · simp [perm3, BitVec.getLsbD_eq_getElem]
  · simp [perm3, BitVec.getLsbD_eq_getElem]
  · simp [perm3, BitVec.getLsbD_eq_getElem]

/-- A concatenation has its last bit at the bottom. -/
theorem getElem_ofBool_append (x y z : Bool) :
    let v : BitVec 3 := BitVec.ofBool x ++ (BitVec.ofBool y ++ BitVec.ofBool z)
    v[0] = z ∧ v[1] = y ∧ v[2] = x := by
  revert x y z; decide

theorem lowBitsReversed_getElem (a : Addr) {i : Nat} (hi : i < 3) : (lowBitsReversed a)[i] = a.getLsbD (2 - i) := by
  obtain ⟨h0, h1, h2⟩ := getElem_ofBool_append (a.getLsbD 0) (a.getLsbD 1) (a.getLsbD 2)
  obtain rfl | rfl | rfl : i = 0 ∨ i = 1 ∨ i = 2 := by omega
  · exact h0
  · exact h1
  · exact h2

theorem perm3_eq_lowBitsReversed (a : Addr) : perm3 a = lowBitsReversed a := by
  ext i hi
  rw [perm3_getElem a hi, lowBitsReversed_getElem a hi]

/-- The three low address bits determine the permuted value. -/
theorem perm3_congr {a b : Addr} (h : ∀ i < 3, a.getLsbD i = b.getLsbD i) : perm3 a = perm3 b := by
  ext i hi
  rw [perm3_getElem a hi, perm3_getElem b hi]
  exact h (2 - i) (by omega)

theorem perm3_and_seven (a : Addr) : perm3 (a &&& 0x0007#16) = perm3 a := by
  refine perm3_congr fun i hi => ?_
  have hmask : (0x0007#16).getLsbD i = true := by interval_cases i <;> rfl
  rw [BitVec.getLsbD_and, hmask, Bool.and_true]

theorem perm3_perm3 (a : Addr) : perm3 ((perm3 a).setWidth 16) = a.extractLsb' 0 3 := by
  ext i hi
  have hrev : 2 - i < 3 := by omega
  have hback : 2 - (2 - i) = i := Nat.sub_sub_self (Nat.le_of_lt_succ hi)
  calc (perm3 ((perm3 a).setWidth 16))[i]
      = ((perm3 a).setWidth 16).getLsbD (2 - i) := perm3_getElem _ hi
    _ = (perm3 a)[2 - i] := by simp [show 2 - i < 16 by omega, BitVec.getLsbD_eq_getElem hrev]
    _ = a.getLsbD i := by rw [perm3_getElem a hrev, hback]
    _ = (a.extractLsb' 0 3)[i] := by simp

/-- Settles O57: all but the table is read off which address bit each bit of the permuted value is. -/
theorem pagePermutationReversesLowBits : Obligations.PagePermutationReversesLowBits := by
  unfold Obligations.PagePermutationReversesLowBits
  exact ⟨fun a => ⟨perm3_eq_lowBitsReversed a, (perm3_and_seven a).symm, perm3_perm3 a⟩, by decide⟩

/-! ### The window offset -/

theorem Geometry.windowOffset_eq_mod {c : Config} (g : Geometry c) (p : Nat) (a : Addr) :
    windowOffset c p a = p * c.pageSize + a.toNat % c.pageSize := by
  rw [windowOffset, g.mask_and]

theorem paramsOk_canonical : paramsOk .canonical = true := by decide

/-- With pages of `2 ^ 8` bytes, page and in-page part share no bit of the offset (R133). -/
theorem windowOffset_canonical_eq_append (p : BitVec 3) (a : Addr) :
    windowOffset .canonical p.toNat a = (p ++ a.extractLsb' 0 8).toNat := by
  have hlow : a.toNat % 2 ^ 8 < 2 ^ 8 := Nat.mod_lt _ (Nat.two_pow_pos 8)
  calc windowOffset .canonical p.toNat a
      = p.toNat * 2 ^ 8 + a.toNat % 2 ^ 8 := (geometry_of_ok paramsOk_canonical).windowOffset_eq_mod _ _
    _ = p.toNat <<< 8 ||| a.toNat % 2 ^ 8 := by rw [Nat.shiftLeft_eq, Nat.mul_comm, Nat.two_pow_add_eq_or_of_lt hlow]
    _ = p.toNat <<< 8 ||| (a.extractLsb' 0 8).toNat := by rw [BitVec.extractLsb'_toNat, Nat.shiftRight_zero]
    _ = (p ++ a.extractLsb' 0 8).toNat := (BitVec.toNat_append p _).symm

/-- The mask of the window range keeps the whole in-page part (R133). -/
theorem windowOffset_canonical_and_winMask (page : Nat) (a : Addr) :
    windowOffset .canonical page (a &&& Config.canonical.winMask) = windowOffset .canonical page a :=
  windowOffset_congr (BitVec.and_assoc a _ _) page

/-- Settles O56: the geometry of R8 gives the first part, whatever the parameters; with the canonical ones the in-page part is the
low address byte, which the mask of the window range keeps. -/
theorem windowOffsetLiesInMemory : Obligations.WindowOffsetLiesInMemory := by
  unfold Obligations.WindowOffsetLiesInMemory
  refine ⟨fun c p a hp hpage => ?_, fun p a => ?_⟩
  · have g := geometry_of_ok hp
    exact ⟨rfl, g.windowOffset_eq_mod p a, g.windowOffset_lt hpage a⟩
  · exact ⟨rfl, windowOffset_canonical_eq_append p a, windowOffset_canonical_and_winMask p.toNat a⟩

end Sys2Proof.Machine
end

section
/-! SUPPORT. SETSW whole (R141 to R143), and which operations emit NmiTrigger (R146): the switch edge, and a load under
LOAD_FIRES_TRIGGER. -/

namespace Sys2Proof.Machine

/-! ### SETSW -/

section Switch

variable (s : State)

/-- The events of a switch that moves to `b`, in order (R142, R143). -/
def switchEvents (blk : Block) (b : Bool) : List Event :=
  if blk.enabled then
    if b then [.cfgMapped, .nmiTrigger] else .cfgReverted :: if blk.freezePending then [.nmiRelease] else []
  else []

@[simp] theorem Out.emitting_nil (o : Out) : o.emitting [] = o := by simp [Out.emitting]

@[simp] theorem State.moveSwitch_out (b : Bool) : (s.moveSwitch b).out = s.out.emitting (switchEvents s.blk b) := by
  unfold State.moveSwitch switchEvents Out.emitting
  cases he : s.blk.enabled with
  | false => simp
  | true => cases b <;> simp

theorem exec_setsw_same : exec (.setsw s.blk.switchOn) s = .next (s.raise .idempotent) := if_pos rfl

theorem exec_setsw_of_ne {b : Bool} (hb : b ≠ s.blk.switchOn) : exec (.setsw b) s = .next (s.moveSwitch b).done := if_neg hb

/-- The switch moves: everything it writes (R141 to R143). -/
theorem State.moveSwitch_done (b : Bool) : (s.moveSwitch b).done = { s with
    blk := { s.blk with switchOn := b, cfgMapped := if s.blk.enabled then b else s.blk.cfgMapped,
                        freezePending := if s.blk.enabled then b else s.blk.freezePending },
    out := (s.out.control .ok .none).emitting (switchEvents s.blk b) } := by
  rw [← s.moveSwitch_blk, ← s.moveSwitch_cfg b, ← s.moveSwitch_env b]
  exact congrArg (fun o => { s.moveSwitch b with out := o.control .ok .none }) (s.moveSwitch_out b)

/-- NmiTrigger is among the events of a moving switch exactly where it comes on while enabled. -/
theorem count_nmiTrigger_switchEvents (blk : Block) (b : Bool) :
    (switchEvents blk b).count .nmiTrigger = if b = true ∧ blk.enabled = true then 1 else 0 := by
  unfold switchEvents
  cases blk.enabled with
  | false => simp
  | true => cases b <;> cases blk.freezePending <;> rfl

end Switch

/-- Settles O30: a switch that stays ends the operation; one that moves writes what `State.moveSwitch_done` says. -/
theorem setswTransitions : Obligations.SetswTransitions := by
  unfold Obligations.SetswTransitions
  intro s b
  refine ⟨by cases b <;> rfl, ?_, fun hb he => ?_, ?_, ?_⟩
  · rintro rfl
    exact exec_setsw_same s
  · rw [exec_setsw_of_ne s hb, State.moveSwitch_done]
    simp [switchEvents, he]
  · rintro rfl hs he
    rw [exec_setsw_of_ne s (by simp [hs]), State.moveSwitch_done]
    simp [switchEvents, he]
  · rintro rfl hs he
    rw [exec_setsw_of_ne s (by simp [hs]), State.moveSwitch_done]
    simp [switchEvents, he]

/-! ### NmiTrigger, update by update -/

/-- From `s` to `t` events are only appended, and NmiTrigger is one of them only where `p` holds. -/
def TriggersOnlyIf (p : Prop) (s t : State) : Prop :=
  ∃ es, t.out.events = s.out.events ++ es ∧ (.nmiTrigger ∈ es → p)

section Triggers

variable {s t u : State} {p q : Prop}

theorem TriggersOnlyIf.of_events (h : t.out.events = s.out.events) : TriggersOnlyIf p s t :=
  ⟨[], by rw [h, List.append_nil], nofun⟩

theorem TriggersOnlyIf.mono (h : TriggersOnlyIf p s t) (hpq : p → q) : TriggersOnlyIf q s t := by
  obtain ⟨es, he, hp⟩ := h
  exact ⟨es, he, hpq ∘ hp⟩

theorem TriggersOnlyIf.trans (h : TriggersOnlyIf p s u) (h' : TriggersOnlyIf p u t) : TriggersOnlyIf p s t := by
  obtain ⟨es, he, hp⟩ := h
  obtain ⟨es', he', hp'⟩ := h'
  exact ⟨es ++ es', by rw [he', he, List.append_assoc], fun hm => (List.mem_append.1 hm).elim hp hp'⟩

theorem LatchKept.triggersOnlyIf (h : LatchKept s t) : TriggersOnlyIf p s t := by
  obtain ⟨-, es, he, ht, -⟩ := h
  exact ⟨es, he, fun hm => absurd hm ht⟩

theorem raiseNmi_triggersOnlyIf (hp : p) : TriggersOnlyIf p s s.raiseNmi := ⟨[.nmiTrigger], rfl, fun _ => hp⟩

theorem revert_triggersOnlyIf (s : State) : TriggersOnlyIf p s s.revert :=
  ⟨_, by rw [State.revert_out], by cases s.blk.freezePending <;> simp⟩

theorem disablePath_triggersOnlyIf (s : State) : TriggersOnlyIf p s s.disablePath := by
  unfold State.disablePath
  split
  · exact (revert_triggersOnlyIf s).trans (unregisterAndFree_latchKept _).triggersOnlyIf
  · exact (unregisterAndFree_latchKept s).triggersOnlyIf

theorem ensureDisabled_triggersOnlyIf (s : State) : TriggersOnlyIf p s s.ensureDisabled := by
  unfold State.ensureDisabled
  split
  · exact disablePath_triggersOnlyIf s
  · exact .of_events rfl

/-- The switch step of a load raises the NMI under LOAD_FIRES_TRIGGER only (R212). -/
theorem loadSwitch_triggersOnlyIf (s : State) (b : Bool) :
    TriggersOnlyIf (s.cfg.loadFiresTrigger = true) s (s.loadSwitch b) := by
  unfold State.loadSwitch
  dsimp only
  split
  · exact .of_events rfl
  · split
    · split
      · split
        · next hfires => exact (mapConfig_latchKept _).triggersOnlyIf.trans (raiseNmi_triggersOnlyIf hfires)
        · exact (mapConfig_latchKept _).triggersOnlyIf
      · exact revert_triggersOnlyIf _
    · exact .of_events rfl

/-! ### NmiTrigger, operation by operation -/

/-- Does the operation load a snapshot with LOAD_FIRES_TRIGGER set? -/
abbrev IsFiringLoad (i : Instr) (s : State) : Prop := i = .snapload ∧ s.cfg.loadFiresTrigger = true

/-- Does the operation move the switch from off to on while the instance is enabled? -/
abbrev IsTriggerEdge (i : Instr) (s : State) : Prop :=
  i = .setsw true ∧ s.blk.switchOn = false ∧ s.blk.enabled = true

/-- A load from `u`, which keeps the parameters of `s` (R212). -/
theorem load_triggersOnlyIf (hu : TriggersOnlyIf (IsFiringLoad .snapload s) s u) (hc : u.cfg = s.cfg) (r : SnapshotRecord) :
    TriggersOnlyIf (IsFiringLoad .snapload s) s ((u.loadSwitch r.switchOn).loadContents r).done :=
  hu.trans ((loadSwitch_triggersOnlyIf u r.switchOn).mono fun hfires => ⟨rfl, hc ▸ hfires⟩)

/-- Every control operation but SETSW. -/
theorem ControlStep.triggersOnlyIf {i : Instr} (hc : ControlStep s i t) (hi : ∀ b, i ≠ .setsw b) :
    TriggersOnlyIf (IsFiringLoad i s) s t := by
  cases hc with
  | ends | noMemory | register | unregister | setdef | reset => exact .of_events rfl
  | enable he => exact (Ready.enabling he).latchKept.triggersOnlyIf
  | disable => exact disablePath_triggersOnlyIf s
  | switch b => exact absurd rfl (hi b)
  | loadEnabled u hu => exact load_triggersOnlyIf hu.latchKept.triggersOnlyIf hu.cfg_eq _
  | loadDisabled => exact load_triggersOnlyIf (ensureDisabled_triggersOnlyIf s) s.ensureDisabled_cfg _
  | attach m u hu => exact hu.latchKept.triggersOnlyIf
  | detach => exact ensureDisabled_triggersOnlyIf s

theorem exec_triggersOnlyIf {i : Instr} (hi : ∀ b, i ≠ .setsw b) (h : exec i s = .next t) :
    TriggersOnlyIf (IsFiringLoad i s) s t := by
  cases hb : isBusCycle i with
  | true =>
    obtain ⟨row, a, -, f⟩ := bus_frame hb h
    exact .of_events f.events
  | false => exact (control_step hb h).triggersOnlyIf hi

/-- SETSW emits NmiTrigger once on the edge, and not otherwise (R142, R146). -/
theorem setsw_triggers {b : Bool} (h : exec (.setsw b) s = .next t) :
    ∃ es, t.out.events = s.out.events ++ es ∧ es.count .nmiTrigger = if IsTriggerEdge (.setsw b) s then 1 else 0 := by
  by_cases hb : b = s.blk.switchOn
  · subst hb
    cases (exec_setsw_same s).symm.trans h
    exact ⟨[], by simp, by simp +contextual⟩
  · cases (exec_setsw_of_ne s hb).symm.trans h
    refine ⟨switchEvents s.blk b, by simp [Out.emitting], ?_⟩
    rw [count_nmiTrigger_switchEvents]
    cases b with
    | false => simp
    | true =>
      have hoff : s.blk.switchOn = false := by simpa using hb
      simp [IsTriggerEdge, hoff]

/-- What an operation appends to the events: unless it is a load that fires, NmiTrigger once on the edge and not otherwise. -/
theorem exec_triggers {i : Instr} (h : exec i s = .next t) :
    ∃ es, t.out.events = s.out.events ++ es ∧
      (¬IsFiringLoad i s → es.count .nmiTrigger = if IsTriggerEdge i s then 1 else 0) := by
  by_cases hi : ∃ b, i = .setsw b
  · obtain ⟨b, rfl⟩ := hi
    obtain ⟨es, he, hcount⟩ := setsw_triggers h
    exact ⟨es, he, fun _ => hcount⟩
  · obtain ⟨es, he, hp⟩ := exec_triggersOnlyIf (not_exists.1 hi) h
    refine ⟨es, he, fun hload => ?_⟩
    rw [if_neg fun hedge => hi ⟨true, hedge.1⟩]
    exact List.count_eq_zero.2 (hload ∘ hp)

end Triggers

/-- Settles O37: SETSW by whether the switch moves; no other path has an NMI entry but the switch step of a load, which asks
LOAD_FIRES_TRIGGER. -/
theorem nmiTriggerOnlyOnSwitchEdge : Obligations.NmiTriggerOnlyOnSwitchEdge := by
  unfold Obligations.NmiTriggerOnlyOnSwitchEdge
  intro i s t h
  obtain ⟨es, he, hcount⟩ := exec_triggers h
  rw [newEvents_of_append he]
  refine ⟨⟨es, he.symm⟩, fun hfires => hcount ?_, fun hload => hcount ?_⟩
  · rintro ⟨-, hf⟩
    simp [hfires] at hf
  · rintro ⟨rfl, -⟩
    exact hload rfl

end Sys2Proof.Machine
end

section
/-! SUPPORT. SETEN whole (R160 to R164): the two answers of the allocation, what the enable and the disable path write, and what the
one after the other leaves of the registry (R169). The getters, and the operations that stop on every path (R165, R149, R166,
R90). -/

namespace Sys2Proof.Machine

/-! ### SETEN, case by case -/

/-- The block after the enable path of R161 from the state `s`. -/
def enabledBlock (s : State) : Block :=
  { s.blk with enabled := true, mem := some [], regIds := [s.blk.nextId, s.blk.nextId + 1], nextId := s.blk.nextId + 2,
               H := s.blk.H ++ [⟨s.blk.nextId, regDesc s.cfg⟩, ⟨s.blk.nextId + 1, winDesc s.cfg⟩],
               cfgMapped := if s.blk.switchOn then true else s.blk.cfgMapped,
               page := pageAfterEnable s }

section Cases

variable {s t : State}

theorem exec_seten_same (s : State) : exec (.seten s.blk.enabled) s = .next (s.raise .idempotent) := if_pos rfl

/-- A refused allocation ends the operation, whatever was to follow (R163). -/
theorem ensureEnabled_outOfMemory (k : State → Step) (he : s.blk.enabled = false) (ha : s.env.inp.allocOk = false) :
    ensureEnabled k s = .next ((s.call .allocOk).raise .outOfMemory) := by
  simp [ensureEnabled, he, ha]

/-- With the allocation granted and room for the two own entries the operation goes on after the enable path (R161). -/
theorem ensureEnabled_enablePath (k : State → Step) (he : s.blk.enabled = false) (ha : s.env.inp.allocOk = true)
    (hroom : hasRoom s.cfg s.blk.H 2 = true) : ensureEnabled k s = k (s.call .allocOk).enablePath := by
  simp [ensureEnabled, he, ha, hroom]

/-- A state that keeps the parameters and the environment of `s`, at the end of an operation, by its block and its outputs. -/
theorem State.done_eq_of_parts {b : Block} {o : Out} (hc : t.cfg = s.cfg) (hb : t.blk = b) (he : t.env = s.env)
    (ho : t.out = o) : t.done = { s with blk := b, out := o.control .ok .none } := by
  subst hb ho
  rw [← hc, ← he]
  rfl

theorem State.enablePath_blk_eq (s : State) : s.enablePath.blk = enabledBlock s := by simp [enabledBlock]

/-- SETEN 0 while enabled: everything it writes (R162). -/
theorem exec_seten_false (he : s.blk.enabled = true) : exec (.seten false) s = .next { s with
    blk := disabledBlock s.blk, out := (s.out.control .ok .none).emitting (disableEvents s.blk) } := by
  have hexec : exec (.seten false) s = .next s.disablePath.done := if_neg (by simp [he])
  rw [hexec]
  exact congrArg _ (State.done_eq_of_parts s.disablePath_cfg s.disablePath_blk s.disablePath_env s.disablePath_out)

/-- SETEN 1 with the allocation granted and room in the registry: everything it writes (R161). -/
theorem exec_seten_true_enabling (he : s.blk.enabled = false) (ha : s.env.inp.allocOk = true)
    (hroom : hasRoom s.cfg s.blk.H 2 = true) : exec (.seten true) s = .next { s with
    blk := enabledBlock s,
    out := ((s.out.control .ok .none).calling .allocOk).emitting (if s.blk.switchOn then [.cfgMapped] else []) } := by
  rw [exec_seten_true he, ensureEnabled_enablePath _ he ha hroom]
  exact congrArg _ (State.done_eq_of_parts (State.enablePath_cfg _) (State.enablePath_blk_eq _) (State.enablePath_env _)
    (State.enablePath_out _))

end Cases

/-- Settles O31: SETEN compares the value first. -/
theorem setenIsIdempotent : Obligations.SetenIsIdempotent := by
  unfold Obligations.SetenIsIdempotent
  exact exec_seten_same

/-- Settles O35: the block after it is `disabledBlock`, and its events are `disableEvents`. -/
theorem setenDisables : Obligations.SetenDisables := by
  unfold Obligations.SetenDisables
  exact fun s he => exec_seten_false he

/-- Settles O33: the three operations take the enable path, which ends at the refused allocation. -/
theorem allocationFailureChangesNothing : Obligations.AllocationFailureChangesNothing := by
  unfold Obligations.AllocationFailureChangesNothing
  intro s he ha t
  have hfail (f : State → Step) : ensureEnabled f s = .next t := ensureEnabled_outOfMemory f he ha
  refine ⟨?_, fun ht hv hr => ?_, fun himg => ?_⟩
  · rw [exec_seten_true he, hfail]
  · rw [exec_snapload_enabled ht hv hr, hfail]
  · rw [exec_attach_canonical (imageBad_eq_false_iff.2 himg), hfail]

/-- Settles O32: a refused allocation ends SETEN 1; a granted one, with room in the registry, gives `enabledBlock`, whose empty list
is the memory of zeros. -/
theorem setenEnables : Obligations.SetenEnables := by
  unfold Obligations.SetenEnables
  refine fun s he => ⟨fun ha => ?_, fun ha hroom => ?_⟩
  · exact (exec_seten_true he).trans (ensureEnabled_outOfMemory _ he ha)
  · exact ⟨_, exec_seten_true_enabling he ha (hasRoom_iff.2 hroom), fun _ => rfl, rfl⟩

/-! ### A disable followed by an enable (R169) -/

section OwnEntries

variable {c : Config} {H : List Entry} {ids : List Nat} {enabled : Bool}

@[simp] theorem isOwn_regDesc (c : Config) (i : Nat) : isOwn c ⟨i, regDesc c⟩ = true := by simp [isOwn, regDesc]

@[simp] theorem isOwn_winDesc (c : Config) (i : Nat) : isOwn c ⟨i, winDesc c⟩ = true := by simp [isOwn, winDesc]

/-- Each id held is the id of an own entry. -/
theorem OwnRegistered.exists_of_mem (h : OwnRegistered c H ids enabled) {i : Nat} (hi : i ∈ ids) :
    ∃ e ∈ H, isOwn c e = true ∧ e.id = i := by
  rw [← h.ids_eq] at hi
  obtain ⟨e, he, hid⟩ := List.mem_map.1 hi
  obtain ⟨heH, ho⟩ := List.mem_filter.1 he
  exact ⟨e, heH, ho, hid⟩

/-- With rising ids (INV8) no id held is that of an entry of another owner or role. -/
theorem OwnRegistered.id_notMem (h : OwnRegistered c H ids enabled) (hris : H.Pairwise fun e f => e.id < f.id) {e : Entry}
    (he : e ∈ H) (ho : isOwn c e = false) : e.id ∉ ids := by
  intro hid
  obtain ⟨f, hf, hfo, hfe⟩ := h.exists_of_mem hid
  have hnodup : (H.map fun e => e.id).Nodup := List.pairwise_map.2 (hris.imp Nat.ne_of_lt)
  have hef : f = e := List.inj_on_of_nodup_map hnodup hf he hfe
  simp [← hef, hfo] at ho

/-- Unregistering the own entries and registering them again under other ids moves no entry of another owner or role. -/
theorem OwnRegistered.mem_reregistered_iff (h : OwnRegistered c H ids enabled) (hris : H.Pairwise fun e f => e.id < f.id)
    (i j : Nat) {e : Entry} (ho : isOwn c e = false) :
    e ∈ (H.filter fun e => decide (e.id ∉ ids)) ++ [⟨i, regDesc c⟩, ⟨j, winDesc c⟩] ↔ e ∈ H := by
  have hreg : e ≠ ⟨i, regDesc c⟩ := by rintro rfl; simp at ho
  have hwin : e ≠ ⟨j, winDesc c⟩ := by rintro rfl; simp at ho
  have hid : e ∈ H → e.id ∉ ids := fun he => h.id_notMem hris he ho
  simpa [hreg, hwin] using hid

end OwnEntries

theorem pageAfterEnable_of_keep {s : State} (h : s.cfg.pageOnEnable = .keep) : pageAfterEnable s = s.blk.page := by
  simp [pageAfterEnable, h]

/-- After the disable path no freeze is pending: with the switch on it is released, with the switch off there was none (INV6). -/
theorem BlockInv.disabledBlock_freezePending {c : Config} {b : Block} (h : BlockInv c b) :
    (disabledBlock b).freezePending = false := by
  cases hs : b.switchOn with
  | true => simp [disabledBlock, hs]
  | false => simp [disabledBlock, hs, (h.quiet_of_switchOff hs).2]

/-- Settles O36: neither path writes the switch or the host-side state, and the page only under PAGE_ON_ENABLE = draw. The two own
entries leave by their ids, which INV3 and INV8 give to no other entry, and come back under ids that the counter gives, which INV8
puts above every id in use. -/
theorem disableThenEnablePreserves : Obligations.DisableThenEnablePreserves := by
  unfold Obligations.DisableThenEnablePreserves
  intro s hinv hreg he ha hslots hkeep
  obtain ⟨-, hb, -⟩ := s.inv_iff.1 hinv
  have hown := s.registryInv_iff.1 hreg
  have hroom (H : List Entry) : hasRoom s.cfg H 2 = true := hasRoom_iff.2 (by simp [hslots])
  refine ⟨_, _, exec_seten_false he, exec_seten_true_enabling rfl ha (hroom _), rfl, pageAfterEnable_of_keep hkeep, rfl, rfl, rfl,
    fun e ho => hown.mem_reregistered_iff hb.idsRising _ _ ho, fun _ => rfl, hb.disabledBlock_freezePending, rfl, ?_⟩
  intro id hid old hold
  obtain ⟨e, heH, -, rfl⟩ := hown.exists_of_mem hold
  have hbelow : e.id < s.blk.nextId := hb.idsBelow e heH
  have hid : id = s.blk.nextId ∨ id = s.blk.nextId + 1 := by simpa [enabledBlock, disabledBlock] using hid
  omega

/-! ### The getters and the refused operations -/

/-- Settles O40: each getter ends with its bit as the output value. -/
theorem gettersReturnTheBit : Obligations.GettersReturnTheBit := by
  unfold Obligations.GettersReturnTheBit
  exact fun s => ⟨rfl, rfl, rfl, rfl⟩

/-- A one-byte operation's word is 24 bits of operation code and zeros, and the byte (R80, R82). -/
theorem ctlWord_byteArg (op : BitVec 4) (m : Byte) : ctlWord op (byteArg m) = op ++ 0#4 ++ 0#16 ++ m := by
  unfold ctlWord byteArg
  exact Eq.symm BitVec.append_assoc

/-- Settles O41: no path of the three operations answers a state. -/
theorem modeAndReservedCodeAreRefused : Obligations.ModeAndReservedCodeAreRefused := by
  unfold Obligations.ModeAndReservedCodeAreRefused
  exact fun s v bits => ⟨congrArg (· :: []) (ctlWord_byteArg 0xD#4 v), rfl, rfl, rfl, rfl⟩

end Sys2Proof.Machine
end

section
/-! SUPPORT. The block's own handlers (R180 to R187, R193): what each does while the window is open and while it is closed, under whom
each is called, and what a store changes byte by byte. -/

namespace Sys2Proof.Machine

/-! ### The conditions and the store -/

theorem windowOpen_eq_false_iff {s : State} : s.windowOpen = false ↔ ¬(s.blk.enabled = true ∧ s.blk.switchOn = true) :=
  Bool.eq_false_iff.trans windowOpen_iff.not

theorem windowOpen_of_disabled {s : State} (he : s.blk.enabled = false) : s.windowOpen = false := by
  simp [State.windowOpen, he]

theorem windowOpen_of_switchOff {s : State} (hs : s.blk.switchOn = false) : s.windowOpen = false := by
  simp [State.windowOpen, hs]

/-- Only an open window has a write redirected to onboard memory (R187). -/
theorem not_redirectsWrite_of_closed {s : State} (ho : s.windowOpen = false) (a : Addr) : ¬redirectsWrite s a = true := by
  simp [redirectsWrite, ho]

/-- Without the validity flag VALID is 0, whatever the entry can do (R192). -/
@[simp] theorem validOutput_false (d : Descriptor) : validOutput d false = false := Bool.and_false _

@[simp] theorem validOutput_true (d : Descriptor) : validOutput d true = d.readCapable := Bool.and_true _

/-- A store into a canonical onboard memory changes the byte at its offset only. -/
theorem onboard_putMem {s : State} {m : Memory} (hm : s.blk.mem = some m) (hwf : m.wf = true) (off : Nat) (v : Byte) (o : Nat) :
    onboard (s.putMem m off v) o = if o = off then some v else onboard s o := by
  simp only [onboard, State.putMem_blk, hm, Option.map_some, Memory.read_write hwf]
  exact apply_ite some _ _ _

/-! ### The handlers in each of their cases -/

section Handlers

variable {s : State} {m : Memory} (d : Descriptor) (hit : Option Hit) (a : Addr) (v : Byte)

theorem touchRegister_of_enabled (he : s.blk.enabled = true) : s.touchRegister a =
    { s with blk := { s.blk with page := maskPage s.cfg (perm3 a).toNat, valid := false } } := by
  simp only [State.touchRegister, if_pos he]

/-- Called while disabled the register handlers keep the page (R193). -/
theorem touchRegister_of_disabled (he : s.blk.enabled = false) : s.touchRegister a = s.setValid false := by
  rw [State.touchRegister, if_neg (Bool.eq_false_iff.1 he)]
  rfl

theorem windowReadVia_open (ho : s.windowOpen = true) (hm : s.blk.mem = some m) : windowReadVia d hit a s =
    .next ((s.setValid true).finishRead (m.read (windowOffset s.cfg s.blk.page (a &&& d.mask))) hit (some d.readCapable)) := by
  simp only [windowReadVia, if_pos ho, hm, reducedAddr, validOutput_true]

theorem windowReadVia_closed (ho : s.windowOpen = false) :
    windowReadVia d hit a s = .next ((s.setValid false).finishRead s.cfg.float hit (some false)) := by
  simp [windowReadVia, ho]

theorem windowWriteVia_open (ho : s.windowOpen = true) (hm : s.blk.mem = some m) : windowWriteVia d hit a v s =
    .next (((s.putMem m (windowOffset s.cfg s.blk.page (a &&& d.mask)) v).setValid true).finishWrite hit) := by
  simp only [windowWriteVia, if_pos ho, hm, reducedAddr]

theorem windowWriteVia_closed (ho : s.windowOpen = false) :
    windowWriteVia d hit a v s = .next ((s.setValid false).finishWrite hit) := by
  simp [windowWriteVia, ho]

theorem romhReadAt_redirected (hv : isVector s.cfg a = true) (ho : s.windowOpen = true) (hm : s.blk.mem = some m) :
    romhReadAt a s = .next (s.finishRead (m.read (windowOffset s.cfg s.blk.page a)) (some .romh) none) := by
  simp only [romhReadAt, hv, ho, hm, Bool.and_self, if_true]

theorem romhReadAt_passed (h : ¬(isVector s.cfg a = true ∧ s.windowOpen = true)) : romhReadAt a s = passRead .romh a s := by
  rw [← Bool.and_eq_true] at h
  exact if_neg h

theorem romhWriteAt_redirected (h : redirectsWrite s a = true) (hm : s.blk.mem = some m) :
    romhWriteAt a v s = .next ((s.putMem m (windowOffset s.cfg s.blk.page a) v).finishWrite (some .romh)) := by
  unfold redirectsWrite at h
  simp only [romhWriteAt, if_pos h, hm]

theorem romhWriteAt_passed (h : ¬redirectsWrite s a = true) : romhWriteAt a v s = passWrite .romh a v s := if_neg h

end Handlers

/-! ### The handler rows under the entry that takes the cycle -/

section Rows

variable {s : State} {a : Addr} {e : Entry}

theorem exec_regRead_of_winner (hw : winner s a = some e) (hr : e.desc.role = .reg) :
    exec (.regRead a) s = regReadVia e.desc (some (.entry e.id)) a s := by
  simp only [exec, execRegRead, calledThrough_of_winner hw hr]

theorem exec_regWrite_of_winner (v : Byte) (hw : winner s a = some e) (hr : e.desc.role = .reg) :
    exec (.regWrite a v) s = regWriteVia e.desc (some (.entry e.id)) a s := by
  simp only [exec, execRegWrite, calledThrough_of_winner hw hr]

theorem exec_windowRead_of_winner (hw : winner s a = some e) (hr : e.desc.role = .win) :
    exec (.windowRead a) s = windowReadVia e.desc (some (.entry e.id)) a s := by
  simp only [exec, execWindowRead, calledThrough_of_winner hw hr]

theorem exec_windowWrite_of_winner (v : Byte) (hw : winner s a = some e) (hr : e.desc.role = .win) :
    exec (.windowWrite a v) s = windowWriteVia e.desc (some (.entry e.id)) a v s := by
  simp only [exec, execWindowWrite, calledThrough_of_winner hw hr]

end Rows

/-! ### The register range -/

/-- Eight pages have an index for every value of the permuted bits, so masking keeps it (R134). -/
theorem and_seven_toNat (x : BitVec 3) : x.toNat &&& (8 - 1) = x.toNat :=
  Nat.and_two_pow_sub_one_of_lt_two_pow x.isLt

/-- Settles O17: both handlers touch the page register, where the permuted reduced address is the reversed one. -/
theorem registerAccessSelectsPage : Obligations.RegisterAccessSelectsPage := by
  unfold Obligations.RegisterAccessSelectsPage
  intro s a v e hw hr he selected b
  have htouch : s.touchRegister (reducedAddr e.desc.mask a) = { s with blk := b } := by
    rw [touchRegister_of_enabled _ he, perm3_eq_lowBitsReversed]
    rfl
  refine ⟨?_, ?_, fun hpages => ?_⟩
  · rw [exec_regRead_of_winner hw hr, regReadVia, htouch, validOutput_false]
    rfl
  · rw [exec_regWrite_of_winner v hw hr, regWriteVia, htouch]
    rfl
  · show selected &&& (s.cfg.pageCount - 1) = selected
    rw [hpages]
    exact and_seven_toNat _

/-! ### The handlers while disabled -/

/-- Settles O18: while disabled the window is closed and the register handlers keep the page, so all four clear `valid` and nothing
else of the block, whatever they are called through; no vector is redirected. -/
theorem handlersCalledWhileDisabled : Obligations.HandlersCalledWhileDisabled := by
  unfold Obligations.HandlersCalledWhileDisabled
  intro s a v he
  have ho : s.windowOpen = false := windowOpen_of_disabled he
  refine ⟨fun i hi => ?_, fun i hi => ?_, ?_, ?_⟩
  · have hread : ∃ hit, exec i s = .next ((s.setValid false).finishRead s.cfg.float hit (some false)) := by
      rcases List.mem_pair.1 hi with rfl | rfl
      · exact ⟨_, by rw [exec, execRegRead, regReadVia, touchRegister_of_disabled _ he, validOutput_false]⟩
      · exact ⟨_, windowReadVia_closed _ _ a ho⟩
    obtain ⟨hit, h⟩ := hread
    exact ⟨_, h, rfl, rfl, rfl, rfl, rfl, rfl, rfl⟩
  · have hwrite : ∃ hit, exec i s = .next ((s.setValid false).finishWrite hit) := by
      rcases List.mem_pair.1 hi with rfl | rfl
      · exact ⟨_, by rw [exec, execRegWrite, regWriteVia, touchRegister_of_disabled _ he]⟩
      · exact ⟨_, windowWriteVia_closed _ _ a v ho⟩
    obtain ⟨hit, h⟩ := hwrite
    exact ⟨_, h, rfl, rfl, rfl, rfl, rfl⟩
  · exact (romhReadAt_passed a fun h => Bool.eq_false_iff.1 ho h.2).trans (passRead_eq .romh a s)
  · exact (romhWriteAt_passed a v (not_redirectsWrite_of_closed ho a)).trans (passWrite_eq .romh a v s)

/-! ### The window -/

/-- Settles O19: the window's read handler, open and closed. -/
theorem windowReadIsGatedBySwitch : Obligations.WindowReadIsGatedBySwitch := by
  unfold Obligations.WindowReadIsGatedBySwitch
  intro s a e hw hr
  rw [exec_windowRead_of_winner hw hr]
  exact ⟨fun hopen m hm => windowReadVia_open _ _ a (windowOpen_iff.2 hopen) hm,
    fun hclosed => windowReadVia_closed _ _ a (windowOpen_eq_false_iff.2 hclosed)⟩

/-- Settles O20: the window's write handler, open and closed; the open one stores one byte. -/
theorem windowWriteIsGatedBySwitch : Obligations.WindowWriteIsGatedBySwitch := by
  unfold Obligations.WindowWriteIsGatedBySwitch
  intro s a v e hw hr
  rw [exec_windowWrite_of_winner v hw hr]
  refine ⟨fun hopen m hm hwf => ?_, fun hclosed => windowWriteVia_closed _ _ a v (windowOpen_eq_false_iff.2 hclosed)⟩
  exact ⟨_, windowWriteVia_open _ _ a v (windowOpen_iff.2 hopen) hm, rfl, rfl, rfl, rfl, onboard_putMem hm hwf _ v⟩

/-! ### The ROM-high range -/

/-- Settles O21: the handler redirects a vector address while the window is open, and passes everything else through. -/
theorem romhReadRedirectsVectors : Obligations.RomhReadRedirectsVectors := by
  unfold Obligations.RomhReadRedirectsVectors
  intro s a
  rw [← isVector_iff, ← windowOpen_iff]
  exact ⟨fun ⟨hv, ho⟩ m hm => romhReadAt_redirected a hv ho hm,
    fun hpass => (romhReadAt_passed a hpass).trans (passRead_eq .romh a s)⟩

/-- Settles O22: a redirected write stores one byte of onboard memory, and any other is the pass to system memory, which stores one
byte there. -/
theorem romhWriteRedirectsVectors : Obligations.RomhWriteRedirectsVectors := by
  unfold Obligations.RomhWriteRedirectsVectors
  intro s a v
  rw [← windowOpen_iff, ← redirectsWrite_iff]
  refine ⟨fun hredirected m hm hwf => ?_, fun hpass hwf => ?_⟩
  · exact ⟨_, romhWriteAt_redirected a v hredirected hm, rfl, rfl, rfl, rfl, onboard_putMem hm hwf _ v⟩
  · exact ⟨_, (romhWriteAt_passed a v hpass).trans (passWrite_eq .romh a v s), rfl, rfl, rfl, rfl,
      fun b => Memory.read_write hwf a.toNat b v⟩

/-! ### Read after write -/

/-- The window's read of an open window, as the class row (R182). -/
theorem exec_busrd_window {s : State} {m : Memory} {a : Addr} {e : Entry} (ho : s.windowOpen = true) (hm : s.blk.mem = some m)
    (hw : winner s a = some e) (hr : e.desc.role = .win) :
    exec (.busrd a) s =
      .next ((s.setValid true).finishRead (m.read (windowOffset s.cfg s.blk.page (a &&& e.desc.mask))) (some (.entry e.id))
        (some e.desc.readCapable)) := by
  rw [exec_busrd_of_winner hw, entryRead, hr]
  exact windowReadVia_open _ _ a ho hm

/-- The canonical window mask and page mask both keep the low address byte. -/
theorem canonical_inPage (a : Addr) : a &&& (winDesc .canonical).mask &&& Config.canonical.pageMask = a &&& 0x00FF#16 :=
  BitVec.and_assoc a _ _

/-- Settles O27: the write stores at the window offset, and the read reads at the window offset of the same page and the same in-page
part. -/
theorem windowReadAfterWrite : Obligations.WindowReadAfterWrite := by
  unfold Obligations.WindowReadAfterWrite
  refine ⟨fun s a v e m he hs hm hwf hw hr => ?_, rfl, fun a a' => ?_⟩
  · refine ⟨_, exec_buswr_window (windowOpen_iff.2 ⟨he, hs⟩) hm hw hr, ?_⟩
    intro s' a' e' hcfg hen hsw hpage off hbyte hw' hr' hinPage
    have ho' : s'.windowOpen = true := windowOpen_iff.2 ⟨hen.trans he, hsw.trans hs⟩
    have hoff : windowOffset s'.cfg s'.blk.page (a' &&& e'.desc.mask) = off := by
      rw [hcfg, hpage]
      exact windowOffset_congr hinPage _
    have hstored : onboard s' off = some v := hbyte.trans ((onboard_putMem hm hwf off v off).trans (if_pos rfl))
    obtain ⟨m', hm', hread⟩ := Option.map_eq_some_iff.1 hstored
    refine ⟨_, exec_busrd_window ho' hm' hw' hr', ?_, rfl, rfl⟩
    rw [hoff, hread]
    rfl
  · intro mask
    rw [canonical_inPage, canonical_inPage]

end Sys2Proof.Machine
end

section
/-! SUPPORT. The isolation of onboard memory while the window is closed (R60, R194): each handler has one outcome for every memory, and
leaves the memory as it was. -/

namespace Sys2Proof.Machine

/-- Whatever onboard memory the state is given, the operation has the same outcome, and leaves that memory (R194). -/
def IsolatesMemory (s : State) (f : State → Step) : Prop :=
  ∃ t : State, ∀ m : Memory, f (s.withMem m) = .next (t.withMem m)

section Isolation

variable {s : State}

/-- The entry that takes a cycle does not depend on onboard memory. -/
@[simp] theorem winner_withMem (m : Memory) (a : Addr) : winner (s.withMem m) a = winner s a := rfl

theorem IsolatesMemory.congr {f g : State → Step} (hg : IsolatesMemory s g) (h : ∀ m, f (s.withMem m) = g (s.withMem m)) :
    IsolatesMemory s f := by
  obtain ⟨t, ht⟩ := hg
  exact ⟨t, fun m => (h m).trans (ht m)⟩

/-- A choice by a condition that does not read onboard memory. -/
theorem IsolatesMemory.ite {f g : State → Step} {b : State → Bool} (hb : ∀ m, b (s.withMem m) = b s) (hf : IsolatesMemory s f)
    (hg : IsolatesMemory s g) : IsolatesMemory s fun u => if b u then f u else g u := by
  cases hs : b s with
  | true => exact hf.congr fun m => if_pos ((hb m).trans hs)
  | false => exact hg.congr fun m => if_neg (Bool.eq_false_iff.1 ((hb m).trans hs))

/-! ### The handlers that never reach onboard memory -/

theorem regReadVia_isolates (d : Descriptor) (hit : Option Hit) (a : Addr) : IsolatesMemory s (regReadVia d hit a) :=
  ⟨(s.touchRegister (reducedAddr d.mask a)).finishRead s.cfg.float hit (some (validOutput d false)), fun _ => rfl⟩

theorem regWriteVia_isolates (d : Descriptor) (hit : Option Hit) (a : Addr) : IsolatesMemory s (regWriteVia d hit a) :=
  ⟨(s.touchRegister (reducedAddr d.mask a)).finishWrite hit, fun _ => rfl⟩

theorem foreignReadVia_isolates (e : Entry) (a : Addr) : IsolatesMemory s (foreignReadVia e a) :=
  ⟨(s.call (.foreignRead e.desc.ownerId (reducedAddr e.desc.mask a))).finishRead (foreignAnswer s e.desc.ownerId).1
    (some (.entry e.id)) (some (validOutput e.desc (foreignAnswer s e.desc.ownerId).2)), fun _ => rfl⟩

theorem foreignWriteVia_isolates (e : Entry) (a : Addr) (v : Byte) : IsolatesMemory s (foreignWriteVia e a v) :=
  ⟨(s.call (.foreignWrite e.desc.ownerId (reducedAddr e.desc.mask a) v)).finishWrite (some (.entry e.id)), fun _ => rfl⟩

theorem passRead_isolates (hit : Hit) (a : Addr) : IsolatesMemory s (passRead hit a) :=
  ⟨(s.call (.sysRead a)).finishRead (sysByte s a) (some hit) none, fun _ => rfl⟩

theorem passWrite_isolates (hit : Hit) (a : Addr) (v : Byte) : IsolatesMemory s (passWrite hit a v) :=
  ⟨(s.sysPut a v).finishWrite (some hit), fun _ => rfl⟩

/-- The register rows are called under the same descriptor, whatever onboard memory holds. -/
theorem regRows_isolate (a : Addr) (v : Byte) :
    IsolatesMemory s (exec (.regRead a)) ∧ IsolatesMemory s (exec (.regWrite a v)) :=
  let p := calledThrough .reg (regDesc s.cfg) s a
  ⟨(regReadVia_isolates p.1 p.2 a).congr fun _ => rfl, (regWriteVia_isolates p.1 p.2 a).congr fun _ => rfl⟩

/-! ### The handlers that reach it through an open window only -/

variable (ho : s.windowOpen = false)
include ho

theorem windowReadVia_isolates (d : Descriptor) (hit : Option Hit) (a : Addr) : IsolatesMemory s (windowReadVia d hit a) :=
  ⟨(s.setValid false).finishRead s.cfg.float hit (some false), fun _ => windowReadVia_closed d hit a ho⟩

theorem windowWriteVia_isolates (d : Descriptor) (hit : Option Hit) (a : Addr) (v : Byte) :
    IsolatesMemory s (windowWriteVia d hit a v) :=
  ⟨(s.setValid false).finishWrite hit, fun _ => windowWriteVia_closed d hit a v ho⟩

theorem romhReadAt_isolates (a : Addr) : IsolatesMemory s (romhReadAt a) :=
  (passRead_isolates .romh a).congr fun _ => romhReadAt_passed a fun h => Bool.eq_false_iff.1 ho h.2

theorem romhWriteAt_isolates (a : Addr) (v : Byte) : IsolatesMemory s (romhWriteAt a v) :=
  (passWrite_isolates .romh a v).congr fun _ => romhWriteAt_passed a v (not_redirectsWrite_of_closed ho a)

/-! ### The routing of R115 -/

theorem busRead_isolates (a : Addr) : IsolatesMemory s (busRead a) := by
  cases hw : winner s a with
  | none =>
    have hfall : IsolatesMemory s (fallRead a) :=
      .ite (fun _ => rfl) (passRead_isolates .roml a) <| .ite (fun _ => rfl) (romhReadAt_isolates ho a) <|
        .ite (fun _ => rfl) (passRead_isolates .fb1 a) <| .ite (fun _ => rfl) (passRead_isolates .fb2 a) <|
          passRead_isolates .none a
    exact hfall.congr fun m => by simp only [busRead, winner_withMem, hw]
  | some e =>
    refine IsolatesMemory.congr (g := entryRead e a) ?_ fun m => by simp only [busRead, winner_withMem, hw]
    unfold entryRead
    cases e.desc.role with
    | reg => exact regReadVia_isolates _ _ a
    | win => exact windowReadVia_isolates ho _ _ a
    | foreign => exact foreignReadVia_isolates e a

theorem busWrite_isolates (a : Addr) (v : Byte) : IsolatesMemory s (busWrite a v) := by
  cases hw : winner s a with
  | none =>
    have hfall : IsolatesMemory s (fallWrite a v) :=
      .ite (fun _ => rfl) (passWrite_isolates .roml a v) <| .ite (fun _ => rfl) (romhWriteAt_isolates ho a v) <|
        .ite (fun _ => rfl) (passWrite_isolates .fb1 a v) <| .ite (fun _ => rfl) (passWrite_isolates .fb2 a v) <|
          passWrite_isolates .none a v
    exact hfall.congr fun m => by simp only [busWrite, winner_withMem, hw]
  | some e =>
    refine IsolatesMemory.congr (g := entryWrite e a v) ?_ fun m => by simp only [busWrite, winner_withMem, hw]
    unfold entryWrite
    cases e.desc.role with
    | reg => exact regWriteVia_isolates _ _ a
    | win => exact windowWriteVia_isolates ho _ _ a v
    | foreign => exact foreignWriteVia_isolates e a v

/-- The foreign rows are the entry's handler, or fall to the class row (R84, log 10). -/
theorem foreignRows_isolate (a : Addr) (v : Byte) :
    IsolatesMemory s (exec (.foreignRead a)) ∧ IsolatesMemory s (exec (.foreignWrite a v)) := by
  by_cases hf : ∃ e, winner s a = some e ∧ e.desc.role = .foreign
  · obtain ⟨e, hw, hr⟩ := hf
    exact ⟨(foreignReadVia_isolates e a).congr fun m => by simp only [exec, execForeignRead, winner_withMem, hw, if_pos hr],
      (foreignWriteVia_isolates e a v).congr fun m => by simp only [exec, execForeignWrite, winner_withMem, hw, if_pos hr]⟩
  · have hnot (m : Memory) : ∀ e, winner (s.withMem m) a = some e → e.desc.role ≠ .foreign :=
      fun e hw hr => hf ⟨e, hw, hr⟩
    exact ⟨(busRead_isolates ho a).congr fun m => ((foreignCyclesTouchNoState (s.withMem m) a v).2 (hnot m)).1,
      (busWrite_isolates ho a v).congr fun m => ((foreignCyclesTouchNoState (s.withMem m) a v).2 (hnot m)).2⟩

/-- The window rows are called under the same descriptor, whatever onboard memory holds. -/
theorem windowRows_isolate (a : Addr) (v : Byte) :
    IsolatesMemory s (exec (.windowRead a)) ∧ IsolatesMemory s (exec (.windowWrite a v)) :=
  let p := calledThrough .win (winDesc s.cfg) s a
  ⟨(windowReadVia_isolates ho p.1 p.2 a).congr fun _ => rfl, (windowWriteVia_isolates ho p.1 p.2 a v).congr fun _ => rfl⟩

end Isolation

/-- Settles O26: the switch keeps the window closed, and then no handler a bus cycle can run reaches onboard memory. -/
theorem hiddenModeIsolatesMemory : Obligations.HiddenModeIsolatesMemory := by
  unfold Obligations.HiddenModeIsolatesMemory
  intro i s hi hs
  have ho : s.windowOpen = false := windowOpen_of_switchOff hs
  show IsolatesMemory s (exec i)
  cases i with
  | foreignWrite a v => exact (foreignRows_isolate ho a v).2
  | foreignRead a => exact (foreignRows_isolate ho a 0#8).1
  | regWrite a v => exact (regRows_isolate a v).2
  | regRead a => exact (regRows_isolate a 0#8).1
  | windowWrite a v => exact (windowRows_isolate ho a v).2
  | windowRead a => exact (windowRows_isolate ho a 0#8).1
  | romlWrite a v => exact passWrite_isolates .roml a v
  | romlRead a => exact passRead_isolates .roml a
  | romhWrite a v => exact romhWriteAt_isolates ho a v
  | romhRead a => exact romhReadAt_isolates ho a
  | fb1Write a v => exact passWrite_isolates .fb1 a v
  | fb1Read a => exact passRead_isolates .fb1 a
  | fb2Write a v => exact passWrite_isolates .fb2 a v
  | fb2Read a => exact passRead_isolates .fb2 a
  | sysWrite a v => exact passWrite_isolates .none a v
  | sysRead a => exact passRead_isolates .none a
  | buswr a v => exact busWrite_isolates ho a v
  | busrd a => exact busRead_isolates ho a
  | _ => cases hi

end Sys2Proof.Machine
end

section
/-! SUPPORT. The host-side operations whole (R210 to R216). SNAPSAVE: the record. SNAPLOAD: the path that gives `enabled` the
record's value, the switch and the contents, and the round trip. ATTACH, DETACH and SETDEF: the image and the host-side fields. -/

namespace Sys2Proof.Machine

/-! ### SNAPSAVE -/

section Snapsave

variable {s t : State}

theorem exec_snapsave_disabled (he : s.blk.enabled = false) : exec .snapsave s = .next (s.finish .ok (.record none)) := by
  simp [exec, execSnapsave, he]

theorem exec_snapsave_enabled {m : Memory} (he : s.blk.enabled = true) (hm : s.blk.mem = some m) :
    exec .snapsave s = .next (s.finish .ok (.record (some (snapshotOf s m)))) := by
  simp [exec, execSnapsave, he, hm]

/-- A record that SNAPSAVE outputs is the one of an enabled instance and its memory (R211). -/
theorem record_of_snapsave {r : SnapshotRecord} (h : exec .snapsave s = .next t) (hr : t.out.value = .record (some r)) :
    s.blk.enabled = true ∧ ∃ m, s.blk.mem = some m ∧ r = snapshotOf s m := by
  cases he : s.blk.enabled with
  | false =>
    rw [exec_snapsave_disabled he] at h
    cases h
    cases hr
  | true =>
    cases hm : s.blk.mem with
    | none => simp [exec, execSnapsave, he, hm] at h
    | some m =>
      rw [exec_snapsave_enabled he hm] at h
      cases h
      cases hr
      exact ⟨rfl, m, rfl, rfl⟩

end Snapsave

/-- Settles O42: the output of a disabled instance is no record, that of an enabled one is `snapshotOf` its memory. -/
theorem snapsaveOutputsTheRecord : Obligations.SnapsaveOutputsTheRecord := by
  unfold Obligations.SnapsaveOutputsTheRecord
  refine fun s => ⟨rfl, exec_snapsave_disabled, fun he m hm => ?_⟩
  exact ⟨snapshotOf s m, exec_snapsave_enabled he hm, rfl, rfl, rfl, rfl, (snapshotOf s m).rawMemory.length_eq,
    fun off hoff => m.toRaw_getElem? hoff⟩

/-! ### SNAPLOAD: the switch and the contents -/

section Load

variable {s : State}

/-- The events of the switch step of a load, in order (R212). -/
def loadSwitchEvents (c : Config) (blk : Block) (b : Bool) : List Event :=
  if blk.enabled && (b != blk.switchOn) then
    if b then .cfgMapped :: if c.loadFiresTrigger then [.nmiTrigger] else []
    else .cfgReverted :: if blk.freezePending then [.nmiRelease] else []
  else []

@[simp] theorem State.loadSwitch_out (s : State) (b : Bool) :
    (s.loadSwitch b).out = s.out.emitting (loadSwitchEvents s.cfg s.blk b) := by
  unfold State.loadSwitch loadSwitchEvents Out.emitting
  split
  · next hb => simp [hb]
  · next hb =>
    have hne : (b != s.blk.switchOn) = true := by simpa using hb
    cases he : s.blk.enabled with
    | false => simp
    | true => cases b <;> cases hf : s.cfg.loadFiresTrigger <;> simp [hne]

/-- The block after the switch and the contents of `r` are loaded into `b` (R212). -/
def loadedBlock (c : Config) (b : Block) (r : SnapshotRecord) : Block :=
  { b with switchOn := r.switchOn, page := r.currentPage % c.pageCount, valid := false,
           mem := if b.enabled then some (Memory.ofBytes r.rawMemory.bytes) else none,
           cfgMapped := b.enabled && r.switchOn,
           freezePending := b.enabled && r.switchOn && (b.freezePending || c.loadFiresTrigger && !b.switchOn) }

/-- Under INV5 and INV6 the configuration after a load is the record's, whether or not the switch moved. -/
theorem BlockInv.cfgMapped_load (h : BlockInv s.cfg s.blk) (b : Bool) :
    (s.loadSwitch b).blk.cfgMapped = (s.blk.enabled && b) := by
  rw [State.loadSwitch_blk]
  cases he : s.blk.enabled <;> cases hs : s.blk.switchOn <;> cases b <;> simp [h.cfgMapped, he, hs]

/-- Under INV6 the latch after a load with the switch on is set by a freeze that was pending or a trigger that fired. -/
theorem BlockInv.freezePending_load (h : BlockInv s.cfg s.blk) (b : Bool) : (s.loadSwitch b).blk.freezePending =
    (s.blk.enabled && b && (s.blk.freezePending || s.cfg.loadFiresTrigger && !s.blk.switchOn)) := by
  rw [State.loadSwitch_blk]
  dsimp only
  unfold latchAfterLoad
  cases he : s.blk.enabled with
  | false => simp [(h.quiet_of_disabled he).2]
  | true =>
    cases hs : s.blk.switchOn with
    | false => cases b <;> simp [(h.quiet_of_switchOff hs).2]
    | true => cases b <;> simp [Bool.or_comm]

/-- INV2: a disabled instance has no memory. -/
theorem BlockInv.mem_eq_none {c : Config} {b : Block} (h : BlockInv c b) (he : b.enabled = false) : b.mem = none := by
  simpa [he] using h.memPresent

/-- The switch and the contents of a load, whole: what they write. -/
theorem State.load_blk (hp : paramsOk s.cfg = true) (h : BlockInv s.cfg s.blk) (r : SnapshotRecord) :
    ((s.loadSwitch r.switchOn).loadContents r).done.blk = loadedBlock s.cfg s.blk r := by
  have hmem : (if s.blk.enabled then some (Memory.ofBytes r.rawMemory.bytes) else s.blk.mem) =
      if s.blk.enabled then some (Memory.ofBytes r.rawMemory.bytes) else none := by
    cases he : s.blk.enabled <;> simp [h.mem_eq_none, he]
  rw [loadedBlock, ← h.freezePending_load, ← h.cfgMapped_load]
  simp [(geometry_of_ok hp).maskPage_eq, hmem]

/-! ### SNAPLOAD: the path before it -/

/-- The block once `enabled` has the value `en`: as it is, or after the enable or the disable path (R161, R162). -/
def blockWithEnabled (s : State) (en : Bool) : Block :=
  if en = s.blk.enabled then s.blk else if en then enabledBlock s else disabledBlock s.blk

/-- The events of the path that gives `enabled` the value `en`, in order. -/
def pathEvents (b : Block) (en : Bool) : List Event :=
  if en = b.enabled then [] else if en then (if b.switchOn then [.cfgMapped] else []) else disableEvents b

/-- `u` is `s` after the path that gives `enabled` the value `en`, but for the outputs that are no events. -/
structure GivenEnabled (s : State) (en : Bool) (u : State) : Prop where
  cfg : u.cfg = s.cfg
  env : u.env = s.env
  blk : u.blk = blockWithEnabled s en
  events : u.out.events = s.out.events ++ pathEvents s.blk en

theorem GivenEnabled.refl (s : State) : GivenEnabled s s.blk.enabled s :=
  ⟨rfl, rfl, by simp [blockWithEnabled], by simp [pathEvents]⟩

theorem State.disablePath_blk_eq (s : State) : s.disablePath.blk = disabledBlock s.blk := s.disablePath_blk

theorem enablePath_givenEnabled (he : s.blk.enabled = false) : GivenEnabled s true (s.call .allocOk).enablePath where
  cfg := State.enablePath_cfg _
  env := State.enablePath_env _
  blk := by rw [State.enablePath_blk_eq, blockWithEnabled, he]; rfl
  events := by rw [State.enablePath_out, pathEvents, he]; rfl

theorem ensureDisabled_givenEnabled (s : State) : GivenEnabled s false s.ensureDisabled := by
  unfold State.ensureDisabled
  split
  · next he =>
    exact ⟨s.disablePath_cfg, s.disablePath_env, by rw [s.disablePath_blk_eq, blockWithEnabled, he]; rfl,
      by rw [State.disablePath_out, pathEvents, he]; rfl⟩
  · next he =>
    have he : s.blk.enabled = false := by simpa using he
    exact he ▸ .refl s

theorem blockWithEnabled_enabled (s : State) (en : Bool) : (blockWithEnabled s en).enabled = en := by
  unfold blockWithEnabled
  split
  · next h => exact h.symm
  · cases en <;> rfl

/-- Neither path writes the switch or the host-side fields (R161, R162). -/
theorem blockWithEnabled_kept (s : State) (en : Bool) : (blockWithEnabled s en).switchOn = s.blk.switchOn ∧
    (blockWithEnabled s en).attachedModel = s.blk.attachedModel ∧ (blockWithEnabled s en).isDefault = s.blk.isDefault := by
  unfold blockWithEnabled
  split_ifs <;> exact ⟨rfl, rfl, rfl⟩

/-- Only the disable path writes the latch. -/
theorem blockWithEnabled_true_freezePending (s : State) : (blockWithEnabled s true).freezePending = s.blk.freezePending := by
  unfold blockWithEnabled
  split <;> rfl

theorem blockWithEnabled_inv (hp : paramsOk s.cfg = true) (h : BlockInv s.cfg s.blk) (en : Bool) :
    BlockInv s.cfg (blockWithEnabled s en) := by
  unfold blockWithEnabled
  split
  · exact h
  · next hne =>
    cases en with
    | true => exact s.enablePath_blk_eq ▸ enablePath_blockInv hp h (by simpa using hne)
    | false => exact s.disablePath_blk_eq ▸ disablePath_blockInv h

/-- The events of a load are those of the path and those of the switch step after it. -/
theorem loadEvents_eq (s : State) (r : SnapshotRecord) : loadEvents s r =
    pathEvents s.blk r.enabled ++ loadSwitchEvents s.cfg (blockWithEnabled s r.enabled) r.switchOn := by
  unfold loadEvents pathEvents loadSwitchEvents
  rw [blockWithEnabled_enabled, (blockWithEnabled_kept s _).1]
  cases hr : r.enabled with
  | true =>
    rw [blockWithEnabled_true_freezePending]
    cases he : s.blk.enabled <;> by_cases hb : r.switchOn = s.blk.switchOn <;> simp [hb]
  | false => cases he : s.blk.enabled <;> simp

/-! ### SNAPLOAD whole -/

theorem ensureEnabled_of_enabled (k : State → Step) (he : s.blk.enabled = true) : ensureEnabled k s = k s := if_pos he

section Accepted

variable (ht : s.env.inp.record.typed s.cfg = true) (hv : s.env.inp.record.formatVersion = s.cfg.snapVersion)
  (ha : s.env.inp.record.enabled = true → s.blk.enabled = false →
    s.env.inp.allocOk = true ∧ ∀ k, s.cfg.nSlots = some k → s.blk.H.length + 2 ≤ k)

include ht hv

/-- SNAPLOAD of an accepted record that asks for `enabled` = 0 (R212). -/
theorem exec_snapload_disabled (hr : s.env.inp.record.enabled = false) :
    exec .snapload s =
      .next ((s.ensureDisabled.loadSwitch s.env.inp.record.switchOn).loadContents s.env.inp.record).done := by
  simp [exec, execSnapload, loadRecord, ht, hv, hr]

include ha

/-- SNAPLOAD of an accepted record, with the allocation it may need granted, loads into the state after the path. -/
theorem exec_snapload_given : ∃ u, GivenEnabled s s.env.inp.record.enabled u ∧
    exec .snapload s = .next ((u.loadSwitch s.env.inp.record.switchOn).loadContents s.env.inp.record).done := by
  cases hr : s.env.inp.record.enabled with
  | false => exact ⟨_, ensureDisabled_givenEnabled s, exec_snapload_disabled ht hv hr⟩
  | true =>
    rw [exec_snapload_enabled ht hv hr]
    cases he : s.blk.enabled with
    | true => exact ⟨s, he ▸ .refl s, ensureEnabled_of_enabled _ he⟩
    | false =>
      obtain ⟨halloc, hroom⟩ := ha hr he
      exact ⟨_, enablePath_givenEnabled he, ensureEnabled_enablePath _ he halloc (hasRoom_iff.2 hroom)⟩

/-- A successful SNAPLOAD: its result, the parameters and the environment kept, the block and the events it leaves (R212). -/
theorem exec_snapload_loads (hp : paramsOk s.cfg = true) (h : BlockInv s.cfg s.blk) :
    ∃ t, exec .snapload s = .next t ∧ t.out.result = .ok ∧ t.cfg = s.cfg ∧ t.env = s.env ∧
      t.blk = loadedBlock s.cfg (blockWithEnabled s s.env.inp.record.enabled) s.env.inp.record ∧
      t.out.events = s.out.events ++ loadEvents s s.env.inp.record := by
  obtain ⟨u, hu, hexec⟩ := exec_snapload_given ht hv ha
  have hinv : BlockInv u.cfg u.blk := by rw [hu.cfg, hu.blk]; exact blockWithEnabled_inv hp h _
  refine ⟨_, hexec, rfl, by simp [hu.cfg], by simp [hu.env], ?_, ?_⟩
  · rw [State.load_blk (hu.cfg ▸ hp) hinv, hu.cfg, hu.blk]
  · simp [Out.emitting, hu.events, hu.cfg, hu.blk, loadEvents_eq]

end Accepted

/-- Onboard memory made of a byte sequence, read byte by byte. -/
theorem onboard_ofBytes {bs : List Byte} (hm : s.blk.mem = some (Memory.ofBytes bs)) {off : Nat} (hoff : off < bs.length) :
    onboard s off = bs[off]? := by
  rw [onboard, hm, Option.map_some, Memory.read_ofBytes, List.getElem?_eq_getElem hoff, Option.getD_some]

theorem SnapshotRecord.typed_iff {c : Config} {r : SnapshotRecord} :
    r.typed c = true ↔ r.rawMemory.bytes.length = c.memSize := by
  rw [r.rawMemory.length_eq, SnapshotRecord.typed, decide_eq_true_eq]

/-- A saved record has the size of its own instance's memory (R211). -/
theorem typed_snapshotOf (s : State) (m : Memory) : (snapshotOf s m).typed s.cfg = true :=
  SnapshotRecord.typed_iff.2 (snapshotOf s m).rawMemory.length_eq

end Load

/-- Settles O58: the length of the byte sequence is the size that the type check compares. -/
theorem illTypedRecordIsRefused : Obligations.IllTypedRecordIsRefused := by
  unfold Obligations.IllTypedRecordIsRefused
  exact fun s hlen => if_neg (mt SnapshotRecord.typed_iff.1 hlen)

/-- Settles O44: a load leaves `loadedBlock` of the block after the path that gives `enabled` the record's value. The registry, by
the path: kept, with the two own entries appended, or with them removed. -/
theorem snaploadReplacesTheState : Obligations.SnaploadReplacesTheState := by
  unfold Obligations.SnaploadReplacesTheState
  intro s hinv r ht hv ha
  obtain ⟨hp, hb, -⟩ := s.inv_iff.1 hinv
  obtain ⟨t, hexec, hok, hcfg, henv, hblk, hev⟩ := exec_snapload_loads ht hv ha hp hb
  obtain ⟨hswitch, hmodel, hdefault⟩ := blockWithEnabled_kept s r.enabled
  have hen : t.blk.enabled = r.enabled := by rw [hblk]; exact blockWithEnabled_enabled s _
  have hmem : t.blk.mem = if r.enabled then some (Memory.ofBytes r.rawMemory.bytes) else none := by
    rw [hblk, loadedBlock, blockWithEnabled_enabled]
  refine ⟨t, hexec, hok, hcfg, henv, hen, by rw [hblk]; rfl, by rw [hblk]; rfl, by rw [hblk]; rfl, ?_, fun hr off hoff => ?_,
    fun hr => by simp [hmem, hr], ?_, hev, fun hr => ?_, fun hr he => ?_, fun hr he => ?_, ?_, ?_⟩
  · rw [hblk, loadedBlock, blockWithEnabled_enabled]
  · exact onboard_ofBytes (by rw [hmem, if_pos hr]) (SnapshotRecord.typed_iff.1 ht ▸ hoff)
  · rw [hblk, loadedBlock, blockWithEnabled_enabled, hswitch]
    cases hr : r.enabled with
    | false => simp
    | true => rw [blockWithEnabled_true_freezePending]
  · have hkept : blockWithEnabled s r.enabled = s.blk := if_pos hr
    rw [hblk, hkept]
    exact ⟨rfl, rfl, rfl⟩
  · have henabled : blockWithEnabled s r.enabled = enabledBlock s := by simp [blockWithEnabled, hr, he]
    rw [hblk, henabled]
    exact ⟨rfl, rfl, rfl⟩
  · have hdisabled : blockWithEnabled s r.enabled = disabledBlock s.blk := by simp [blockWithEnabled, hr, he]
    rw [hblk, hdisabled]
    exact ⟨rfl, rfl, rfl⟩
  · rw [hblk]; exact hmodel
  · rw [hblk]; exact hdefault

/-- Settles O45: the record has the instance's own size and version, so the load succeeds; the page is in range (INV1), and a
canonical memory within its size is determined by the saved bytes. -/
theorem snapshotRoundTrip : Obligations.SnapshotRoundTrip := by
  unfold Obligations.SnapshotRoundTrip
  intro s t r hinv hsave hval s' hc hreset hrec ha
  obtain ⟨hp, hb, -⟩ := s.inv_iff.1 hinv
  obtain ⟨he, m, hm, rfl⟩ := record_of_snapsave hsave hval
  obtain ⟨hwf, hwithin⟩ := hb.memCanonical m hm
  have hp' : paramsOk s'.cfg = true := hc ▸ hp
  have hroom : ∀ k, s'.cfg.nSlots = some k → s'.blk.H.length + 2 ≤ k := by
    rw [hreset]
    exact fun k hk => two_le_of_ok hp' hk
  obtain ⟨u, hexec, hok, -, -, hblk, -⟩ := exec_snapload_loads (s := s')
    (by rw [hrec, hc]; exact typed_snapshotOf s m) (by rw [hrec, hc]; rfl) (fun _ _ => ⟨ha, hroom⟩) hp'
    (hreset ▸ blockInv_reset hp')
  rw [hrec, hc] at hblk
  have hen : (blockWithEnabled s' (snapshotOf s m).enabled).enabled = true := blockWithEnabled_enabled s' true
  refine ⟨u, hexec, hok, ?_, by rw [hblk]; rfl, ?_, ?_⟩
  · rw [hblk, he]; exact hen
  · rw [hblk]; exact Nat.mod_eq_of_lt hb.page
  · rw [hblk, loadedBlock, if_pos hen, hm]
    exact congrArg some (Memory.ofBytes_toRaw hwf hwithin)

/-! ### ATTACH -/

section Attach

variable {s u : State} {m : ModelId}

theorem exec_attach_otherModel (hm : m ≠ s.cfg.modelCanon) : exec (.attach m) s = .refused .unknownModel := if_neg hm

theorem imageBad_of_length {c : Config} {img : List Byte} (hlen : img.length ≠ c.memSize) : imageBad c (some img) = true := by
  cases hbad : imageBad c (some img) with
  | true => rfl
  | false => exact absurd (length_of_imageOk (imageBad_eq_false_iff.1 hbad img rfl)) hlen

/-- A malformed image ends ATTACH before the enable path (R232). -/
theorem exec_attach_imageBad (hi : imageBad s.cfg s.env.inp.image = true) :
    exec (.attach s.cfg.modelCanon) s = .next (s.raise .invalidImage) := by
  simp [exec, execAttach, hi]

/-- The image of an attach, byte by byte. -/
theorem onboard_attachImage {img : List Byte} {off : Nat} (hoff : off < img.length) :
    onboard (u.attachImage m (some img)).done off = img[off]? :=
  onboard_ofBytes rfl hoff

/-- What the last part of ATTACH does to the block of a ready state: the model, and the image if there is one (R214). -/
theorem attachImage_done_writes (u : State) (m : ModelId) {c : Config} {image : Option (List Byte)}
    (hok : ∀ img, image = some img → imageOk c img = true) :
    (u.attachImage m image).done.blk =
      { u.blk with attachedModel := some m, mem := (u.attachImage m image).done.blk.mem } ∧
    (image = none → (u.attachImage m image).done.blk.mem = u.blk.mem) ∧
    ∀ img, image = some img → ∀ off < c.memSize, onboard (u.attachImage m image).done off = img[off]? := by
  refine ⟨rfl, ?_, ?_⟩
  · rintro rfl
    rfl
  · rintro img rfl off hoff
    exact onboard_attachImage (length_of_imageOk (hok img rfl) ▸ hoff)

end Attach

/-- Settles O46: the checks of the model and of the image come first; the model and the image are then written where `enabled`
is 1 already, or into the state that SETEN 1 leaves. -/
theorem attachEnablesAndCopiesTheImage : Obligations.AttachEnablesAndCopiesTheImage := by
  unfold Obligations.AttachEnablesAndCopiesTheImage
  refine fun s m => ⟨exec_attach_otherModel, ?_, ?_, ?_⟩
  · rintro rfl ⟨img, himg, hlen⟩
    exact exec_attach_imageBad (himg ▸ imageBad_of_length hlen)
  · rintro rfl hok he
    have hattach := exec_attach_canonical (imageBad_eq_false_iff.2 hok)
    rw [ensureEnabled_of_enabled _ he] at hattach
    exact ⟨_, hattach, rfl, rfl, rfl, attachImage_done_writes s _ hok⟩
  · rintro rfl hok he ha hroom
    have hgo (k : State → Step) := ensureEnabled_enablePath k he ha (hasRoom_iff.2 hroom)
    have hattach := exec_attach_canonical (imageBad_eq_false_iff.2 hok)
    rw [hgo] at hattach
    exact ⟨_, _, (exec_seten_true he).trans (hgo _), hattach, rfl, rfl, rfl, attachImage_done_writes _ _ hok⟩

/-! ### DETACH and SETDEF -/

/-- The host-side fields as DETACH leaves them (R215). -/
def State.clearHostSide (s : State) : State := { s with blk := { s.blk with attachedModel := none, isDefault := false } }

theorem exec_detach (s : State) : exec .detach s = .next s.ensureDisabled.done.clearHostSide := rfl

theorem State.ensureDisabled_done {s : State} (he : s.blk.enabled = true) : s.ensureDisabled.done = { s with
    blk := disabledBlock s.blk, out := (s.out.control .ok .none).emitting (disableEvents s.blk) } := by
  rw [State.ensureDisabled, if_pos he]
  exact State.done_eq_of_parts s.disablePath_cfg s.disablePath_blk s.disablePath_env s.disablePath_out

/-- Settles O47: the disable path of an enabled instance, then the two host-side fields. -/
theorem detachDisablesAndClears : Obligations.DetachDisablesAndClears := by
  unfold Obligations.DetachDisablesAndClears
  refine fun s => ⟨rfl, fun he => ?_, fun he => ?_⟩
  · rw [exec_detach, State.ensureDisabled_done he]
    rfl
  · rw [exec_detach, State.ensureDisabled, if_neg (by simp [he])]
    rfl

/-- Settles O48: `isDefault` is written only where a model is attached. -/
theorem setdefMarksTheAttachedModel : Obligations.SetdefMarksTheAttachedModel := by
  unfold Obligations.SetdefMarksTheAttachedModel
  refine fun s => ⟨rfl, fun ha => ?_, fun ha => ?_⟩
  · simp only [exec, execSetdef, if_pos (Option.isSome_iff_ne_none.2 ha)]
    rfl
  · have hnone : s.blk.attachedModel.isSome = false := by rw [ha]; rfl
    simp only [exec, execSetdef, hnone]
    rfl

end Sys2Proof.Machine
end

section
/-! SUPPORT. The bus side has no faults (R236): the handlers that reach onboard memory complete wherever INV2 holds, all others always,
and the routing of R115 chooses among them. -/

namespace Sys2Proof.Machine

/-- The outcome is a next state, neither a fault nor a refusal. -/
def Completes (x : Step) : Prop := ∃ t, x = .next t

theorem completes_next (t : State) : Completes (.next t) := ⟨t, rfl⟩

theorem Completes.ite {x y : Step} (p : Prop) [Decidable p] (hx : Completes x) (hy : Completes y) :
    Completes (if p then x else y) := by
  split
  · exact hx
  · exact hy

theorem passRead_completes (hit : Hit) (a : Addr) (s : State) : Completes (passRead hit a s) := completes_next _

theorem passWrite_completes (hit : Hit) (a : Addr) (v : Byte) (s : State) : Completes (passWrite hit a v s) :=
  completes_next _

section MemoryPresent

variable {s : State} (hp : s.blk.memPresent = true)
include hp

/-! ### The handlers that reach onboard memory -/

theorem windowReadVia_completes (d : Descriptor) (hit : Option Hit) (a : Addr) : Completes (windowReadVia d hit a s) := by
  cases ho : s.windowOpen with
  | false => exact ⟨_, windowReadVia_closed d hit a ho⟩
  | true =>
    obtain ⟨m, hm⟩ := mem_of_windowOpen hp ho
    exact ⟨_, windowReadVia_open d hit a ho hm⟩

theorem windowWriteVia_completes (d : Descriptor) (hit : Option Hit) (a : Addr) (v : Byte) :
    Completes (windowWriteVia d hit a v s) := by
  cases ho : s.windowOpen with
  | false => exact ⟨_, windowWriteVia_closed d hit a v ho⟩
  | true =>
    obtain ⟨m, hm⟩ := mem_of_windowOpen hp ho
    exact ⟨_, windowWriteVia_open d hit a v ho hm⟩

theorem romhReadAt_completes (a : Addr) : Completes (romhReadAt a s) := by
  by_cases h : isVector s.cfg a = true ∧ s.windowOpen = true
  · obtain ⟨m, hm⟩ := mem_of_windowOpen hp h.2
    exact ⟨_, romhReadAt_redirected a h.1 h.2 hm⟩
  · rw [romhReadAt_passed a h]
    exact passRead_completes .romh a s

theorem romhWriteAt_completes (a : Addr) (v : Byte) : Completes (romhWriteAt a v s) := by
  by_cases h : redirectsWrite s a = true
  · have ho : s.windowOpen = true := eq_true_of_ne_false fun ho => not_redirectsWrite_of_closed ho a h
    obtain ⟨m, hm⟩ := mem_of_windowOpen hp ho
    exact ⟨_, romhWriteAt_redirected a v h hm⟩
  · rw [romhWriteAt_passed a v h]
    exact passWrite_completes .romh a v s

/-! ### The routing of R115 -/

theorem busRead_completes (a : Addr) : Completes (busRead a s) := by
  unfold busRead
  cases winner s a with
  | none =>
    exact .ite _ (passRead_completes .roml a s) <| .ite _ (romhReadAt_completes hp a) <|
      .ite _ (passRead_completes .fb1 a s) <| .ite _ (passRead_completes .fb2 a s) <| passRead_completes .none a s
  | some e =>
    show Completes (entryRead e a s)
    unfold entryRead
    cases e.desc.role with
    | reg => exact completes_next _
    | win => exact windowReadVia_completes hp _ _ a
    | foreign => exact completes_next _

theorem busWrite_completes (a : Addr) (v : Byte) : Completes (busWrite a v s) := by
  unfold busWrite
  cases winner s a with
  | none =>
    exact .ite _ (passWrite_completes .roml a v s) <| .ite _ (romhWriteAt_completes hp a v) <|
      .ite _ (passWrite_completes .fb1 a v s) <| .ite _ (passWrite_completes .fb2 a v s) <| passWrite_completes .none a v s
  | some e =>
    show Completes (entryWrite e a v s)
    unfold entryWrite
    cases e.desc.role with
    | reg => exact completes_next _
    | win => exact windowWriteVia_completes hp _ _ a v
    | foreign => exact completes_next _

/-- The foreign rows are the entry's handler, or fall to the class row (R84, log 10). -/
theorem foreignRead_completes (a : Addr) : Completes (exec (.foreignRead a) s) := by
  simp only [exec, execForeignRead]
  split
  · exact .ite _ (completes_next _) (busRead_completes hp a)
  · exact busRead_completes hp a

theorem foreignWrite_completes (a : Addr) (v : Byte) : Completes (exec (.foreignWrite a v) s) := by
  simp only [exec, execForeignWrite]
  split
  · exact .ite _ (completes_next _) (busWrite_completes hp a v)
  · exact busWrite_completes hp a v

theorem bus_completes {i : Instr} (hi : isBusCycle i = true) : Completes (exec i s) := by
  cases i with
  | foreignWrite a v => exact foreignWrite_completes hp a v
  | foreignRead a => exact foreignRead_completes hp a
  | windowWrite a v => exact windowWriteVia_completes hp _ _ a v
  | windowRead a => exact windowReadVia_completes hp _ _ a
  | romhWrite a v => exact romhWriteAt_completes hp a v
  | romhRead a => exact romhReadAt_completes hp a
  | buswr a v => exact busWrite_completes hp a v
  | busrd a => exact busRead_completes hp a
  | regWrite | regRead | romlWrite | romlRead | fb1Write | fb1Read | fb2Write | fb2Read | sysWrite | sysRead =>
    exact completes_next _
  | _ => cases hi

end MemoryPresent

/-- Settles O24: every bus cycle answers a next state, and its frame has the result Ok. -/
theorem busCyclesNeverFail : Obligations.BusCyclesNeverFail := by
  unfold Obligations.BusCyclesNeverFail
  intro i s hi hp
  obtain ⟨t, ht⟩ := bus_completes hp hi
  obtain ⟨_, _, -, frame⟩ := bus_frame hi ht
  exact ⟨t, ht, frame.result⟩

end Sys2Proof.Machine
end

section
/-! SUPPORT. The results other than Ok (R230 to R235): by which operation each is raised, and in which state. -/

namespace Sys2Proof.Machine

/-! ### The ways to raise -/

/-- The operations that take the enable path of R161. -/
def TakesEnablePath (c : Config) (i : Instr) : Prop := i = .seten true ∨ i = .snapload ∨ i = .attach c.modelCanon

/-- Each way an operation ends with a result other than Ok: a row of R230 per constructor, Idempotent with its two operations. -/
inductive Raises (s : State) : Instr → State → Prop
  | sameEnable : Raises s (.seten s.blk.enabled) (s.raise .idempotent)
  | sameSwitch : Raises s (.setsw s.blk.switchOn) (s.raise .idempotent)
  | noMemory {i : Instr} (hi : TakesEnablePath s.cfg i) (he : s.blk.enabled = false) (ha : s.env.inp.allocOk = false) :
      Raises s i ((s.call .allocOk).raise .outOfMemory)
  | badImage : Raises s (.attach s.cfg.modelCanon) (s.raise .invalidImage)
  | otherVersion : Raises s .snapload (s.raise .unsupportedSnapshotVersion)

section Inversion

variable {s t : State}

/-- An operation that goes on to Ok in an enabled state ends with Ok, or finds no memory (R163). -/
theorem ensureEnabled_ok_or_raises {f : State → State} (hf : ∀ u, (f u).out.result = .ok) {i : Instr}
    (hi : TakesEnablePath s.cfg i) (h : ensureEnabled (fun u => .next (f u)) s = .next t) :
    t.out.result = .ok ∨ Raises s i t := by
  rcases ensureEnabled_next h with ⟨-, hk⟩ | ⟨-, -, -, hk⟩ | ⟨he, ha, rfl⟩
  · cases hk; exact .inl (hf _)
  · cases hk; exact .inl (hf _)
  · exact .inr (.noMemory hi he ha)

theorem seten_ok_or_raises {b : Bool} (h : exec (.seten b) s = .next t) : t.out.result = .ok ∨ Raises s (.seten b) t := by
  simp only [exec, execSeten] at h
  split at h
  · next hb => subst hb; cases h; exact .inr .sameEnable
  · cases b with
    | true => exact ensureEnabled_ok_or_raises (f := State.done) (fun _ => rfl) (.inl rfl) h
    | false => cases h; exact .inl rfl

theorem setsw_ok_or_raises {b : Bool} (h : exec (.setsw b) s = .next t) : t.out.result = .ok ∨ Raises s (.setsw b) t := by
  simp only [exec, execSetsw] at h
  split at h
  · next hb => subst hb; cases h; exact .inr .sameSwitch
  · cases h; exact .inl rfl

theorem snapload_ok_or_raises (h : exec .snapload s = .next t) : t.out.result = .ok ∨ Raises s .snapload t := by
  obtain ⟨-, h⟩ := snapload_next h
  unfold loadRecord at h
  split at h
  · split at h
    · exact ensureEnabled_ok_or_raises (fun _ => rfl) (.inr (.inl rfl)) h
    · cases h; exact .inl rfl
  · cases h; exact .inr .otherVersion

theorem attach_ok_or_raises {m : ModelId} (h : exec (.attach m) s = .next t) :
    t.out.result = .ok ∨ Raises s (.attach m) t := by
  simp only [exec, execAttach] at h
  split at h
  · next hm =>
    subst hm
    split at h
    · cases h; exact .inr .badImage
    · exact ensureEnabled_ok_or_raises (fun _ => rfl) (.inr (.inr rfl)) h
  · cases h

/-- Whatever the operation, it ends with Ok or raises one of the four other results as R230 lists them. -/
theorem exec_ok_or_raises {i : Instr} (h : exec i s = .next t) : t.out.result = .ok ∨ Raises s i t := by
  cases hi : isBusCycle i with
  | true =>
    obtain ⟨_, _, -, frame⟩ := bus_frame hi h
    exact .inl frame.result
  | false =>
    cases i with
    | seten b => exact seten_ok_or_raises h
    | setsw b => exact setsw_ok_or_raises h
    | snapload => exact snapload_ok_or_raises h
    | attach m => exact attach_ok_or_raises h
    | hreg d =>
      simp only [exec, execHreg] at h
      split at h <;> cases h
      exact .inl rfl
    | snapsave =>
      simp only [exec, execSnapsave] at h
      split at h
      · split at h <;> cases h
        exact .inl rfl
      · cases h; exact .inl rfl
    | getresEnabled | getresSwitchOn | hunreg | dispatch | detach | setdef | reset => cases h; exact .inl rfl
    | getresMode | setmode | reservedE => cases h
    | _ => cases hi

end Inversion

/-- SNAPLOAD of a typed record of another version ends before the enable path (R212, R233). -/
theorem exec_snapload_otherVersion {s : State} (ht : s.env.inp.record.typed s.cfg = true)
    (hv : s.env.inp.record.formatVersion ≠ s.cfg.snapVersion) :
    exec .snapload s = .next (s.raise .unsupportedSnapshotVersion) := by
  simp only [exec, execSnapload, loadRecord, if_pos ht, if_neg hv]

/-! ### The obligations -/

/-- Settles O43: the version check comes before anything is written. -/
theorem snaploadRejectsOtherVersions : Obligations.SnaploadRejectsOtherVersions := by
  unfold Obligations.SnaploadRejectsOtherVersions
  exact fun _ => exec_snapload_otherVersion

/-- Settles O50: each way to raise ends the operation on the state it began in, at most after asking for the allocation. -/
theorem errorsChangeNothing : Obligations.ErrorsChangeNothing := by
  unfold Obligations.ErrorsChangeNothing
  intro i s t h herr
  have hr : Raises s i t := (exec_ok_or_raises h).resolve_left herr
  cases hr <;> exact ⟨rfl, rfl, rfl, rfl, rfl⟩

/-- Settles O51: Ok is none of the four results, and each way to raise has one of them and its operation. -/
theorem resultsByOperation : Obligations.ResultsByOperation := by
  unfold Obligations.ResultsByOperation
  intro i s t h
  rcases exec_ok_or_raises h with hok | hr
  · simp [hok]
  · cases hr with
    | sameEnable => exact ⟨nofun, nofun, nofun, fun _ => .inl rfl⟩
    | sameSwitch => exact ⟨nofun, nofun, nofun, fun _ => .inr rfl⟩
    | noMemory hi he ha => exact ⟨fun _ => ⟨hi, he, ha⟩, nofun, nofun, nofun⟩
    | badImage => exact ⟨nofun, fun _ => rfl, nofun, nofun⟩
    | otherVersion => exact ⟨nofun, nofun, fun _ => rfl, nofun⟩

end Sys2Proof.Machine
end

section
/-! SUPPORT. The reset (R260), and the order of enabling and switching on (R269): the switch edge freezes only where it finds the
instance enabled. -/

namespace Sys2Proof.Machine

/-- Settles O49: RESET gives the whole block its reset value and ends the operation. -/
theorem resetClearsTheBlock : Obligations.ResetClearsTheBlock := by
  unfold Obligations.ResetClearsTheBlock
  exact fun s => ⟨rfl, rfl⟩

/-- A moving switch, by the state it ends in (R141 to R143). -/
theorem exec_setsw_moves {s : State} {b : Bool} (hb : b ≠ s.blk.switchOn) : exec (.setsw b) s = .next { s with
    blk := { s.blk with switchOn := b, cfgMapped := if s.blk.enabled then b else s.blk.cfgMapped,
                        freezePending := if s.blk.enabled then b else s.blk.freezePending },
    out := (s.out.control .ok .none).emitting (switchEvents s.blk b) } := by
  rw [exec_setsw_of_ne s hb, State.moveSwitch_done]

/-- Settles O39: after SETEN 1 the switch edge finds the instance enabled and raises the freeze (R142); before it, the edge leaves the
latch as it was, clear by INV6, and the enable path only applies the configuration (R161). -/
theorem enableOrderDecidesTheFreeze : Obligations.EnableOrderDecidesTheFreeze := by
  unfold Obligations.EnableOrderDecidesTheFreeze
  intro s hinv he hs ha hslots
  obtain ⟨-, hb, -⟩ := s.inv_iff.1 hinv
  have hroom : hasRoom s.cfg s.blk.H 2 = true := hasRoom_iff.2 (by simp [hslots])
  have hedge : true ≠ s.blk.switchOn := by simp [hs]
  refine ⟨_, _, _, _, exec_seten_true_enabling he ha hroom, exec_setsw_moves hedge, exec_setsw_moves hedge,
    exec_seten_true_enabling he ha hroom, rfl, rfl, rfl, rfl, rfl, ?latch, ?frozen, ?mapped⟩
  case latch => simpa [enabledBlock, he] using (hb.quiet_of_switchOff hs).2
  case frozen => simp [Out.emitting, Out.calling, Out.control, switchEvents, enabledBlock, hs]
  case mapped => simp [Out.emitting, Out.calling, Out.control, switchEvents, he]

end Sys2Proof.Machine
end
